-- ==== Sys2Proof/Word.lean ====
section
/-! DEFINITION. The widths of ECPE: the 32-bit port word and the 256-bit value (`00_scope.md` R8). -/

namespace Sys2Proof

/-- `DW = 32`: the host port's word, and one command (R8, R90). -/
abbrev Word := BitVec 32

/-- `W = 256`: a field-element value, modulus, coefficient, coordinate or scalar (R8). -/
abbrev Wide := BitVec 256

/-- An 11-bit byte address of the register space (`AW = 11`, R8, R60). -/
abbrev Addr := BitVec 11

end Sys2Proof
end

