-- ==== Sys2Proof/Machine/Record.lean ====
section
/-! DEFINITION. The values the engine works on: the curve register, a point record, the loop variables of `SMUL`, and the
fault codes of `ERR` (`10_state.md` R21, R26, R42; `60_exceptions.md` R200). -/

namespace Sys2Proof.Machine

/-- The curve register `CURVE`: the modulus `p` and the coefficients `a`, `b` of `y² = x³ + a·x + b (mod p)` (R21). -/
structure Curve where
  p : Wide
  a : Wide
  b : Wide
deriving DecidableEq, Repr, Inhabited

/-- The seven fields of a point register (R26). -/
structure PointRec where
  /-- `V`: the register holds a point. -/
  v : Bool
  /-- `INF`: the tag, true for `Identity`. -/
  inf : Bool
  x : Wide
  y : Wide
  /-- The point's own copy of the coefficient `a`. -/
  ca : Wide
  /-- The point's own copy of the coefficient `b`. -/
  cb : Wide
  /-- The point's own copy of the modulus `p`. -/
  cp : Wide
deriving DecidableEq, Repr, Inhabited

/-- The hidden loop variables of `SMUL` (R42): `ACC` is the document's `result`, `CUR` its `current`, `KSH` its `k`. -/
structure LoopRegs where
  acc : PointRec
  cur : PointRec
  ksh : Wide
deriving DecidableEq, Repr, Inhabited

/-- The document's `Coords`, by value (R13, R26). -/
inductive Coords where
  | identity
  | affine (x y : Nat)
deriving DecidableEq, Repr

/-- The fault causes (R200). -/
inductive FaultCode where
  /-- 1 (R201). -/
  | invalidPoint
  /-- 2 (R202). -/
  | curveMismatch
  /-- 3: reserved, raised by nothing, since scalars are unsigned (R184, R203). -/
  | negativeScalar
  /-- 4 (R204). -/
  | nonInvertibleDivisor
  /-- 5 (R205). -/
  | operandRange
  /-- 6 (R206). -/
  | badModulus
  /-- 7 (R207). -/
  | uninitPoint
  /-- 8 (R208). -/
  | illegalCommand
deriving DecidableEq, Repr

end Sys2Proof.Machine
end

