-- ==== Sys2Proof/Machine/Arith.lean ====
section
/-! DEFINITION. The field functions of `40_field.md` R122 to R128, on exact natural numbers (R129); the modulus is the last
argument. -/

namespace Sys2Proof.Machine

/-- `bitlen(k)` is 0 for `k = 0` and `floor(log2(k)) + 1` otherwise (R10). -/
def bitlen (k : Nat) : Nat := if k = 0 then 0 else Nat.log2 k + 1

/-- `fadd(a, b, p) = (a + b) mod p` (R122). -/
def fadd (a b p : Nat) : Nat := (a + b) % p

/-- `fsub(a, b, p)`: "`a − b` if `a ≥ b` and `a − b + p` otherwise" (R123). -/
def fsub (a b p : Nat) : Nat := if b ≤ a then a - b else a + p - b

/-- `fmul(a, b, p) = (a · b) mod p` (R124). -/
def fmul (a b p : Nat) : Nat := (a * b) % p

/-- Euclid's algorithm on the remainders `r0`, `r1`, each carrying a factor `t` with `t · b ≡ r (mod p)` for the divisor `b`
that is being inverted. It answers the last non-zero remainder and its factor. How an inverse is computed is not prescribed
(R136); the first argument bounds the number of divisions. -/
def euclid (p : Nat) : Nat → Nat → Nat → Nat → Nat → Nat × Nat
  | 0, r0, t0, _, _ => (r0, t0)
  | n + 1, r0, t0, r1, t1 =>
    if r1 = 0 then (r0, t0)
    else euclid p n r1 t1 (r0 % r1) (fsub t0 (fmul (r0 / r1) t1 p) p)

/-- `finv(b, p)`: the unique `v` in `[0, p)` with `(b · v) mod p = 1` where there is one, that is where `gcd(b, p) = 1`; the
fault `NonInvertibleDivisor` otherwise (R127). The remainder halves at least every two divisions, so `2 · bitlen(p)` of them end. -/
def finv (b p : Nat) : Except FaultCode Nat :=
  match euclid p (2 * bitlen p) p 0 b 1 with
  | (g, t) => if g = 1 then .ok t else .error .nonInvertibleDivisor

/-- `fdiv(a, b, p) = fmul(a, finv(b, p), p)`, faulting exactly when `finv(b, p)` does, whatever `a` is (R126). -/
def fdiv (a b p : Nat) : Except FaultCode Nat :=
  match finv b p with
  | .ok v => .ok (fmul a v p)
  | .error c => .error c

/-- Square and multiply: `acc · base ^ e mod p`, one bit of `e` at a time from the least significant; the first argument bounds
the number of bits. -/
def powLoop (p : Nat) : Nat → Nat → Nat → Nat → Nat
  | 0, acc, _, _ => acc
  | n + 1, acc, base, e =>
    if e = 0 then acc
    else powLoop p n (if e % 2 = 1 then fmul acc base p else acc) (fmul base base p) (e / 2)

/-- `fpow(a, e, p) = (a ^ e) mod p` for `p ≥ 2`, with `fpow(a, 0, p) = 1` also for `a = 0` (R128); the exponent is an ordinary
integer and is not reduced. How the power is computed is not prescribed (R136). -/
def fpow (a e p : Nat) : Nat := powLoop p (bitlen e) 1 a e

end Sys2Proof.Machine
end

