-- ==== Sys2Proof/Config.lean ====
section
/-! DEFINITION. The identity of the block (`00_scope.md` R2), and what the spec leaves open: the latency of a command and the contents of the
hidden loop registers outside a running `SMUL`. The two open values are constants with no body, so nothing can be proved of them. -/

namespace Sys2Proof

/-- The identity a model should record (`00_scope.md` R2). -/
structure Identity where
  block : String
  repository : String
  /-- The one source document (R4). -/
  document : String
  commandSet : String
  /-- `W` (R8). -/
  width : Nat
  /-- Extensions and options: "There are no extensions or options" (R2). -/
  options : List String
deriving DecidableEq, Repr

/-- ECPE's identity (R2): block, repository, source document, command set, width. -/
def Config.identity : Identity where
  block := "ECPE"
  repository := "markxueyuan/elliptic_curve"
  document := "the source, a v7 software re-implementation specification"
  commandSet := "ECPE-1"
  width := 256
  options := []

/-- `LAT − 1` of a command for which the environment's schedule (`State.lats`) names no latency: any natural number
(`70_reset_and_hazards.md` R257: `1 ≤ LAT < ∞`; `93_implementation_defined.md` U18). It may depend on the command and on every operand value,
secret ones too (R257, R259), so its arguments are the fresh counter of the state, the command word, and the registers a command can read. -/
opaque Config.latency (fresh : Nat) (command : Word) (curve : Machine.Curve) (f : Vector Wide 8) (q : Vector Machine.PointRec 4) : Nat

/-- The contents of `ACC`, `CUR`, `KSH` outside a running `SMUL`: any value (`10_state.md` R42, `93_implementation_defined.md` U16).
The argument is the fresh counter of the state. -/
opaque Config.freeLoop : Nat → Machine.LoopRegs

end Sys2Proof
end

