-- ==== Sys2Proof/Machine/State.lean ====
section
/-! DEFINITION. The whole state of ECPE (`10_state.md` R20), the host agent's data beside it, the state after reset (R48), and
the reasons a step can stop. There is no program counter, no memory, no cache, no queue, no counter and no timer (R20, R32, R60). -/

namespace Sys2Proof.Machine

/-- The engine state `ST` (R39). -/
inductive Engine where
  | idle
  | busy
  | fault
deriving DecidableEq, Repr

/-- The input signals of the host port at one rising edge of `clk` (`20_memory.md` R61). -/
structure PortIn where
  /-- `rst_n`, active low: `false` is a hard reset at this edge (`70_reset_and_hazards.md` R242). -/
  rstN : Bool
  /-- `sel`: a transaction is presented. -/
  sel : Bool
  /-- `we`: with `sel`, true for a write and false for a read. -/
  we : Bool
  addr : Addr
  wdata : Word
deriving DecidableEq, Repr

/-- One line of the host's program (`30_encoding.md` R104), or one clock cycle of its own. -/
inductive HostLine where
  /-- One clock cycle with these inputs: `WR`, `RD`, a cycle without a transaction, or a cycle with `rst_n = 0`. -/
  | cycle (p : PortIn)
  /-- `WAIT`: repeat `RD 0x004` until bit 0 (`BUSY`) of the word read is 0. -/
  | wait
deriving DecidableEq, Repr

/-- The state of the machine. The fields from `curve` to `loop` are the spec's (R20). The fields from `left` to `got` are the
MODEL's own: the scheduler's freedom `LAT` (R16, R257), the source of free values, and the host agent (R14). -/
structure State where
  /-- `CURVE.P`, `CURVE.A`, `CURVE.B` (R21). -/
  curve : Curve
  /-- `F[0..7]` (R23). -/
  f : Vector Wide 8
  /-- `Q[0..3]` (R26). -/
  q : Vector PointRec 4
  /-- `CTRL.IE_DONE` (R34). -/
  ieDone : Bool
  /-- `CTRL.IE_FAULT` (R34). -/
  ieFault : Bool
  /-- `ST` (R39). -/
  st : Engine
  /-- `DONE` (R41). -/
  done : Bool
  /-- `ERR`, the fault code (R36). -/
  err : BitVec 4
  /-- `ERRCMD`, the command word that faulted (R37). -/
  errcmd : Word
  /-- `CMDR`, the last accepted command word (R38). -/
  cmdr : Word
  /-- `ACC`, `CUR`, `KSH`: hidden, used only inside `SMUL` (R42). -/
  loop : LoopRegs
  /-- Model: the clock edges still to pass before the one at which the command in flight completes. -/
  left : Nat
  /-- Model: `LAT − 1` of the next commands to be issued, as the environment schedules them (any list: R259), oldest first. -/
  lats : List Nat
  /-- Model: how many free values have been drawn (the argument of `Config.latency` and `Config.freeLoop`). -/
  fresh : Nat
  /-- Model: what the host will do at the coming clock edges. -/
  host : List HostLine
  /-- Model: the words the host has read, oldest first. -/
  got : List Word
deriving DecidableEq, Repr

/-- Why the machine would stop with a fault. NO constructor: an ECPE fault is a state of the machine (`ST = FAULT`, `60_exceptions.md`
R214), which the next step goes on from, and "there is no stuck state inside the engine" (`00_scope.md` R17). Safe: nothing stops. -/
inductive Fault where
deriving DecidableEq, Repr

/-- Why a step would have no meaning. -/
inductive Refusal where
  /-- Raised by an arm of `exec` whose instruction has no meaning in the model; no arm raises it. Safe: the machine stops. -/
  | notModelled (mnemonic : String)
deriving DecidableEq, Repr

/-- A point register that holds nothing: every field 0 (R20, R28, R48). -/
def emptyPoint : PointRec := ⟨false, false, 0, 0, 0, 0, 0⟩

/-- The machine right after reset: every register of R48 is 0, `ST = IDLE`, no point register holds a point. DESIGN CHOICE, unsafe
(logs 1, 2, 4): the hidden loop registers are 0 (the spec: unspecified), no command is in flight, the environment has
scheduled no latency, no free value has been drawn, and the host presents nothing. -/
def State.reset : State where
  curve := ⟨0, 0, 0⟩
  f := #v[0, 0, 0, 0, 0, 0, 0, 0]
  q := #v[emptyPoint, emptyPoint, emptyPoint, emptyPoint]
  ieDone := false
  ieFault := false
  st := .idle
  done := false
  err := 0
  errcmd := 0
  cmdr := 0
  loop := ⟨emptyPoint, emptyPoint, 0⟩
  left := 0
  lats := []
  fresh := 0
  host := []
  got := []

end Sys2Proof.Machine
end

