-- ==== Sys2Proof/Syntax.lean ====
section
/-! DEFINITION. The ten commands of `30_encoding.md` R92, with the operands their formats name (R93).
A register index is a `Fin`: an index outside R91's legal values cannot be written as a command at all. -/

namespace Sys2Proof

/-- A field/scalar register `F0..F7` (R23, R91). -/
abbrev FReg := Fin 8

/-- A point register `Q0..Q3` (R26, R91). -/
abbrev QReg := Fin 4

/-- One constructor per row of the opcode table, operands in assembler order (R100): destination, first source, second source. -/
inductive Instr where
  /-- `FADD Fd, Fa, Fb` (R130). -/
  | fadd (fd fa fb : FReg)
  /-- `FSUB Fd, Fa, Fb` (R131). -/
  | fsub (fd fa fb : FReg)
  /-- `FMUL Fd, Fa, Fb` (R132). -/
  | fmul (fd fa fb : FReg)
  /-- `FDIV Fd, Fa, Fb` (R133). -/
  | fdiv (fd fa fb : FReg)
  /-- `FINV Fd, Fa` (R134). -/
  | finv (fd fa : FReg)
  /-- `FPOW Fd, Fa, Fe` (R135). -/
  | fpow (fd fa fe : FReg)
  /-- `PNEW Qd, Fx, Fy` (R152). -/
  | pnew (qd : QReg) (fx fy : FReg)
  /-- `PINF Qd` (R153). -/
  | pinf (qd : QReg)
  /-- `PADD Qd, Qa, Qb` (R161). -/
  | padd (qd qa qb : QReg)
  /-- `SMUL Qd, Qa, Fk` (R181). -/
  | smul (qd qa : QReg) (fk : FReg)
deriving DecidableEq, Repr

end Sys2Proof
end

