-- ==== Sys2Proof/Machine/Ops.lean ====
section
/-! DEFINITION. The named operations on the state: register reads and writes, issue, commit, TAKING A FAULT, the one way back
(reset), and the hidden loop registers. -/

namespace Sys2Proof.Machine

open Host (Outcome)

/-- The number of a fault code in `ERR[3:0]` (`60_exceptions.md` R200). -/
def faultNumber : FaultCode → BitVec 4
  | .invalidPoint => 1
  | .curveMismatch => 2
  | .negativeScalar => 3
  | .nonInvertibleDivisor => 4
  | .operandRange => 5
  | .badModulus => 6
  | .uninitPoint => 7
  | .illegalCommand => 8

/-- Read `F[i]` (R23). -/
def readF (s : State) (i : FReg) : Wide := s.f[i]

/-- Write `F[i]` (R23). -/
def writeF (s : State) (i : FReg) (v : Wide) : State := { s with f := s.f.set i v }

/-- Read `Q[j]` (R26). -/
def readQ (s : State) (j : QReg) : PointRec := s.q[j]

/-- Write `Q[j]` whole (R27, R30). -/
def writeQ (s : State) (j : QReg) (r : PointRec) : State := { s with q := s.q.set j r }

/-- A commit: `ST <- IDLE`, `DONE <- 1` (R40). -/
def commit (s : State) : State := { s with st := .idle, done := true }

/-- TAKING A FAULT (`60_exceptions.md` R214): `ERR <- code`, `ERRCMD <- CMDR`, `ST <- FAULT`, nothing else. There is no handler to go
to, and no return: only a reset leaves the state (R216). -/
def faultEntry (c : FaultCode) (s : State) : State :=
  { s with err := faultNumber c, errcmd := s.cmdr, st := .fault }

/-- The hidden loop registers are dead from here on: they hold any value (R42, U16). -/
def dropLoop (s : State) : State := { s with loop := Config.freeLoop s.fresh, fresh := s.fresh + 1 }

/-- Hard and soft reset (`70_reset_and_hazards.md` R240, R242, R243): every piece of host-visible state takes its reset value, a
command in flight is gone (R244), and the hidden loop registers are unspecified (R48). What is not the block's survives: the
host, what it has read, and the environment's schedule. -/
def resetBlock (s : State) : State :=
  dropLoop { State.reset with lats := s.lats, fresh := s.fresh, host := s.host, got := s.got }

/-- The latency of the command word `w` that is issued now: the environment's next choice, or a free value of the command and of every
register it can read where it has made none (R257, R259). -/
def drawLatency (w : Word) (s : State) : State :=
  { s with left := s.lats.headD (Config.latency s.fresh w s.curve s.f s.q), lats := s.lats.tail, fresh := s.fresh + 1 }

/-- An issue: `CMDR <- w`, `ST <- BUSY`, `DONE <- 0` (R38); the word is not looked at. -/
def issue (w : Word) (s : State) : State :=
  { drawLatency w s with cmdr := w, st := .busy, done := false }

/-- How a command ends whose result is a value for `F[fd]`: commit, or fault with nothing written (R40, R17). -/
def finishF (fd : FReg) (r : Except FaultCode Nat) (s : State) : Outcome State Fault Refusal :=
  match r with
  | .ok v => .next (commit (writeF s fd (BitVec.ofNat 256 v)))
  | .error c => .next (faultEntry c s)

/-- How a command ends whose result is a record for `Q[qd]`: commit, or fault with nothing written (R40, R17). -/
def finishQ (qd : QReg) (r : Except FaultCode PointRec) (s : State) : Outcome State Fault Refusal :=
  match r with
  | .ok rec => .next (commit (writeQ s qd rec))
  | .error c => .next (faultEntry c s)

end Sys2Proof.Machine
end

