-- ==== Sys2Proof/Machine/Operands.lean ====
section
/-! DEFINITION. The operands of the commands: registers named by an index, and nothing else (`20_memory.md` R81, `30_encoding.md` R94).
An `F` register has no type; the command that reads it fixes the meaning (`10_state.md` R24). -/

namespace Sys2Proof.Machine

/-- The modulus `p = CURVE.P` of a field command (R120). -/
def modulus (s : State) : Nat := s.curve.p.toNat

/-- `F[i]` read as a field element, an exponent or a scalar: an unsigned integer below `2^W` (R23, R24). -/
def operandF (s : State) (i : FReg) : Nat := (readF s i).toNat

/-- `FieldPre(p, v1, …, vn)` (`40_field.md` R121): `BadModulus` where `p < 2`, else `OperandRange` where some `vi ≥ p`; the rest of
the command (`r`) where neither is raised. -/
def withFieldPre {α : Type} (p : Nat) (vs : List Nat) (r : Except FaultCode α) : Except FaultCode α :=
  if p < 2 then .error .badModulus
  else if vs.any (p ≤ ·) then .error .operandRange
  else r

/-- `UninitPoint` where a source register holds no point (`60_exceptions.md` R207); the rest of the command where all do. -/
def withPoints {α : Type} (rs : List PointRec) (r : Except FaultCode α) : Except FaultCode α :=
  if rs.any (!·.v) then .error .uninitPoint else r

end Sys2Proof.Machine
end

