-- ==== Sys2Proof/Machine/Field.lean ====
section
/-! DEFINITION. The field unit: `FADD`, `FSUB`, `FMUL`, `FDIV`, `FINV`, `FPOW` (`40_field.md` R130 to R135). Each evaluates its rule on
the register values before the step and ends in a commit to `F[fd]` or in a fault (`10_state.md` R40). -/

namespace Sys2Proof.Machine

open Host (Outcome)

/-- `FADD Fd, Fa, Fb` (R130). -/
def execFadd (fd fa fb : FReg) (s : State) : Outcome State Fault Refusal :=
  finishF fd (withFieldPre (modulus s) [operandF s fa, operandF s fb] (.ok (fadd (operandF s fa) (operandF s fb) (modulus s)))) s

/-- `FSUB Fd, Fa, Fb` (R131). -/
def execFsub (fd fa fb : FReg) (s : State) : Outcome State Fault Refusal :=
  finishF fd (withFieldPre (modulus s) [operandF s fa, operandF s fb] (.ok (fsub (operandF s fa) (operandF s fb) (modulus s)))) s

/-- `FMUL Fd, Fa, Fb` (R132). -/
def execFmul (fd fa fb : FReg) (s : State) : Outcome State Fault Refusal :=
  finishF fd (withFieldPre (modulus s) [operandF s fa, operandF s fb] (.ok (fmul (operandF s fa) (operandF s fb) (modulus s)))) s

/-- `FDIV Fd, Fa, Fb` (R133). -/
def execFdiv (fd fa fb : FReg) (s : State) : Outcome State Fault Refusal :=
  finishF fd (withFieldPre (modulus s) [operandF s fa, operandF s fb] (fdiv (operandF s fa) (operandF s fb) (modulus s))) s

/-- `FINV Fd, Fa` (R134). -/
def execFinv (fd fa : FReg) (s : State) : Outcome State Fault Refusal :=
  finishF fd (withFieldPre (modulus s) [operandF s fa] (finv (operandF s fa) (modulus s))) s

/-- `FPOW Fd, Fa, Fe`: the exponent is not range-checked (R135). -/
def execFpow (fd fa fe : FReg) (s : State) : Outcome State Fault Refusal :=
  finishF fd (withFieldPre (modulus s) [operandF s fa] (.ok (fpow (operandF s fa) (operandF s fe) (modulus s)))) s

end Sys2Proof.Machine
end

