-- ==== Sys2Proof/Machine/Curves.lean ====
section
/-! DEFINITION. The point functions: the on-curve check, construction, curve equality and the group law
(`41_point.md` R150 to R160). -/

namespace Sys2Proof.Machine

/-- `OnCurve(x, y, a, b, p)`: `(y · y) mod p = (x · x · x + a · x + b) mod p` (R150). -/
def onCurve (x y a b p : Nat) : Bool := (y * y) % p = (x * x * x + a * x + b) % p

/-- The register contents of `Inf(a, b, p)` (R13, R29). -/
def infPoint (a b p : Nat) : PointRec :=
  ⟨true, true, 0, 0, BitVec.ofNat 256 a, BitVec.ofNat 256 b, BitVec.ofNat 256 p⟩

/-- The register contents of `Aff(x, y, a, b, p)` (R13). -/
def affPoint (x y a b p : Nat) : PointRec :=
  ⟨true, false, BitVec.ofNat 256 x, BitVec.ofNat 256 y, BitVec.ofNat 256 a, BitVec.ofNat 256 b, BitVec.ofNat 256 p⟩

/-- `PointNew(coords, a, b, p)`: no check for `Identity`; `InvalidPoint` for an affine point off the curve (R151). -/
def pointNew (c : Coords) (a b p : Nat) : Except FaultCode PointRec :=
  match c with
  | .identity => .ok (infPoint a b p)
  | .affine x y => if onCurve x y a b p then .ok (affPoint x y a b p) else .error .invalidPoint

/-- `SameCurve(A, B)` (R154). -/
def sameCurve (A B : PointRec) : Bool := A.ca = B.ca && A.cb = B.cb && A.cp = B.cp

/-- `Inf(curve(P))`: the identity on a point's own curve (R156, R159, R180). -/
def infOn (P : PointRec) : PointRec := infPoint P.ca.toNat P.cb.toNat P.cp.toNat

/-- The third point on the line of slope `sl` through `(x1, y1)` and a point with first coordinate `x2`, re-validated (R160):
`x3 = s² − x1 − x2`, `y3 = s·(x1 − x3) − y1` (R157; R158 with `x2 = x1`). -/
def lineResult (sl x1 y1 x2 a b p : Nat) : Except FaultCode PointRec :=
  let x3 := fsub (fsub (fmul sl sl p) x1 p) x2 p
  let y3 := fsub (fmul sl (fsub x1 x3 p) p) y1 p
  pointNew (.affine x3 y3) a b p

/-- Case 4, chord: `s = (y2 − y1) / (x2 − x1)` (R157). -/
def chord (x1 y1 x2 y2 a b p : Nat) : Except FaultCode PointRec :=
  match fdiv (fsub y2 y1 p) (fsub x2 x1 p) p with
  | .error c => .error c
  | .ok sl => lineResult sl x1 y1 x2 a b p

/-- Case 5, tangent: the identity where `y1 = 0`, tested before any division; else `s = (3·x1² + a) / (2·y1)` (R158). -/
def tangent (x1 y1 a b p : Nat) : Except FaultCode PointRec :=
  if y1 = 0 then .ok (infPoint a b p)
  else
    match fdiv (fadd (fmul (3 % p) (fmul x1 x1 p) p) a p) (fmul (2 % p) y1 p) p with
    | .error c => .error c
    | .ok sl => lineResult sl x1 y1 x1 a b p

/-- `Add(A, B)`: curve equality first, then the six cases in the document's order (R155). -/
def addPoints (A B : PointRec) : Except FaultCode PointRec :=
  if !sameCurve A B then .error .curveMismatch
  else if A.inf && B.inf then .ok (infOn A)
  else if A.inf then .ok B
  else if B.inf then .ok A
  else if A.x ≠ B.x then
    chord A.x.toNat A.y.toNat B.x.toNat B.y.toNat A.ca.toNat A.cb.toNat A.cp.toNat
  else if A.y = B.y then tangent A.x.toNat A.y.toNat A.ca.toNat A.cb.toNat A.cp.toNat
  else .ok (infOn A)

/-- The start of `SMUL`: `ACC <- Inf(curve(P))`, `CUR <- P`, `KSH <- k` (`42_scalar.md` R186). -/
def loopStart (P : PointRec) (k : Wide) : LoopRegs := ⟨infOn P, P, k⟩

/-- One iteration: the accumulation where `KSH[0] = 1`, then the doubling, then the shift; a fault of either `Add` ends it with
that fault (R180, R186). -/
def loopIterate (l : LoopRegs) : Except FaultCode LoopRegs :=
  match (if l.ksh.getLsbD 0 then addPoints l.acc l.cur else .ok l.acc) with
  | .error c => .error c
  | .ok acc =>
    match addPoints l.cur l.cur with
    | .error c => .error c
    | .ok cur => .ok ⟨acc, cur, l.ksh >>> 1⟩

/-- Iterations while `KSH > 0` (R180, R186); the first argument bounds their number (`W = 256` is enough, R183). -/
def loopRun : Nat → LoopRegs → Except FaultCode LoopRegs
  | 0, l => .ok l
  | n + 1, l =>
    if l.ksh = 0 then .ok l
    else
      match loopIterate l with
      | .error c => .error c
      | .ok l' => loopRun n l'

end Sys2Proof.Machine
end

