-- ==== Sys2Proof/Machine/Points.lean ====
section
/-! DEFINITION. The point unit: `PNEW`, `PINF`, `PADD` (`41_point.md` R152, R153, R161). -/

namespace Sys2Proof.Machine

open Host (Outcome)

/-- `PNEW Qd, Fx, Fy`: a finite point on the curve now in `CURVE`; `BadModulus`, then `OperandRange` for `a`, `b`, then `x`, `y`, then
`InvalidPoint` (R152). -/
def execPnew (qd : QReg) (fx fy : FReg) (s : State) : Outcome State Fault Refusal :=
  finishQ qd
    (withFieldPre (modulus s) [s.curve.a.toNat, s.curve.b.toNat, operandF s fx, operandF s fy]
      (pointNew (.affine (operandF s fx) (operandF s fy)) s.curve.a.toNat s.curve.b.toNat (modulus s))) s

/-- `PINF Qd`: the identity on the curve now in `CURVE` (R153). -/
def execPinf (qd : QReg) (s : State) : Outcome State Fault Refusal :=
  finishQ qd
    (withFieldPre (modulus s) [s.curve.a.toNat, s.curve.b.toNat]
      (pointNew .identity s.curve.a.toNat s.curve.b.toNat (modulus s))) s

/-- `PADD Qd, Qa, Qb`: `UninitPoint` where a source holds no point, else `Add` (R161); `CURVE` is not read. -/
def execPadd (qd qa qb : QReg) (s : State) : Outcome State Fault Refusal :=
  finishQ qd (withPoints [readQ s qa, readQ s qb] (addPoints (readQ s qa) (readQ s qb))) s

end Sys2Proof.Machine
end

