-- ==== Sys2Proof/Machine/Scalar.lean ====
section
/-! DEFINITION. The scalar-multiplication engine: `SMUL` (`42_scalar.md` R180, R181), executed as its start, its iterations and its
end on the hidden loop registers (R186), all inside the one completion step (`00_scope.md` R15). -/

namespace Sys2Proof.Machine

open Host (Outcome)

/-- Start: `ACC <- Inf(curve(P))`, `CUR <- P`, `KSH <- k` (R186). -/
def smulStart (P : PointRec) (k : Wide) (s : State) : State := { s with loop := loopStart P k }

/-- The iterations, "enabled while `KSH > 0`" (R186). -/
def smulIterations (s : State) : Except FaultCode State :=
  match loopRun 256 s.loop with
  | .error c => .error c
  | .ok l => .ok { s with loop := l }

/-- End: `Q[qd] <- ACC`, commit; the loop registers are dead (R186, R42). -/
def smulEnd (qd : QReg) (s : State) : State := dropLoop (commit (writeQ s qd s.loop.acc))

/-- `SMUL Qd, Qa, Fk`: `UninitPoint` where the source holds no point; else `ScalarMul(k, P)`, whose first fault in execution order ends
it and discards the loop registers (R181, R188, R215). -/
def execSmul (qd qa : QReg) (fk : FReg) (s : State) : Outcome State Fault Refusal :=
  if (readQ s qa).v then
    match smulIterations (smulStart (readQ s qa) (readF s fk) s) with
    | .ok t => .next (smulEnd qd t)
    | .error c => .next (dropLoop (faultEntry c s))
  else .next (faultEntry .uninitPoint s)

end Sys2Proof.Machine
end

