-- ==== Sys2Proof/Machine/Dispatch.lean ====
section
/-! DEFINITION. One arm per command: what its completion does to the state (R40). -/

namespace Sys2Proof.Machine

open Sys2Proof

def exec (i : Instr) (s : State) : Host.Outcome State Fault Refusal :=
  match i with
  | .fadd fd fa fb => Sys2Proof.Machine.execFadd fd fa fb s
  | .fsub fd fa fb => Sys2Proof.Machine.execFsub fd fa fb s
  | .fmul fd fa fb => Sys2Proof.Machine.execFmul fd fa fb s
  | .fdiv fd fa fb => Sys2Proof.Machine.execFdiv fd fa fb s
  | .finv fd fa => Sys2Proof.Machine.execFinv fd fa s
  | .fpow fd fa fe => Sys2Proof.Machine.execFpow fd fa fe s
  | .pnew qd fx fy => Sys2Proof.Machine.execPnew qd fx fy s
  | .pinf qd => Sys2Proof.Machine.execPinf qd s
  | .padd qd qa qb => Sys2Proof.Machine.execPadd qd qa qb s
  | .smul qd qa fk => Sys2Proof.Machine.execSmul qd qa fk s

end Sys2Proof.Machine
end

