-- ==== Sys2Proof/WellFormed.lean ====
section
/-! DEFINITION. Which 32-bit words are commands, by the `match` and `mask` columns of `30_encoding.md` R92 (rule R95).
The term that can be ill-formed on this hardware is the command word: every term of `Instr` is well-formed by its types
(an `F` index is a `Fin 8`, a `Q` index a `Fin 4`). The decoder does not use this table: it reads the fields (R90, R94). -/

namespace Sys2Proof

/-- The columns `mnemonic`, `match` and `mask` of one row of the opcode table (R92). -/
structure Row where
  mnemonic : String
  pattern : Word
  mask : Word
deriving DecidableEq, Repr

/-- The opcode table of R92. -/
def opcodeRows : List Row :=
  [ ⟨"FADD", 0x00000010#32, 0xFFF888FF#32⟩,
    ⟨"FSUB", 0x00000011#32, 0xFFF888FF#32⟩,
    ⟨"FMUL", 0x00000012#32, 0xFFF888FF#32⟩,
    ⟨"FDIV", 0x00000013#32, 0xFFF888FF#32⟩,
    ⟨"FINV", 0x00000014#32, 0xFFFF88FF#32⟩,
    ⟨"FPOW", 0x00000015#32, 0xFFF888FF#32⟩,
    ⟨"PNEW", 0x00000020#32, 0xFFF88CFF#32⟩,
    ⟨"PINF", 0x00000021#32, 0xFFFFFCFF#32⟩,
    ⟨"PADD", 0x00000022#32, 0xFFFCCCFF#32⟩,
    ⟨"SMUL", 0x00000030#32, 0xFFF8CCFF#32⟩ ]

/-- "A word `w` is the command of a row exactly when `(w AND mask) = match`" (R95). -/
def Row.takes (r : Row) (w : Word) : Bool := w &&& r.mask = r.pattern

/-- A word is well-formed when it is the command of some row (R95); every other word is illegal (R96). -/
def wordWellFormed (w : Word) : Bool := opcodeRows.any (·.takes w)

/-- The mnemonic of a command (R92). -/
def Instr.mnemonic : Instr → String
  | .fadd _ _ _ => "FADD"
  | .fsub _ _ _ => "FSUB"
  | .fmul _ _ _ => "FMUL"
  | .fdiv _ _ _ => "FDIV"
  | .finv _ _ => "FINV"
  | .fpow _ _ _ => "FPOW"
  | .pnew _ _ _ => "PNEW"
  | .pinf _ => "PINF"
  | .padd _ _ _ => "PADD"
  | .smul _ _ _ => "SMUL"

end Sys2Proof
end

