-- ==== Sys2Proof/Decode.lean ====
section
/-! DEFINITION. The command word: its fields (`30_encoding.md` R90, R94), the six formats (R93), the decoder (total, R96, with a
name for each class of illegal word of R97), the encoder (R102), and the assembler's forms and pseudo-instructions (R100, R101). -/

namespace Sys2Proof

/-- Why a word is illegal: the classes (a) to (e) of R97. All behave the same way (fault `IllegalCommand`). -/
inductive Illegal where
  /-- (a) `op` is none of the ten opcodes. -/
  | reservedOpcode
  /-- (b) the field `zero` is not 0. -/
  | zeroField
  /-- (c) an `F` index field is 8 or more. -/
  | fIndex
  /-- (d) a `Q` index field is 4 or more. -/
  | qIndex
  /-- (e) an unused field is not 0. -/
  | unusedField
deriving DecidableEq, Repr

/-- `op = w[7:0]` (R94). -/
def opField (w : Word) : BitVec 8 := w.extractLsb' 0 8

/-- `rd = w[11:8]` (R94). -/
def rdField (w : Word) : BitVec 4 := w.extractLsb' 8 4

/-- `rs1 = w[15:12]` (R94). -/
def rs1Field (w : Word) : BitVec 4 := w.extractLsb' 12 4

/-- `rs2 = w[19:16]` (R94). -/
def rs2Field (w : Word) : BitVec 4 := w.extractLsb' 16 4

/-- `zero = w[31:20]` (R94). -/
def zeroField (w : Word) : BitVec 12 := w.extractLsb' 20 12

/-- A field used as an `F` index: legal values 0..7 (R91). -/
def fIndexOf (x : BitVec 4) : Except Illegal FReg :=
  if h : x.toNat < 8 then .ok ⟨x.toNat, h⟩ else .error .fIndex

/-- A field used as a `Q` index: legal values 0..3 (R91). -/
def qIndexOf (x : BitVec 4) : Except Illegal QReg :=
  if h : x.toNat < 4 then .ok ⟨x.toNat, h⟩ else .error .qIndex

/-- An unused field: the legal value is 0 (R91). -/
def unusedOf (x : BitVec 4) : Except Illegal Unit :=
  if x = 0 then .ok () else .error .unusedField

/-- Format `F3`: `rd`, `rs1`, `rs2` are `F` indices (R93). -/
def decodeF3 (mk : FReg → FReg → FReg → Instr) (w : Word) : Except Illegal Instr := do
  let d ← fIndexOf (rdField w)
  let a ← fIndexOf (rs1Field w)
  let b ← fIndexOf (rs2Field w)
  return mk d a b

/-- Format `F2`: `rd`, `rs1` are `F` indices, `rs2` is unused (R93). -/
def decodeF2 (mk : FReg → FReg → Instr) (w : Word) : Except Illegal Instr := do
  let d ← fIndexOf (rdField w)
  let a ← fIndexOf (rs1Field w)
  unusedOf (rs2Field w)
  return mk d a

/-- Format `PN`: `rd` is a `Q` index, `rs1`, `rs2` are `F` indices (R93). -/
def decodePN (mk : QReg → FReg → FReg → Instr) (w : Word) : Except Illegal Instr := do
  let d ← qIndexOf (rdField w)
  let x ← fIndexOf (rs1Field w)
  let y ← fIndexOf (rs2Field w)
  return mk d x y

/-- Format `P1`: `rd` is a `Q` index, `rs1`, `rs2` are unused (R93). -/
def decodeP1 (mk : QReg → Instr) (w : Word) : Except Illegal Instr := do
  let d ← qIndexOf (rdField w)
  unusedOf (rs1Field w)
  unusedOf (rs2Field w)
  return mk d

/-- Format `P3`: `rd`, `rs1`, `rs2` are `Q` indices (R93). -/
def decodeP3 (mk : QReg → QReg → QReg → Instr) (w : Word) : Except Illegal Instr := do
  let d ← qIndexOf (rdField w)
  let a ← qIndexOf (rs1Field w)
  let b ← qIndexOf (rs2Field w)
  return mk d a b

/-- Format `PS`: `rd`, `rs1` are `Q` indices, `rs2` is an `F` index (R93). -/
def decodePS (mk : QReg → QReg → FReg → Instr) (w : Word) : Except Illegal Instr := do
  let d ← qIndexOf (rdField w)
  let a ← qIndexOf (rs1Field w)
  let k ← fIndexOf (rs2Field w)
  return mk d a k

/-- The decoder: total on all 32-bit words (R96), the opcode map of R92, an illegal word rejected with a name (R97). -/
def decode (w : Word) : Except Illegal Instr :=
  if zeroField w ≠ 0 then .error .zeroField
  else
    match (opField w).toNat with
    | 0x10 => decodeF3 .fadd w
    | 0x11 => decodeF3 .fsub w
    | 0x12 => decodeF3 .fmul w
    | 0x13 => decodeF3 .fdiv w
    | 0x14 => decodeF2 .finv w
    | 0x15 => decodeF3 .fpow w
    | 0x20 => decodePN .pnew w
    | 0x21 => decodeP1 .pinf w
    | 0x22 => decodeP3 .padd w
    | 0x30 => decodePS .smul w
    | _ => .error .reservedOpcode

/-- `word = op | (rd << 8) | (rs1 << 12) | (rs2 << 16)` (R102). -/
def packWord (op rd rs1 rs2 : Nat) : Word :=
  BitVec.ofNat 32 op ||| (BitVec.ofNat 32 rd <<< 8) ||| (BitVec.ofNat 32 rs1 <<< 12) ||| (BitVec.ofNat 32 rs2 <<< 16)

/-- The encoding function of R102: unused fields are 0. -/
def encode : Instr → Word
  | .fadd d a b => packWord 0x10 d a b
  | .fsub d a b => packWord 0x11 d a b
  | .fmul d a b => packWord 0x12 d a b
  | .fdiv d a b => packWord 0x13 d a b
  | .finv d a => packWord 0x14 d a 0
  | .fpow d a e => packWord 0x15 d a e
  | .pnew d x y => packWord 0x20 d x y
  | .pinf d => packWord 0x21 d 0 0
  | .padd d a b => packWord 0x22 d a b
  | .smul d a k => packWord 0x30 d a k

/-- The pseudo-instruction `PDBL Qd, Qa`, which is `PADD Qd, Qa, Qa` (R101). -/
def pdbl (qd qa : QReg) : Instr := .padd qd qa qa

/-- The pseudo-instruction `FSQR Fd, Fa`, which is `FMUL Fd, Fa, Fa` (R101). -/
def fsqr (fd fa : FReg) : Instr := .fmul fd fa fa

/-- The name `Fi` (R100). -/
def fName (i : FReg) : String := "F" ++ toString i.val

/-- The name `Qj` (R100). -/
def qName (j : QReg) : String := "Q" ++ toString j.val

/-- A command as the assembler writes it: `MNEMONIC rd, rs1, rs2` with the operands its format uses (R100). -/
def asm (i : Instr) : String :=
  i.mnemonic ++ " " ++ String.intercalate ", " (match i with
    | .fadd d a b | .fsub d a b | .fmul d a b | .fdiv d a b | .fpow d a b => [fName d, fName a, fName b]
    | .finv d a => [fName d, fName a]
    | .pnew d x y => [qName d, fName x, fName y]
    | .pinf d => [qName d]
    | .padd d a b => [qName d, qName a, qName b]
    | .smul d a k => [qName d, qName a, fName k])

/-- The command word whose low `nbits` bits are those of `w` and whose other bits are 0. -/
def tableWord (nbits w : Nat) : Word := BitVec.ofNat 32 (w % 2 ^ nbits)

/-- What the decoder reads from an instruction whose bits are `w`, numbered as the opcode table numbers them: every command is
one 32-bit word (R99), so the bits of `w` are the bits of that word. -/
def decodeTableWord (nbits w : Nat) : Option Instr :=
  match decode (tableWord nbits w) with
  | .ok i => some i
  | .error _ => none

end Sys2Proof
end

