-- ==== Sys2Proof/Machine/Flags.lean ====
section
/-! DEFINITION. The flags a host can see, and the words that show them: `CTRL`, `STATUS`, `ERR`, `TAG`, and the line `irq`.
ECPE has no condition codes and no arithmetic flags (`10_state.md` R33). -/

namespace Sys2Proof.Machine

/-- `STATUS.BUSY`: 1 exactly when `ST = BUSY` (R35). -/
def busyFlag (s : State) : Bool := s.st = .busy

/-- `STATUS.FAULT`: 1 exactly when `ST = FAULT` (R35). -/
def faultFlag (s : State) : Bool := s.st = .fault

/-- `{29'b0, b2, b1, b0}`. -/
def flagWord (b2 b1 b0 : Bool) : Word := 0#29 ++ BitVec.ofBool b2 ++ BitVec.ofBool b1 ++ BitVec.ofBool b0

/-- `CTRL` reads `{29'b0, IE_FAULT, IE_DONE, 1'b0}` (R34, R66). -/
def ctrlWord (s : State) : Word := flagWord s.ieFault s.ieDone false

/-- `STATUS` reads `{29'b0, ST = FAULT, DONE, ST = BUSY}` (R35, R66). -/
def statusWord (s : State) : Word := flagWord (faultFlag s) s.done (busyFlag s)

/-- `ERR` reads `{28'b0, ERR}` (R36, R66). -/
def errWord (s : State) : Word := 0#28 ++ s.err

/-- `TAG[0] = V`, `TAG[1] = INF`, the rest 0 (R31). -/
def tagWord (r : PointRec) : Word := flagWord false r.inf r.v

/-- `irq = (DONE and CTRL.IE_DONE) or ((ST = FAULT) and CTRL.IE_FAULT)` (`60_exceptions.md` R209). -/
def irq (s : State) : Bool := (s.done && s.ieDone) || (faultFlag s && s.ieFault)

end Sys2Proof.Machine
end

