-- ==== Sys2Proof/Machine/Port.lean ====
section
/-! DEFINITION. The host port: the register map, `MemRead` and `MemWrite` (`20_memory.md` R62 to R72), and the host's program notation
(`30_encoding.md` R104). The register space is not memory: every mapped word is a slice of a register (R60). -/

namespace Sys2Proof.Machine

/-- What the map of R62 puts at an address; the argument `k` of a 256-bit register is the word number (R63). -/
inductive Place where
  | ctrl
  | status
  | err
  | errcmd
  | cmd
  | curveP (k : Fin 8)
  | curveA (k : Fin 8)
  | curveB (k : Fin 8)
  | f (i : FReg) (k : Fin 8)
  | tag (j : QReg)
  | qX (j : QReg) (k : Fin 8)
  | qY (j : QReg) (k : Fin 8)
  | qCA (j : QReg) (k : Fin 8)
  | qCB (j : QReg) (k : Fin 8)
  | qCP (j : QReg) (k : Fin 8)
  /-- Every address R62 maps to no register word (R68), and every address that is no multiple of 4 (R65). -/
  | reserved
deriving DecidableEq, Repr

/-- The word number inside a 256-bit register: every such register starts at a multiple of `0x20` (R62). -/
def wordIndex (a : Nat) : Fin 8 := Fin.ofNat 8 (a / 4)

/-- The part of the map inside one point register: `o` is the offset from `0x200 + 0x100·j` (R62). -/
def pointPlace (j : QReg) (o : Nat) : Place :=
  if o = 0x00 then .tag j
  else if o < 0x20 then .reserved
  else if o < 0x40 then .qX j (wordIndex o)
  else if o < 0x60 then .qY j (wordIndex o)
  else if o < 0x80 then .qCA j (wordIndex o)
  else if o < 0xA0 then .qCB j (wordIndex o)
  else if o < 0xC0 then .qCP j (wordIndex o)
  else .reserved

/-- The register map (R62), by byte address; a misaligned address is treated as reserved (R65). -/
def placeOf (a : Nat) : Place :=
  if a % 4 ≠ 0 then .reserved
  else if a = 0x000 then .ctrl
  else if a = 0x004 then .status
  else if a = 0x008 then .err
  else if a = 0x00C then .errcmd
  else if a = 0x010 then .cmd
  else if a < 0x040 then .reserved
  else if a < 0x060 then .curveP (wordIndex a)
  else if a < 0x080 then .curveA (wordIndex a)
  else if a < 0x0A0 then .curveB (wordIndex a)
  else if a < 0x100 then .reserved
  else if a < 0x200 then .f (Fin.ofNat 8 (a / 0x20)) (wordIndex a)
  else if a < 0x600 then pointPlace (Fin.ofNat 4 ((a - 0x200) / 0x100)) (a % 0x100)
  else .reserved

/-- Word `k` of a 256-bit value: bits `[32k+31 : 32k]` (R63). -/
def wordOf (v : Wide) (k : Fin 8) : Word := v.extractLsb' (32 * k.val) 32

/-- Bits `[32k+31 : 32k] <- w`, the other bits kept (R67 item 5). -/
def setWord (v : Wide) (k : Fin 8) (w : Word) : Wide :=
  (v &&& ~~~(BitVec.ofNat 256 0xFFFFFFFF <<< (32 * k.val))) ||| (w.setWidth 256 <<< (32 * k.val))

/-- The register word at a place (R66). -/
def readPlace (s : State) : Place → Word
  | .ctrl => ctrlWord s
  | .status => statusWord s
  | .err => errWord s
  | .errcmd => s.errcmd
  | .cmd => s.cmdr
  | .curveP k => wordOf s.curve.p k
  | .curveA k => wordOf s.curve.a k
  | .curveB k => wordOf s.curve.b k
  | .f i k => wordOf (readF s i) k
  | .tag j => tagWord (readQ s j)
  | .qX j k => wordOf (readQ s j).x k
  | .qY j k => wordOf (readQ s j).y k
  | .qCA j k => wordOf (readQ s j).ca k
  | .qCB j k => wordOf (readQ s j).cb k
  | .qCP j k => wordOf (readQ s j).cp k
  | .reserved => 0

/-- `MemRead(addr, 4)` (R66); it changes no state. -/
def memRead (s : State) (addr : Addr) : Word := readPlace s (placeOf addr.toNat)

/-- A write to `CTRL`, in every engine state: soft reset where bit 0 is set, else the two enables (R67 item 1, R243). -/
def writeCtrl (w : Word) (s : State) : State :=
  if w.getLsbD 0 then resetBlock s else { s with ieDone := w.getLsbD 1, ieFault := w.getLsbD 2 }

/-- A write to `STATUS` in `IDLE`: bit 1 clears `DONE` (R35, R67 item 3). -/
def writeStatus (w : Word) (s : State) : State := if w.getLsbD 1 then { s with done := false } else s

/-- A write in `IDLE` to a place other than `CTRL` (R67 items 3 to 6); `ERR`, `ERRCMD` and the point registers are read-only (R70). -/
def writeIdle (pl : Place) (w : Word) (s : State) : State :=
  match pl with
  | .status => writeStatus w s
  | .cmd => issue w s
  | .curveP k => { s with curve := { s.curve with p := setWord s.curve.p k w } }
  | .curveA k => { s with curve := { s.curve with a := setWord s.curve.a k w } }
  | .curveB k => { s with curve := { s.curve with b := setWord s.curve.b k w } }
  | .f i k => writeF s i (setWord (readF s i) k w)
  | .ctrl | .err | .errcmd | .tag _ | .qX _ _ | .qY _ _ | .qCA _ _ | .qCB _ _ | .qCP _ _ | .reserved => s

/-- `MemWrite(addr, 4, v)` (R67): `CTRL` always; any other write only in `IDLE`, else it is dropped (R69). -/
def memWrite (s : State) (addr : Addr) (w : Word) : State :=
  if placeOf addr.toNat = .ctrl then writeCtrl w s
  else if s.st = .idle then writeIdle (placeOf addr.toNat) w s
  else s

/-- The transaction is a write (R61). -/
def isWrite (p : PortIn) : Bool := p.rstN && p.sel && p.we

/-- The transaction is a read (R61); with `rst_n = 0` a read is answered as always (`70_reset_and_hazards.md` R242). -/
def isRead (p : PortIn) : Bool := p.sel && !p.we

/-- `rdata`: the word read, from the state before the edge; 0 where no read is presented (R61). -/
def rdata (s : State) (p : PortIn) : Word := if isRead p then memRead s p.addr else 0

/-- What the inputs of an edge do to the registers, on the state before the edge: hard reset, a write, or nothing (R242, R67, R66). -/
def portEdge (p : PortIn) (s : State) : State :=
  if !p.rstN then resetBlock s
  else if isWrite p then memWrite s p.addr p.wdata
  else s

/-- A cycle in which the host presents nothing. -/
def idleCycle : PortIn := ⟨true, false, false, 0, 0⟩

/-- A read transaction. -/
def readCycle (a : Addr) : PortIn := ⟨true, true, false, a, 0⟩

/-- A write transaction. -/
def writeCycle (a : Addr) (v : Word) : PortIn := ⟨true, true, true, a, v⟩

/-- A cycle with `rst_n = 0` and no transaction. -/
def resetCycle : PortIn := ⟨false, false, false, 0, 0⟩

/-- What the host presents at this edge: its program's next line (R104), or nothing where the program has ended. -/
def hostInputs (s : State) : PortIn :=
  match s.host with
  | [] => idleCycle
  | .cycle p :: _ => p
  | .wait :: _ => readCycle 0x004

/-- How the host goes on after the edge at which it saw the word `r`: a line that ends with a read keeps the word; `WAIT` repeats
while bit 0 of the word is 1 (R104). -/
def hostAdvance (r : Word) (s : State) : State :=
  match s.host with
  | [] => s
  | .cycle p :: rest => { s with host := rest, got := if isRead p then s.got ++ [r] else s.got }
  | .wait :: rest => if r.getLsbD 0 then s else { s with host := rest, got := s.got ++ [r] }

/-- `WR addr, v` (R104). -/
def wr (a : Addr) (v : Word) : HostLine := .cycle (writeCycle a v)

/-- `RD addr` (R104). -/
def rd (a : Addr) : HostLine := .cycle (readCycle a)

/-- `LDW base, value`: eight `WR`, least significant word first (R104, R63). -/
def ldw (base : Addr) (v : Wide) : List HostLine :=
  (List.finRange 8).map fun k => wr (base + BitVec.ofNat 11 (4 * k.val)) (wordOf v k)

/-- `CMD <command>`: `WR 0x010, word` (R104). -/
def cmd (i : Instr) : HostLine := wr 0x010 (encode i)

/-- `RDW base`: eight `RD` (R104). -/
def rdw (base : Addr) : List HostLine :=
  (List.finRange 8).map fun k => rd (base + BitVec.ofNat 11 (4 * k.val))

/-- The value the eight words of an `RDW` make, least significant word first (R104, R63). -/
def joinWords : List Word → Wide
  | [] => 0
  | w :: ws => w.setWidth 256 ||| (joinWords ws <<< 32)

end Sys2Proof.Machine
end

