-- ==== Sys2Proof/Machine/Clock.lean ====
section
/-! DEFINITION. One rising edge of the clock: the host's transaction and the engine (`00_scope.md` R15, `20_memory.md` R75, R76). -/

namespace Sys2Proof.Machine

open Host (Outcome)

/-- `EngineComplete` (R39, R40): the command in `CMDR` commits or faults; a word that is no command faults with `IllegalCommand`, tested
before anything else (`60_exceptions.md` R208, R211). -/
def engineComplete (s : State) : Outcome State Fault Refusal :=
  match decode s.cmdr with
  | .ok i => exec i s
  | .error _ => .next (faultEntry .illegalCommand s)

/-- An edge at which a command is in flight: the completion, where its latency is over (R257). -/
def engineEdge (s : State) : Outcome State Fault Refusal :=
  match s.left with
  | 0 => engineComplete s
  | n + 1 => .next { s with left := n }

/-- One rising edge with the inputs `p`. The host's transaction is evaluated against the state before the edge, then the engine's
completion takes effect (R76). The engine runs where a command was in flight before the edge (an issue at this edge does not
complete at it, R257) and still is (a reset at this edge wins, R76, R244). -/
def clockEdge (p : PortIn) (s : State) : Outcome State Fault Refusal :=
  if s.st = .busy ∧ (portEdge p s).st = .busy then engineEdge (portEdge p s) else .next (portEdge p s)

/-- One step: the host presents its inputs, sees the word it reads from the state before the edge, and the edge happens. -/
def clockStep (s : State) : Outcome State Fault Refusal :=
  clockEdge (hostInputs s) (hostAdvance (rdata s (hostInputs s)) s)

/-- `s` with the command word `w` in flight, about to complete: the result of its issue (R38) with no latency left, and a host that
presents nothing at the coming edge. -/
def withCommand (s : State) (w : Word) : State :=
  { s with cmdr := w, st := .busy, done := false, left := 0, host := [] }

end Sys2Proof.Machine
end

