-- ==== Sys2Proof/Machine/Step.lean ====
section
/-! DEFINITION. The step of the machine, one rising edge of `clk`, and the placing of a command for the next step. -/

namespace Sys2Proof.Machine

/-- One step of the machine: one rising edge of the clock (`20_memory.md` R61, R75). -/
def step (s : State) : Host.Outcome State Fault Refusal := clockStep s

/-- `s` with the command whose bits are `w` placed where the next step executes it: in `CMDR`, in flight (log 5). -/
def State.withFetchWord (s : State) (nbits w : Nat) : State := withCommand s (tableWord nbits w)

end Sys2Proof.Machine
end

