-- ==== Sys2Proof/Safety.lean ====
section
/-! DEFINITION. The terms claims are made in: the invariant of point registers and of the machine, the launch premises, what a host
can see, the end of a run, and the document's double-and-add loop as a relation. -/

namespace Sys2Proof.Safety

open Sys2Proof.Machine

/-- A record of a finite point or of an identity on a curve: the second half of R28. -/
abbrev PointValid (r : PointRec) : Prop :=
  r.v = true ∧ 2 ≤ r.cp.toNat ∧ r.ca.toNat < r.cp.toNat ∧ r.cb.toNat < r.cp.toNat ∧
  (r.inf = true → r.x = 0 ∧ r.y = 0) ∧
  (r.inf = false → r.x.toNat < r.cp.toNat ∧ r.y.toNat < r.cp.toNat ∧
    (r.y.toNat * r.y.toNat) % r.cp.toNat
      = (r.x.toNat * r.x.toNat * r.x.toNat + r.ca.toNat * r.x.toNat + r.cb.toNat) % r.cp.toNat)

/-- The invariant of a point register (`10_state.md` R28): it holds nothing, or a valid record. -/
abbrev PointOk (r : PointRec) : Prop := r = emptyPoint ∨ PointValid r

/-- Two records are on one curve: equal `CA`, `CB` and `CP` (R154). -/
abbrev OneCurve (A B : PointRec) : Prop := A.ca = B.ca ∧ A.cb = B.cb ∧ A.cp = B.cp

/-- `PrimeModulus` with `p > 2`, for a point's own modulus (R247, R165). -/
abbrev OddPrime (r : PointRec) : Prop := Nat.Prime r.cp.toNat ∧ 2 < r.cp.toNat

/-- The curve of a record is not singular: `4a³ + 27b² ≢ 0` (`93_implementation_defined.md` U23). -/
abbrev NonSingular (r : PointRec) : Prop := (4 * r.ca.toNat ^ 3 + 27 * r.cb.toNat ^ 2) % r.cp.toNat ≠ 0

/-- What holds in every state a run reaches: every point register meets R28; `DONE = 0` unless `ST = IDLE` (R41); `ERR` and `ERRCMD`
are 0 until a fault, and in `FAULT` hold a code that is raised and the command word that faulted (R36, R37, R200). -/
structure Inv (s : State) : Prop where
  points : ∀ j : QReg, PointOk (readQ s j)
  done_idle : s.st ≠ .idle → s.done = false
  no_fault : s.st ≠ .fault → s.err = 0 ∧ s.errcmd = 0
  fault : s.st = .fault → s.err ∈ [1#4, 2#4, 4#4, 5#4, 6#4, 7#4, 8#4] ∧ s.errcmd = s.cmdr

/-- Two states that agree on everything of R20 but the hidden loop registers: all a host can see, now or later, but for latency. -/
structure SameRegisters (s t : State) : Prop where
  curve : s.curve = t.curve
  f : s.f = t.f
  q : s.q = t.q
  ieDone : s.ieDone = t.ieDone
  ieFault : s.ieFault = t.ieFault
  st : s.st = t.st
  done : s.done = t.done
  err : s.err = t.err
  errcmd : s.errcmd = t.errcmd
  cmdr : s.cmdr = t.cmdr

/-- `CleanReset` (`70_reset_and_hazards.md` R247). -/
def CleanReset (s : State) : Prop := SameRegisters s State.reset

/-- `NoFault` (R247). -/
abbrev NoFault (s : State) : Prop := s.st ≠ .fault ∧ s.err = 0

/-- The host program has ended: its last transaction is done and `ST ≠ BUSY` (R18). -/
abbrev Ended (s : State) : Prop := s.host = [] ∧ s.st ≠ .busy

/-- It ended well (R18). -/
abbrev EndedWell (s : State) : Prop := s.host = [] ∧ s.st = .idle

/-- The inputs of an edge that reset the block: `rst_n = 0`, or a write to `CTRL` with bit 0 set (R240). -/
def ResetInputs (p : PortIn) : Bool :=
  !p.rstN || (p.sel && p.we && decide (p.addr = 0) && p.wdata.getLsbD 0)

/-- The inputs of an edge that write the word at address `a` (R61, R67). -/
def WriteInputs (p : PortIn) (a : Addr) : Bool := p.rstN && p.sel && p.we && decide (p.addr = a)

/-- The inputs of an edge that write one of the eight words of the 256-bit register at address `base` (R63). -/
abbrev WideWriteInputs (p : PortIn) (base : Nat) : Prop := ∃ k : Fin 8, WriteInputs p (BitVec.ofNat 11 (base + 4 * k.val)) = true

/-- The inputs of an edge that issue a command from `IDLE`: a write to `CMD` (R38). -/
def IssueInputs (p : PortIn) : Bool := WriteInputs p 0x010

/-- `t` is the state `n` edges after `s`. -/
abbrev After (s : State) (n : Nat) (t : State) : Prop := Host.Core.run core n s = .next t

/-- No reset at the next `n` edges from `s`: these edges are of one run ("A reset starts a new run", `60_exceptions.md` R217). -/
def NoResetWithin (s : State) (n : Nat) : Prop := ∀ k u, k < n → After s k u → ResetInputs (hostInputs u) = false

/-- The program that `s.host` holds loads the modulus `v`: a word of `CURVE.P` is written in `IDLE`, and later, with no reset between, a command
is issued while `CURVE.P` holds `v` (R67, R251; log 16). -/
def LoadsModulus (s : State) (v : Wide) : Prop :=
  ∃ n t m u, After s n t ∧ t.st = .idle ∧ WideWriteInputs (hostInputs t) 0x040 ∧
    After t m u ∧ NoResetWithin t m ∧ u.st = .idle ∧ IssueInputs (hostInputs u) = true ∧ u.curve.p = v

/-- `PrimeModulus`: "every modulus the program loads into `CURVE.P` is prime" (R9, R247). -/
def PrimeModulus (s : State) : Prop := ∀ v, LoadsModulus s v → Nat.Prime v.toNat

/-- `p > 2` for every modulus the program loads, which "claims about group behaviour also take" (R247). -/
def LargeModulus (s : State) : Prop := ∀ v, LoadsModulus s v → 2 < v.toNat

/-- The commands that write a point register, with their destination (R27). -/
def pointDestination : Instr → Option QReg
  | .pnew d _ _ | .pinf d | .padd d _ _ | .smul d _ _ => some d
  | .fadd _ _ _ | .fsub _ _ _ | .fmul _ _ _ | .fdiv _ _ _ | .finv _ _ | .fpow _ _ _ => none

/-- The commands that write an `F` register, with their destination (R23). -/
def fieldDestination : Instr → Option FReg
  | .fadd d _ _ | .fsub d _ _ | .fmul d _ _ | .fdiv d _ _ | .finv d _ | .fpow d _ _ => some d
  | .pnew _ _ _ | .pinf _ | .padd _ _ _ | .smul _ _ _ => none

/-- The loop of `ScalarMul` as the document writes it (`42_scalar.md` R180): from `k`, `result` and `current` it ends in a record or in the
first fault of an `Add`, the accumulation before the doubling (R188). -/
inductive DoubleAndAdd : Nat → PointRec → PointRec → Except FaultCode PointRec → Prop where
  | finished (result current : PointRec) : DoubleAndAdd 0 result current (.ok result)
  | accumulateFaults {k : Nat} {result current : PointRec} {c : FaultCode} :
      k % 2 = 1 → addPoints result current = .error c → DoubleAndAdd k result current (.error c)
  | accumulateThenDoubleFaults {k : Nat} {result current result' : PointRec} {c : FaultCode} :
      k % 2 = 1 → addPoints result current = .ok result' → addPoints current current = .error c →
      DoubleAndAdd k result current (.error c)
  | accumulateAndDouble {k : Nat} {result current result' current' : PointRec} {out : Except FaultCode PointRec} :
      k % 2 = 1 → addPoints result current = .ok result' → addPoints current current = .ok current' →
      DoubleAndAdd (k / 2) result' current' out → DoubleAndAdd k result current out
  | doubleFaults {k : Nat} {result current : PointRec} {c : FaultCode} :
      0 < k → k % 2 = 0 → addPoints current current = .error c → DoubleAndAdd k result current (.error c)
  | double {k : Nat} {result current current' : PointRec} {out : Except FaultCode PointRec} :
      0 < k → k % 2 = 0 → addPoints current current = .ok current' →
      DoubleAndAdd (k / 2) result current' out → DoubleAndAdd k result current out

/-- Exactly `n` iterations of the loop of `SMUL`, whatever `KSH` holds (R183, R186). -/
def iterations : Nat → LoopRegs → Except FaultCode LoopRegs
  | 0, l => .ok l
  | n + 1, l =>
    match loopIterate l with
    | .error c => .error c
    | .ok l' => iterations n l'

/-- `P + P + … + P`, `k` terms, from the identity on `P`'s curve (R182). -/
def multiple (P : PointRec) : Nat → Except FaultCode PointRec
  | 0 => .ok (infOn P)
  | k + 1 =>
    match multiple P k with
    | .error c => .error c
    | .ok R => addPoints R P

end Sys2Proof.Safety
end

