-- ==== Sys2Proof/Certificates/Slice0/Obligations.lean ====
section
/-! DEFINITION. The statements for the provers. Every step of this machine is one rising edge of the clock; a command's meaning (`exec`) is
its completion. Where a statement speaks of a state after `SMUL`, the hidden loop registers (and the counter their free value is drawn with)
are left open by an existential: nothing rests on them (log 2). -/

open Sys2Proof Sys2Proof.Machine Sys2Proof.Safety

/-! ### Encoding -/

/-- R90 to R94, R102: each word has one meaning and each command one word; no bit of a word is dropped. -/
def Obligations.DecodeEncodeAgree : Prop :=
  ∀ (w : Word) (i : Instr), decode w = .ok i ↔ encode i = w

/-- The words of R102's examples, and the words with the largest indices (vectors V-E12, V-E13), decode as the spec writes them. -/
def Obligations.SpecWordsDecodeAsWritten : Prop :=
  decode 0x00010210#32 = .ok (.fadd 2 0 1) ∧ decode 0x00010213#32 = .ok (.fdiv 2 0 1) ∧
  decode 0x00000114#32 = .ok (.finv 1 0) ∧ decode 0x00010315#32 = .ok (.fpow 3 0 1) ∧
  decode 0x00010020#32 = .ok (.pnew 0 0 1) ∧ decode 0x00000321#32 = .ok (.pinf 3) ∧
  decode 0x00010222#32 = .ok (.padd 2 0 1) ∧ decode 0x00000122#32 = .ok (.padd 1 0 0) ∧
  decode 0x00020130#32 = .ok (.smul 1 0 2) ∧ decode 0x00077715#32 = .ok (.fpow 7 7 7) ∧
  decode 0x00033322#32 = .ok (.padd 3 3 3)

/-- R95: the decoder, written from the fields (R90, R93), takes a word exactly as the `match` and `mask` columns do, and at most one row
matches a word. -/
def Obligations.CommandWordsAreTheTableRows : Prop :=
  ∀ w : Word,
    (∀ i, decode w = .ok i → ∃ r ∈ opcodeRows, r.takes w = true ∧ r.mnemonic = i.mnemonic) ∧
    (∀ r ∈ opcodeRows, r.takes w = true → ∃ i, decode w = .ok i ∧ i.mnemonic = r.mnemonic) ∧
    (∀ r ∈ opcodeRows, ∀ r' ∈ opcodeRows, r.takes w = true → r'.takes w = true → r = r')

/-- R97: the illegal words are exactly those of (a) to (e), and all behave the same way: as `CMDR` of a completing command, each ends in
`IllegalCommand`. The fields are written here as numbers (`op = w mod 2⁸`, and so on). -/
def Obligations.IllegalWordsAreTheFiveClasses : Prop :=
  ∀ w : Word,
    ((∃ e, decode w = .error e) ↔
      (w.toNat % 2 ^ 8 ∉ [0x10, 0x11, 0x12, 0x13, 0x14, 0x15, 0x20, 0x21, 0x22, 0x30] ∨
       w.toNat / 2 ^ 20 ≠ 0 ∨
       (w.toNat % 2 ^ 8 ∈ [0x10, 0x11, 0x12, 0x13, 0x14, 0x15] ∧ 8 ≤ w.toNat / 2 ^ 8 % 16) ∨
       (w.toNat % 2 ^ 8 ∈ [0x10, 0x11, 0x12, 0x13, 0x14, 0x15, 0x20] ∧ 8 ≤ w.toNat / 2 ^ 12 % 16) ∨
       (w.toNat % 2 ^ 8 ∈ [0x10, 0x11, 0x12, 0x13, 0x15, 0x20, 0x30] ∧ 8 ≤ w.toNat / 2 ^ 16 % 16) ∨
       (w.toNat % 2 ^ 8 ∈ [0x20, 0x21, 0x22, 0x30] ∧ 4 ≤ w.toNat / 2 ^ 8 % 16) ∨
       (w.toNat % 2 ^ 8 ∈ [0x22, 0x30] ∧ 4 ≤ w.toNat / 2 ^ 12 % 16) ∨
       (w.toNat % 2 ^ 8 = 0x22 ∧ 4 ≤ w.toNat / 2 ^ 16 % 16) ∨
       (w.toNat % 2 ^ 8 = 0x14 ∧ w.toNat / 2 ^ 16 % 16 ≠ 0) ∨
       (w.toNat % 2 ^ 8 = 0x21 ∧ (w.toNat / 2 ^ 12 % 16 ≠ 0 ∨ w.toNat / 2 ^ 16 % 16 ≠ 0)))) ∧
    ∀ s : State, s.cmdr = w → (∃ e, decode w = .error e) →
      engineComplete s = .next { s with err := 8, errcmd := w, st := .fault }

/-! ### The step -/

/-- R39, R40, R76: where a command is in flight and its latency is over, the step is `exec` of the decoded command: exactly, where the host
presents nothing or waits; after the host's own transaction (evaluated on the state before the edge), where it presents one that does not
reset the block. -/
def Obligations.StepCompletesTheCommandInFlight : Prop :=
  ∀ (s : State) (i : Instr), s.st = .busy → s.left = 0 → decode s.cmdr = .ok i →
    (s.host = [] → step s = exec i s) ∧
    (∀ rest, s.host = .wait :: rest → step s = exec i s) ∧
    (∀ p rest, s.host = .cycle p :: rest → ResetInputs p = false →
      step s = exec i (portEdge p
        { s with host := rest, got := if p.sel && !p.we then s.got ++ [memRead s p.addr] else s.got }))

/-- R257, R39: whatever the host does, a command in flight is over (committed, faulted or reset) within its latency. -/
def Obligations.EveryCommandInFlightEnds : Prop :=
  ∀ s : State, s.st = .busy →
    ∃ k, k ≤ s.left + 1 ∧ ∃ t, Host.Core.run core k s = .next t ∧ t.st ≠ .busy

/-- R208: a word in `CMDR` that matches no row of the opcode table faults with `IllegalCommand`, before anything else, and only `ERR`,
`ERRCMD` and `ST` change. -/
def Obligations.IllegalCommandFaults : Prop :=
  ∀ s : State, s.st = .busy → s.left = 0 → s.host = [] → wordWellFormed s.cmdr = false →
    step s = .next { s with err := 8, errcmd := s.cmdr, st := .fault }

/-- R38: a write to `CMD` in `IDLE` issues any word at all; otherwise it is dropped; a read returns `CMDR`. -/
def Obligations.CmdWriteIssuesInIdle : Prop :=
  ∀ (s : State) (w : Word),
    (s.st = .idle → ∃ l ls n,
      memWrite s 0x010 w = { s with cmdr := w, st := .busy, done := false, left := l, lats := ls, fresh := n }) ∧
    (s.st ≠ .idle → memWrite s 0x010 w = s) ∧
    memRead s 0x010 = s.cmdr

/-- R17: no step of the machine stops. -/
def Obligations.NoStepStops : Prop :=
  ∀ s : State, ∃ t, step s = .next t

/-- R39, all its rows and no others. `hostInputs s` is what the host presents at this edge. -/
def Obligations.EngineStateTransitions : Prop :=
  ∀ s t : State, step s = .next t →
    (ResetInputs (hostInputs s) = true → t.st = .idle) ∧
    (ResetInputs (hostInputs s) = false →
      (s.st = .idle → t.st = if IssueInputs (hostInputs s) then .busy else .idle) ∧
      (s.st = .busy → 0 < s.left → t.st = .busy) ∧
      (s.st = .busy → s.left = 0 → (t.st = .idle ∧ t.done = true) ∨ t.st = .fault) ∧
      (s.st = .fault → t.st = .fault))

/-! ### The host port -/

/-- R66 (with the map of R62, the word order of R63 and the tag word of R31): what a read returns at every address, and that it changes
nothing. -/
def Obligations.ReadReturnsTheMappedWord : Prop :=
  ∀ s : State,
    memRead s 0x000 = 0#29 ++ BitVec.ofBool s.ieFault ++ BitVec.ofBool s.ieDone ++ 0#1 ∧
    memRead s 0x004 = 0#29 ++ BitVec.ofBool (s.st = .fault) ++ BitVec.ofBool s.done ++ BitVec.ofBool (s.st = .busy) ∧
    memRead s 0x008 = 0#28 ++ s.err ∧
    memRead s 0x00C = s.errcmd ∧
    memRead s 0x010 = s.cmdr ∧
    (∀ k : Fin 8,
      memRead s (BitVec.ofNat 11 (0x040 + 4 * k.val)) = s.curve.p.extractLsb' (32 * k.val) 32 ∧
      memRead s (BitVec.ofNat 11 (0x060 + 4 * k.val)) = s.curve.a.extractLsb' (32 * k.val) 32 ∧
      memRead s (BitVec.ofNat 11 (0x080 + 4 * k.val)) = s.curve.b.extractLsb' (32 * k.val) 32 ∧
      (∀ i : FReg, memRead s (BitVec.ofNat 11 (0x100 + 0x20 * i.val + 4 * k.val)) = s.f[i].extractLsb' (32 * k.val) 32) ∧
      (∀ j : QReg,
        memRead s (BitVec.ofNat 11 (0x220 + 0x100 * j.val + 4 * k.val)) = s.q[j].x.extractLsb' (32 * k.val) 32 ∧
        memRead s (BitVec.ofNat 11 (0x240 + 0x100 * j.val + 4 * k.val)) = s.q[j].y.extractLsb' (32 * k.val) 32 ∧
        memRead s (BitVec.ofNat 11 (0x260 + 0x100 * j.val + 4 * k.val)) = s.q[j].ca.extractLsb' (32 * k.val) 32 ∧
        memRead s (BitVec.ofNat 11 (0x280 + 0x100 * j.val + 4 * k.val)) = s.q[j].cb.extractLsb' (32 * k.val) 32 ∧
        memRead s (BitVec.ofNat 11 (0x2A0 + 0x100 * j.val + 4 * k.val)) = s.q[j].cp.extractLsb' (32 * k.val) 32)) ∧
    (∀ j : QReg, memRead s (BitVec.ofNat 11 (0x200 + 0x100 * j.val))
      = 0#30 ++ BitVec.ofBool s.q[j].inf ++ BitVec.ofBool s.q[j].v) ∧
    (∀ a : Addr, (a.toNat % 4 ≠ 0 ∨ (0x014 ≤ a.toNat ∧ a.toNat < 0x040) ∨ (0x0A0 ≤ a.toNat ∧ a.toNat < 0x100) ∨
        (0x200 ≤ a.toNat ∧ a.toNat < 0x600 ∧ ((0x04 ≤ a.toNat % 0x100 ∧ a.toNat % 0x100 < 0x20) ∨ 0xC0 ≤ a.toNat % 0x100)) ∨
        0x600 ≤ a.toNat) → memRead s a = 0) ∧
    (∀ a : Addr, portEdge ⟨true, true, false, a, 0⟩ s = s)

/-- R67, its six items in their order. -/
def Obligations.WriteDoesTheFirstThatApplies : Prop :=
  ∀ (s : State) (w : Word),
    (w.getLsbD 0 = true → SameRegisters (memWrite s 0x000 w) State.reset) ∧
    (w.getLsbD 0 = false → memWrite s 0x000 w = { s with ieDone := w.getLsbD 1, ieFault := w.getLsbD 2 }) ∧
    (s.st ≠ .idle → ∀ a : Addr, a ≠ 0 → memWrite s a w = s) ∧
    (s.st = .idle →
      memWrite s 0x004 w = { s with done := s.done && !w.getLsbD 1 } ∧
      (∃ l ls n, memWrite s 0x010 w = { s with cmdr := w, st := .busy, done := false, left := l, lats := ls, fresh := n }) ∧
      (∀ k : Fin 8,
        (∃ v, memWrite s (BitVec.ofNat 11 (0x040 + 4 * k.val)) w = { s with curve := { s.curve with p := v } } ∧
          v.extractLsb' (32 * k.val) 32 = w ∧
          ∀ j : Fin 8, j ≠ k → v.extractLsb' (32 * j.val) 32 = s.curve.p.extractLsb' (32 * j.val) 32) ∧
        (∃ v, memWrite s (BitVec.ofNat 11 (0x060 + 4 * k.val)) w = { s with curve := { s.curve with a := v } } ∧
          v.extractLsb' (32 * k.val) 32 = w ∧
          ∀ j : Fin 8, j ≠ k → v.extractLsb' (32 * j.val) 32 = s.curve.a.extractLsb' (32 * j.val) 32) ∧
        (∃ v, memWrite s (BitVec.ofNat 11 (0x080 + 4 * k.val)) w = { s with curve := { s.curve with b := v } } ∧
          v.extractLsb' (32 * k.val) 32 = w ∧
          ∀ j : Fin 8, j ≠ k → v.extractLsb' (32 * j.val) 32 = s.curve.b.extractLsb' (32 * j.val) 32) ∧
        (∀ i : FReg, ∃ v, memWrite s (BitVec.ofNat 11 (0x100 + 0x20 * i.val + 4 * k.val)) w = { s with f := s.f.set i v } ∧
          v.extractLsb' (32 * k.val) 32 = w ∧
          ∀ j : Fin 8, j ≠ k → v.extractLsb' (32 * j.val) 32 = s.f[i].extractLsb' (32 * j.val) 32)) ∧
      (∀ a : Addr, a ≠ 0 → a ≠ 0x004 → a ≠ 0x010 →
        ¬(a.toNat % 4 = 0 ∧ ((0x040 ≤ a.toNat ∧ a.toNat < 0x0A0) ∨ (0x100 ≤ a.toNat ∧ a.toNat < 0x200))) →
        memWrite s a w = s))

/-- R66, R67, R75, R104, R225: the step of a state with no command in flight is exactly the host's transaction: the write, the read (its word
recorded, nothing changed), or nothing at all. `WAIT` reads `STATUS`: it ends where `BUSY` is clear and stays where it is set. How the host's
program stands in the state, and that it keeps the words it reads, is the model's own (log 6). -/
def Obligations.StepMakesTheHostsTransaction : Prop :=
  ∀ s : State,
    (s.st ≠ .busy →
      (s.host = [] → step s = .next s) ∧
      (∀ rest, s.host = .wait :: rest → step s = .next { s with host := rest, got := s.got ++ [memRead s 0x004] }) ∧
      (∀ a v rest, s.host = .cycle ⟨true, true, true, a, v⟩ :: rest → step s = .next (memWrite { s with host := rest } a v)) ∧
      (∀ a v rest, s.host = .cycle ⟨true, true, false, a, v⟩ :: rest →
        step s = .next { s with host := rest, got := s.got ++ [memRead s a] }) ∧
      (∀ we a v rest, s.host = .cycle ⟨true, false, we, a, v⟩ :: rest → step s = .next { s with host := rest })) ∧
    (s.st = .busy →
      (∀ n, s.left = n + 1 → s.host = [] → step s = .next { s with left := n }) ∧
      (∀ n rest, s.left = n + 1 → s.host = .wait :: rest → step s = .next { s with left := n }) ∧
      (∀ n a v rest, s.left = n + 1 → s.host = .cycle ⟨true, true, false, a, v⟩ :: rest →
        step s = .next { s with host := rest, got := s.got ++ [memRead s a], left := n }) ∧
      (∀ n we a v rest, s.left = n + 1 → s.host = .cycle ⟨true, false, we, a, v⟩ :: rest →
        step s = .next { s with host := rest, left := n }))

/-- R69: while `ST ≠ IDLE`, a write to any address but `CTRL`'s makes the same step as a cycle without a transaction. -/
def Obligations.WritesAreDroppedUnlessIdle : Prop :=
  ∀ (s : State) (a : Addr) (v : Word) (rest : List HostLine), s.st ≠ .idle → a ≠ 0 →
    step { s with host := .cycle ⟨true, true, true, a, v⟩ :: rest }
      = step { s with host := .cycle ⟨true, false, false, 0, 0⟩ :: rest }

/-- R70: `ERR`, `ERRCMD` and every word of every point register are read-only to the host, in every engine state; and a step that does
not reset the block changes them only by completing a command. -/
def Obligations.EngineRegistersAreReadOnlyToTheHost : Prop :=
  (∀ (s : State) (a : Addr) (w : Word),
    (a = 0x008 ∨ a = 0x00C ∨ (0x200 ≤ a.toNat ∧ a.toNat < 0x600)) → memWrite s a w = s) ∧
  (∀ s t : State, step s = .next t → ResetInputs (hostInputs s) = false → ¬(s.st = .busy ∧ s.left = 0) →
    t.q = s.q ∧ t.err = s.err ∧ t.errcmd = s.errcmd)

/-- R76, clause by clause: the completion and a read, a write other than to `CTRL`, a `CTRL` write that does not reset, one that does, and
a hard reset, at one edge. -/
def Obligations.CompletionAndTransactionAtOneEdge : Prop :=
  ∀ (s : State) (rest : List HostLine), s.st = .busy → s.left = 0 →
    (∀ a : Addr, step { s with host := .cycle ⟨true, true, false, a, 0⟩ :: rest }
      = engineComplete { s with host := rest, got := s.got ++ [memRead s a] }) ∧
    (∀ (a : Addr) (v : Word), a ≠ 0 → step { s with host := .cycle ⟨true, true, true, a, v⟩ :: rest }
      = engineComplete { s with host := rest }) ∧
    (∀ v : Word, v.getLsbD 0 = false → step { s with host := .cycle ⟨true, true, true, 0, v⟩ :: rest }
      = engineComplete { s with host := rest, ieDone := v.getLsbD 1, ieFault := v.getLsbD 2 }) ∧
    (∀ v : Word, v.getLsbD 0 = true → ∃ t, step { s with host := .cycle ⟨true, true, true, 0, v⟩ :: rest } = .next t ∧
      SameRegisters t State.reset) ∧
    (∀ p : PortIn, p.rstN = false → ∃ t, step { s with host := .cycle p :: rest } = .next t ∧ SameRegisters t State.reset)

/-- R63, R71: a 256-bit value is eight words, least significant first: eight writes in `IDLE` put it whole into any of the eleven 256-bit
registers a host can write. -/
def Obligations.EightWordWritesStoreTheValue : Prop :=
  ∀ (s : State) (v : Wide), s.st = .idle →
    let store (base : Nat) : State := (List.finRange 8).foldl
      (fun t k => memWrite t (BitVec.ofNat 11 (base + 4 * k.val)) (v.extractLsb' (32 * k.val) 32)) s
    store 0x040 = { s with curve := { s.curve with p := v } } ∧
    store 0x060 = { s with curve := { s.curve with a := v } } ∧
    store 0x080 = { s with curve := { s.curve with b := v } } ∧
    ∀ i : FReg, store (0x100 + 0x20 * i.val) = { s with f := s.f.set i v }

/-! ### Reset -/

/-- R48: what reset leaves. The state after power-up's reset, and the state after a hard or soft reset of any state, have every
host-visible register at 0, `ST = IDLE`, every word of the register space 0 and `irq = 0`. -/
def Obligations.ResetClearsEveryRegister : Prop :=
  ∀ t : State, (t = State.reset ∨ ∃ s p, ResetInputs p = true ∧ t = portEdge p s) →
    t.curve.p = 0 ∧ t.curve.a = 0 ∧ t.curve.b = 0 ∧ (∀ i : FReg, t.f[i] = 0) ∧
    (∀ j : QReg, t.q[j] = ⟨false, false, 0, 0, 0, 0, 0⟩) ∧ t.ieDone = false ∧ t.ieFault = false ∧ t.st = .idle ∧
    t.done = false ∧ t.err = 0 ∧ t.errcmd = 0 ∧ t.cmdr = 0 ∧
    (∀ a : Addr, memRead t a = 0) ∧ irq t = false

/-- R240: the two resets have the same effect on every register of the block, in any state, and no register's contents survive them. The last
conjunct is the MODEL's choice and no rule of the spec: the host is not reset with the block, so its program goes on (logs 4 and 6). -/
def Obligations.BothResetsWinInAnyState : Prop :=
  ∀ (s : State) (p : PortIn) (rest : List HostLine), s.host = .cycle p :: rest →
    (p.rstN = false ∨ (p.sel = true ∧ p.we = true ∧ p.addr = 0 ∧ p.wdata.getLsbD 0 = true)) →
    ∃ t, step s = .next t ∧ SameRegisters t State.reset ∧ t.host = rest

/-- R49: from reset, no command produces a point or a value: the eight commands that use the modulus fault with `BadModulus`, the
other two with `UninitPoint`. -/
def Obligations.NoCommandSucceedsFromReset : Prop :=
  ∀ (i : Instr) (s : State), SameRegisters s { State.reset with st := .busy, cmdr := encode i } →
    ∃ t, exec i s = .next t ∧ t.st = .fault ∧ t.f = s.f ∧ t.q = s.q ∧
      t.err = (match i with
        | .padd _ _ _ | .smul _ _ _ => 7
        | .fadd _ _ _ | .fsub _ _ _ | .fmul _ _ _ | .fdiv _ _ _ | .finv _ _ | .fpow _ _ _ | .pnew _ _ _ | .pinf _ => 6)

/-! ### Invariant and whole-machine rules -/

/-- The invariant (R28, R36, R37, R41) holds at reset. -/
def Obligations.ResetMeetsTheInvariant : Prop := Inv State.reset

/-- R28 ("at every time"), R36, R37, R41: every step from every state that meets the invariant gives a state that meets it. -/
def Obligations.EveryStepKeepsTheInvariant : Prop :=
  ∀ s t : State, Inv s → step s = .next t → Inv t

/-- R216, R217, R69: without a reset, a step from `FAULT` changes nothing but the interrupt enables and the host's own data. -/
def Obligations.FaultIsFatalUntilReset : Prop :=
  ∀ s t : State, s.st = .fault → ResetInputs (hostInputs s) = false → step s = .next t →
    t = { s with ieDone := t.ieDone, ieFault := t.ieFault, host := t.host, got := t.got }

/-- R17, R214, R215: a command commits (`ST <- IDLE`, `DONE <- 1`, no fault recorded) or takes a fault that writes `ERR`, `ERRCMD` and `ST`
and nothing else (the hidden loop registers apart); `ERR` is then a code that R200 says is raised by a command. -/
def Obligations.CommandsCommitOrFaultPrecisely : Prop :=
  ∀ (i : Instr) (s : State), ∃ t, exec i s = .next t ∧
    ((t.st = .idle ∧ t.done = true ∧ t.err = s.err ∧ t.errcmd = s.errcmd) ∨
     (t = { s with err := t.err, errcmd := s.cmdr, st := .fault, loop := t.loop, fresh := t.fresh } ∧
      t.err ∈ [1#4, 2#4, 4#4, 5#4, 6#4, 7#4]))

/-- R23, R27, R30, R34, R38, R40, R41, R67, R79: the one way each register changes at a step without a reset. A point register: as the
destination of the point command that completes. An `F` register: as the destination of the field command that completes, or in `IDLE` by a host
write to one of its own words. `CURVE`: in `IDLE`, each field by a host write to one of its own words. `CMDR`: by an issue. The enables: by a
`CTRL` write. `DONE`: set by a commit; cleared by an issue or by a one written to `STATUS[1]`. -/
def Obligations.RegistersChangeOnlyByTheirWriters : Prop :=
  ∀ s t : State, step s = .next t → ResetInputs (hostInputs s) = false →
    (∀ j : QReg, readQ t j ≠ readQ s j →
      s.st = .busy ∧ s.left = 0 ∧ ∃ i, decode s.cmdr = .ok i ∧ pointDestination i = some j) ∧
    (∀ d : FReg, readF t d ≠ readF s d →
      (s.st = .busy ∧ s.left = 0 ∧ ∃ i, decode s.cmdr = .ok i ∧ fieldDestination i = some d) ∨
      (s.st = .idle ∧ WideWriteInputs (hostInputs s) (0x100 + 0x20 * d.val))) ∧
    (t.curve.p ≠ s.curve.p → s.st = .idle ∧ WideWriteInputs (hostInputs s) 0x040) ∧
    (t.curve.a ≠ s.curve.a → s.st = .idle ∧ WideWriteInputs (hostInputs s) 0x060) ∧
    (t.curve.b ≠ s.curve.b → s.st = .idle ∧ WideWriteInputs (hostInputs s) 0x080) ∧
    (t.cmdr ≠ s.cmdr → s.st = .idle ∧ IssueInputs (hostInputs s) = true) ∧
    (t.ieDone ≠ s.ieDone ∨ t.ieFault ≠ s.ieFault → WriteInputs (hostInputs s) 0x000 = true) ∧
    (t.done = true → s.done = false → s.st = .busy ∧ s.left = 0 ∧ t.st = .idle) ∧
    (t.done = false → s.done = true → s.st = .idle ∧
      (IssueInputs (hostInputs s) = true ∨
       (WriteInputs (hostInputs s) 0x004 = true ∧ (hostInputs s).wdata.getLsbD 1 = true)))

/-- R40, R69, R75, R79: from issue to completion the command in flight and its operands stay: without a reset, an edge in `BUSY` with latency
left changes nothing but the interrupt enables, and the model's own latency count and host's data (logs 3 and 6). -/
def Obligations.NothingMovesWhileACommandIsInFlight : Prop :=
  ∀ (s t : State) (n : Nat), s.st = .busy → s.left = n + 1 → ResetInputs (hostInputs s) = false → step s = .next t →
    t = { s with left := n, ieDone := t.ieDone, ieFault := t.ieFault, host := t.host, got := t.got }

/-- R209: `irq` is exactly this function of the state; and in every state that meets the invariant the two sources are not both pending. -/
def Obligations.InterruptLineFollowsTheFlags : Prop :=
  ∀ s : State,
    (irq s = true ↔ (s.done = true ∧ s.ieDone = true) ∨ (s.st = .fault ∧ s.ieFault = true)) ∧
    (Inv s → ¬(s.done = true ∧ s.st = .fault))

/-- R210: the engine's behaviour never depends on the interrupt enables. -/
def Obligations.EngineIgnoresTheInterruptEnables : Prop :=
  ∀ (i : Instr) (s t : State) (d e : Bool), exec i s = .next t →
    exec i { s with ieDone := d, ieFault := e } = .next { t with ieDone := d, ieFault := e }

/-- R161, R181 (`CURVE` is not read) and section 2 of `40_field.md` (`CURVE.A`, `CURVE.B` are not read by a field command). -/
def Obligations.OperandsCarryTheirCurve : Prop :=
  (∀ (qd qa qb : QReg) (s t : State) (c : Curve), exec (.padd qd qa qb) s = .next t →
    exec (.padd qd qa qb) { s with curve := c } = .next { t with curve := c }) ∧
  (∀ (qd qa : QReg) (fk : FReg) (s t : State) (c : Curve), exec (.smul qd qa fk) s = .next t →
    exec (.smul qd qa fk) { s with curve := c } = .next { t with curve := c }) ∧
  (∀ (i : Instr) (s t : State) (a b : Wide), (fieldDestination i).isSome = true → exec i s = .next t →
    exec i { s with curve := ⟨s.curve.p, a, b⟩ } = .next { t with curve := ⟨s.curve.p, a, b⟩ })

/-! ### Runs under the launch premises of R247 -/

/-- R217, R247 (`NoFault`): a fault is never cleared inside a run: where no fault is recorded at the end of it, none was at any edge of it. -/
def Obligations.NoFaultAtTheEndMeansNoneInTheRun : Prop :=
  ∀ (s t : State) (n : Nat), Inv s → After s n t → NoResetWithin s n → NoFault t →
    ∀ k u, k ≤ n → After s k u → NoFault u

/-- R247 (`CleanReset`, `PrimeModulus`), R28, R30: in every run of every program that loads only primes, every point register that holds a
point holds one over a prime modulus, whatever the program has written to `CURVE` since. -/
def Obligations.PointsOfARunHavePrimeModuli : Prop :=
  ∀ (s t : State) (n : Nat), CleanReset s → PrimeModulus s → After s n t →
    ∀ j : QReg, (readQ t j).v = true → Nat.Prime (readQ t j).cp.toNat

/-- R165, R188, R247: in every run of every program that loads only primes above 2, `PADD` can fault only with `UninitPoint` or
`CurveMismatch`, and `SMUL` only with `UninitPoint`. -/
def Obligations.PointArithmeticOfARunNeverFailsToDivide : Prop :=
  ∀ (s t : State) (n : Nat), CleanReset s → PrimeModulus s → LargeModulus s → After s n t → t.st = .fault →
    (∀ qd qa qb, decode t.errcmd = .ok (.padd qd qa qb) → t.err = 7 ∨ t.err = 2) ∧
    (∀ qd qa fk, decode t.errcmd = .ok (.smul qd qa fk) → t.err = 7)

/-! ### The field unit -/

/-- R127: `finv(b, p)` is the unique `v` in `[0, p)` with `(b · v) mod p = 1` where there is one, which is where `gcd(b, p) = 1`, and
`NonInvertibleDivisor` otherwise; for prime `p` it faults exactly for `b = 0`. -/
def Obligations.InverseIsTheUniqueInverse : Prop :=
  ∀ b p : Nat, 2 ≤ p → b < p →
    (∀ v, v < p → b * v % p = 1 → finv b p = .ok v) ∧
    (∀ v, finv b p = .ok v → v < p ∧ b * v % p = 1) ∧
    ((∃ v, finv b p = .ok v) ↔ Nat.gcd b p = 1) ∧
    (Nat.gcd b p ≠ 1 → finv b p = .error .nonInvertibleDivisor) ∧
    (Nat.Prime p → (finv b p = .error .nonInvertibleDivisor ↔ b = 0))

/-- R128: `fpow(a, 0, p) = 1`, `fpow(a, e + 1, p) = fmul(fpow(a, e, p), a, p)`, so `fpow(a, e, p) = (a ^ e) mod p`; the exponent is any natural
number. -/
def Obligations.PowerIsTheRepeatedProduct : Prop :=
  ∀ a p : Nat, 2 ≤ p →
    fpow a 0 p = 1 ∧ ∀ e, fpow a (e + 1) p = fpow a e p * a % p ∧ fpow a e p = a ^ e % p

/-- R130, whole: the encoding, the result, and the faults in their order. -/
def Obligations.FaddAddsModuloP : Prop :=
  ∀ (fd fa fb : FReg) (s : State),
    decode (BitVec.ofNat 32 (0x10 + fd.val * 2 ^ 8 + fa.val * 2 ^ 12 + fb.val * 2 ^ 16)) = .ok (.fadd fd fa fb) ∧
    (s.curve.p.toNat < 2 → exec (.fadd fd fa fb) s = .next { s with err := 6, errcmd := s.cmdr, st := .fault }) ∧
    (2 ≤ s.curve.p.toNat →
      (s.curve.p.toNat ≤ s.f[fa].toNat ∨ s.curve.p.toNat ≤ s.f[fb].toNat →
        exec (.fadd fd fa fb) s = .next { s with err := 5, errcmd := s.cmdr, st := .fault }) ∧
      (s.f[fa].toNat < s.curve.p.toNat → s.f[fb].toNat < s.curve.p.toNat →
        exec (.fadd fd fa fb) s = .next { s with
          f := s.f.set fd (BitVec.ofNat 256 ((s.f[fa].toNat + s.f[fb].toNat) % s.curve.p.toNat)), st := .idle, done := true }))

/-- R131, whole; the result is the remainder of the integer `a − b`. -/
def Obligations.FsubSubtractsModuloP : Prop :=
  ∀ (fd fa fb : FReg) (s : State),
    decode (BitVec.ofNat 32 (0x11 + fd.val * 2 ^ 8 + fa.val * 2 ^ 12 + fb.val * 2 ^ 16)) = .ok (.fsub fd fa fb) ∧
    (s.curve.p.toNat < 2 → exec (.fsub fd fa fb) s = .next { s with err := 6, errcmd := s.cmdr, st := .fault }) ∧
    (2 ≤ s.curve.p.toNat →
      (s.curve.p.toNat ≤ s.f[fa].toNat ∨ s.curve.p.toNat ≤ s.f[fb].toNat →
        exec (.fsub fd fa fb) s = .next { s with err := 5, errcmd := s.cmdr, st := .fault }) ∧
      (s.f[fa].toNat < s.curve.p.toNat → s.f[fb].toNat < s.curve.p.toNat →
        exec (.fsub fd fa fb) s = .next { s with
          f := s.f.set fd (BitVec.ofInt 256 (((s.f[fa].toNat : Int) - s.f[fb].toNat) % s.curve.p.toNat)),
          st := .idle, done := true }))

/-- R132, whole. -/
def Obligations.FmulMultipliesModuloP : Prop :=
  ∀ (fd fa fb : FReg) (s : State),
    decode (BitVec.ofNat 32 (0x12 + fd.val * 2 ^ 8 + fa.val * 2 ^ 12 + fb.val * 2 ^ 16)) = .ok (.fmul fd fa fb) ∧
    (s.curve.p.toNat < 2 → exec (.fmul fd fa fb) s = .next { s with err := 6, errcmd := s.cmdr, st := .fault }) ∧
    (2 ≤ s.curve.p.toNat →
      (s.curve.p.toNat ≤ s.f[fa].toNat ∨ s.curve.p.toNat ≤ s.f[fb].toNat →
        exec (.fmul fd fa fb) s = .next { s with err := 5, errcmd := s.cmdr, st := .fault }) ∧
      (s.f[fa].toNat < s.curve.p.toNat → s.f[fb].toNat < s.curve.p.toNat →
        exec (.fmul fd fa fb) s = .next { s with
          f := s.f.set fd (BitVec.ofNat 256 ((s.f[fa].toNat * s.f[fb].toNat) % s.curve.p.toNat)), st := .idle, done := true }))

/-- R133, whole: the quotient `q` is the residue with `b · q ≡ a (mod p)`; a divisor without an inverse always faults. -/
def Obligations.FdivDividesModuloP : Prop :=
  ∀ (fd fa fb : FReg) (s : State),
    decode (BitVec.ofNat 32 (0x13 + fd.val * 2 ^ 8 + fa.val * 2 ^ 12 + fb.val * 2 ^ 16)) = .ok (.fdiv fd fa fb) ∧
    (s.curve.p.toNat < 2 → exec (.fdiv fd fa fb) s = .next { s with err := 6, errcmd := s.cmdr, st := .fault }) ∧
    (2 ≤ s.curve.p.toNat →
      (s.curve.p.toNat ≤ s.f[fa].toNat ∨ s.curve.p.toNat ≤ s.f[fb].toNat →
        exec (.fdiv fd fa fb) s = .next { s with err := 5, errcmd := s.cmdr, st := .fault }) ∧
      (s.f[fa].toNat < s.curve.p.toNat → s.f[fb].toNat < s.curve.p.toNat →
        (Nat.gcd s.f[fb].toNat s.curve.p.toNat ≠ 1 →
          exec (.fdiv fd fa fb) s = .next { s with err := 4, errcmd := s.cmdr, st := .fault }) ∧
        (Nat.gcd s.f[fb].toNat s.curve.p.toNat = 1 →
          ∃ q, q < s.curve.p.toNat ∧ s.f[fb].toNat * q % s.curve.p.toNat = s.f[fa].toNat ∧
            exec (.fdiv fd fa fb) s = .next { s with
              f := s.f.set fd (BitVec.ofNat 256 q), st := .idle, done := true })))

/-- R134, whole. -/
def Obligations.FinvInvertsModuloP : Prop :=
  ∀ (fd fa : FReg) (s : State),
    decode (BitVec.ofNat 32 (0x14 + fd.val * 2 ^ 8 + fa.val * 2 ^ 12)) = .ok (.finv fd fa) ∧
    (s.curve.p.toNat < 2 → exec (.finv fd fa) s = .next { s with err := 6, errcmd := s.cmdr, st := .fault }) ∧
    (2 ≤ s.curve.p.toNat →
      (s.curve.p.toNat ≤ s.f[fa].toNat →
        exec (.finv fd fa) s = .next { s with err := 5, errcmd := s.cmdr, st := .fault }) ∧
      (s.f[fa].toNat < s.curve.p.toNat →
        (Nat.gcd s.f[fa].toNat s.curve.p.toNat ≠ 1 →
          exec (.finv fd fa) s = .next { s with err := 4, errcmd := s.cmdr, st := .fault }) ∧
        (Nat.gcd s.f[fa].toNat s.curve.p.toNat = 1 →
          ∃ v, v < s.curve.p.toNat ∧ s.f[fa].toNat * v % s.curve.p.toNat = 1 ∧
            exec (.finv fd fa) s = .next { s with
              f := s.f.set fd (BitVec.ofNat 256 v), st := .idle, done := true })))

/-- R135, whole: the exponent is any 256-bit value. -/
def Obligations.FpowRaisesModuloP : Prop :=
  ∀ (fd fa fe : FReg) (s : State),
    decode (BitVec.ofNat 32 (0x15 + fd.val * 2 ^ 8 + fa.val * 2 ^ 12 + fe.val * 2 ^ 16)) = .ok (.fpow fd fa fe) ∧
    (s.curve.p.toNat < 2 → exec (.fpow fd fa fe) s = .next { s with err := 6, errcmd := s.cmdr, st := .fault }) ∧
    (2 ≤ s.curve.p.toNat →
      (s.curve.p.toNat ≤ s.f[fa].toNat →
        exec (.fpow fd fa fe) s = .next { s with err := 5, errcmd := s.cmdr, st := .fault }) ∧
      (s.f[fa].toNat < s.curve.p.toNat →
        exec (.fpow fd fa fe) s = .next { s with
          f := s.f.set fd (BitVec.ofNat 256 (s.f[fa].toNat ^ s.f[fe].toNat % s.curve.p.toNat)), st := .idle, done := true }))

/-- The frame of the six field commands (R40, R214, R215): everything but `F[fd]`, `ST`, `DONE` (on a commit) and `ERR`, `ERRCMD`, `ST` (on a
fault) is unchanged, and so is every word a host can read outside `STATUS`, `ERR`, `ERRCMD` and the 32 bytes of `F[fd]`. -/
def Obligations.FieldCommandFrame : Prop :=
  ∀ (i : Instr) (d : FReg) (s t : State), fieldDestination i = some d → exec i s = .next t →
    t.curve = s.curve ∧ t.q = s.q ∧ (∀ k : FReg, k ≠ d → readF t k = readF s k) ∧
    t.ieDone = s.ieDone ∧ t.ieFault = s.ieFault ∧ t.cmdr = s.cmdr ∧
    t.loop = s.loop ∧ t.left = s.left ∧ t.lats = s.lats ∧ t.fresh = s.fresh ∧ t.host = s.host ∧ t.got = s.got ∧
    (t.st = .idle → t.done = true ∧ t.err = s.err ∧ t.errcmd = s.errcmd) ∧
    (t.st ≠ .idle → t.st = .fault ∧ t.f = s.f ∧ t.done = s.done) ∧
    (∀ a : Addr, a ≠ 0x004 → a ≠ 0x008 → a ≠ 0x00C →
      (a.toNat < 0x100 + 0x20 * d.val ∨ 0x120 + 0x20 * d.val ≤ a.toNat) → memRead t a = memRead s a)

/-! ### The point unit -/

/-- R152, whole: the encoding, the faults in their order, and the committed record. -/
def Obligations.PnewBuildsACheckedPoint : Prop :=
  ∀ (qd : QReg) (fx fy : FReg) (s : State),
    decode (BitVec.ofNat 32 (0x20 + qd.val * 2 ^ 8 + fx.val * 2 ^ 12 + fy.val * 2 ^ 16)) = .ok (.pnew qd fx fy) ∧
    (s.curve.p.toNat < 2 → exec (.pnew qd fx fy) s = .next { s with err := 6, errcmd := s.cmdr, st := .fault }) ∧
    (2 ≤ s.curve.p.toNat →
      (s.curve.p.toNat ≤ s.curve.a.toNat ∨ s.curve.p.toNat ≤ s.curve.b.toNat ∨
          s.curve.p.toNat ≤ s.f[fx].toNat ∨ s.curve.p.toNat ≤ s.f[fy].toNat →
        exec (.pnew qd fx fy) s = .next { s with err := 5, errcmd := s.cmdr, st := .fault }) ∧
      (s.curve.a.toNat < s.curve.p.toNat → s.curve.b.toNat < s.curve.p.toNat →
        s.f[fx].toNat < s.curve.p.toNat → s.f[fy].toNat < s.curve.p.toNat →
        (¬(s.f[fy].toNat * s.f[fy].toNat ≡ s.f[fx].toNat ^ 3 + s.curve.a.toNat * s.f[fx].toNat + s.curve.b.toNat
            [MOD s.curve.p.toNat]) →
          exec (.pnew qd fx fy) s = .next { s with err := 1, errcmd := s.cmdr, st := .fault }) ∧
        (s.f[fy].toNat * s.f[fy].toNat ≡ s.f[fx].toNat ^ 3 + s.curve.a.toNat * s.f[fx].toNat + s.curve.b.toNat
            [MOD s.curve.p.toNat] →
          exec (.pnew qd fx fy) s = .next { s with
            q := s.q.set qd ⟨true, false, s.f[fx], s.f[fy], s.curve.a, s.curve.b, s.curve.p⟩, st := .idle, done := true })))

/-- R153, whole. -/
def Obligations.PinfBuildsTheIdentity : Prop :=
  ∀ (qd : QReg) (s : State),
    decode (BitVec.ofNat 32 (0x21 + qd.val * 2 ^ 8)) = .ok (.pinf qd) ∧
    (s.curve.p.toNat < 2 → exec (.pinf qd) s = .next { s with err := 6, errcmd := s.cmdr, st := .fault }) ∧
    (2 ≤ s.curve.p.toNat →
      (s.curve.p.toNat ≤ s.curve.a.toNat ∨ s.curve.p.toNat ≤ s.curve.b.toNat →
        exec (.pinf qd) s = .next { s with err := 5, errcmd := s.cmdr, st := .fault }) ∧
      (s.curve.a.toNat < s.curve.p.toNat → s.curve.b.toNat < s.curve.p.toNat →
        exec (.pinf qd) s = .next { s with
          q := s.q.set qd ⟨true, true, 0, 0, s.curve.a, s.curve.b, s.curve.p⟩, st := .idle, done := true }))

/-- R161, R202, R207, R211: `PADD` faults with `UninitPoint` where a source holds no point, before anything else; then with
`CurveMismatch` where the sources' curves differ, whatever the sources are. -/
def Obligations.PaddChecksPointsThenCurves : Prop :=
  ∀ (qd qa qb : QReg) (s : State),
    (s.q[qa].v = false ∨ s.q[qb].v = false →
      exec (.padd qd qa qb) s = .next { s with err := 7, errcmd := s.cmdr, st := .fault }) ∧
    (s.q[qa].v = true → s.q[qb].v = true → ¬OneCurve s.q[qa] s.q[qb] →
      exec (.padd qd qa qb) s = .next { s with err := 2, errcmd := s.cmdr, st := .fault })

/-- R156: cases 1, 2 and 3 of the group law; the result is the identity, or the other source in all seven fields. -/
def Obligations.PaddIdentityIsNeutral : Prop :=
  ∀ (qd qa qb : QReg) (s : State), s.q[qa].v = true → s.q[qb].v = true → OneCurve s.q[qa] s.q[qb] →
    (s.q[qa].inf = true → s.q[qb].inf = true → exec (.padd qd qa qb) s = .next { s with
      q := s.q.set qd ⟨true, true, 0, 0, s.q[qa].ca, s.q[qa].cb, s.q[qa].cp⟩, st := .idle, done := true }) ∧
    (s.q[qa].inf = true → s.q[qb].inf = false → exec (.padd qd qa qb) s = .next { s with
      q := s.q.set qd s.q[qb], st := .idle, done := true }) ∧
    (s.q[qa].inf = false → s.q[qb].inf = true → exec (.padd qd qa qb) s = .next { s with
      q := s.q.set qd s.q[qa], st := .idle, done := true })

/-- R159 (case 6) and the vertical tangent of R158 (case 5 with `y1 = 0`): the identity on the sources' curve, with no division. -/
def Obligations.PaddInverseAndVerticalGiveIdentity : Prop :=
  ∀ (qd qa qb : QReg) (s : State), s.q[qa].v = true → s.q[qb].v = true → OneCurve s.q[qa] s.q[qb] →
    s.q[qa].inf = false → s.q[qb].inf = false → s.q[qa].x = s.q[qb].x →
    (s.q[qa].y ≠ s.q[qb].y ∨ (s.q[qa].y = s.q[qb].y ∧ s.q[qa].y = 0)) →
    exec (.padd qd qa qb) s = .next { s with
      q := s.q.set qd ⟨true, true, 0, 0, s.q[qa].ca, s.q[qa].cb, s.q[qa].cp⟩, st := .idle, done := true }

/-- R157 (case 4, chord), with R160: for two valid points with different `x`, `NonInvertibleDivisor` where `x2 − x1` has no inverse; else
the commit of the point with `s·(x2 − x1) ≡ y2 − y1`, `x3 ≡ s² − x1 − x2`, `y3 ≡ s·(x1 − x3) − y1`. That the re-validation passes is part of
the statement; the spec marks that fact as general knowledge (R160, its item G3). -/
def Obligations.PaddChordIsTheThirdPoint : Prop :=
  ∀ (qd qa qb : QReg) (s : State), PointValid s.q[qa] → PointValid s.q[qb] → OneCurve s.q[qa] s.q[qb] →
    s.q[qa].inf = false → s.q[qb].inf = false → s.q[qa].x ≠ s.q[qb].x →
    let p := s.q[qa].cp.toNat
    let x1 := (s.q[qa].x.toNat : Int)
    let y1 := (s.q[qa].y.toNat : Int)
    let x2 := (s.q[qb].x.toNat : Int)
    let y2 := (s.q[qb].y.toNat : Int)
    (Int.gcd (x2 - x1) p ≠ 1 →
      exec (.padd qd qa qb) s = .next { s with err := 4, errcmd := s.cmdr, st := .fault }) ∧
    (Int.gcd (x2 - x1) p = 1 →
      ∃ (sl : Int) (x3 y3 : Nat), x3 < p ∧ y3 < p ∧ sl * (x2 - x1) ≡ y2 - y1 [ZMOD p] ∧
        (x3 : Int) ≡ sl ^ 2 - x1 - x2 [ZMOD p] ∧ (y3 : Int) ≡ sl * (x1 - x3) - y1 [ZMOD p] ∧
        exec (.padd qd qa qb) s = .next { s with
          q := s.q.set qd ⟨true, false, BitVec.ofNat 256 x3, BitVec.ofNat 256 y3, s.q[qa].ca, s.q[qa].cb, s.q[qa].cp⟩,
          st := .idle, done := true })

/-- R158 (case 5, tangent, `y1 ≠ 0`), with R160: for a valid point added to itself, `NonInvertibleDivisor` where `2·y1` has no inverse; else
the commit of the point with `s·2·y1 ≡ 3·x1² + a`, `x3 ≡ s² − 2·x1`, `y3 ≡ s·(x1 − x3) − y1`. That the re-validation passes is part of
the statement; the spec marks that fact as general knowledge (R160, its item G3). -/
def Obligations.PaddTangentIsTheThirdPoint : Prop :=
  ∀ (qd qa qb : QReg) (s : State), PointValid s.q[qa] → s.q[qa] = s.q[qb] → s.q[qa].inf = false → s.q[qa].y ≠ 0 →
    let p := s.q[qa].cp.toNat
    let a := (s.q[qa].ca.toNat : Int)
    let x1 := (s.q[qa].x.toNat : Int)
    let y1 := (s.q[qa].y.toNat : Int)
    (Int.gcd (2 * y1) p ≠ 1 →
      exec (.padd qd qa qb) s = .next { s with err := 4, errcmd := s.cmdr, st := .fault }) ∧
    (Int.gcd (2 * y1) p = 1 →
      ∃ (sl : Int) (x3 y3 : Nat), x3 < p ∧ y3 < p ∧ sl * (2 * y1) ≡ 3 * x1 ^ 2 + a [ZMOD p] ∧
        (x3 : Int) ≡ sl ^ 2 - 2 * x1 [ZMOD p] ∧ (y3 : Int) ≡ sl * (x1 - x3) - y1 [ZMOD p] ∧
        exec (.padd qd qa qb) s = .next { s with
          q := s.q.set qd ⟨true, false, BitVec.ofNat 256 x3, BitVec.ofNat 256 y3, s.q[qa].ca, s.q[qa].cb, s.q[qa].cp⟩,
          st := .idle, done := true })

/-- R160 (the spec marks the claim as general knowledge): on two valid points the re-validation inside `Add` never fails, whatever the
modulus. -/
def Obligations.RevalidationNeverFails : Prop :=
  ∀ A B : PointRec, PointValid A → PointValid B → addPoints A B ≠ .error .invalidPoint

/-- R165, R162 (derived by the spec): on a prime modulus above 2, `Add` on two valid points of one curve never faults, and its result is a
valid point of that curve. -/
def Obligations.AddNeverFaultsOnAnOddPrime : Prop :=
  ∀ A B : PointRec, PointValid A → PointValid B → OneCurve A B → OddPrime A →
    ∃ R, addPoints A B = .ok R ∧ PointValid R ∧ OneCurve R A

/-- R164: `Add` commutes: on valid points over any modulus it faults both ways or neither, with one code, and under `PrimeModulus` (which U3
asks every claim about results to take) the results are equal records. -/
def Obligations.AddCommutes : Prop :=
  ∀ A B : PointRec, PointValid A → PointValid B →
    (∀ c, addPoints A B = .error c ↔ addPoints B A = .error c) ∧
    (Nat.Prime A.cp.toNat → addPoints A B = addPoints B A)

/-- R164: `Add` is associative on valid points of one curve over a prime modulus above 2; the curve is not singular (U23). -/
def Obligations.AddIsAssociative : Prop :=
  ∀ A B C : PointRec, PointValid A → PointValid B → PointValid C → OneCurve A B → OneCurve B C → OddPrime A → NonSingular A →
    ∃ AB BC R, addPoints A B = .ok AB ∧ addPoints B C = .ok BC ∧ addPoints AB C = .ok R ∧ addPoints A BC = .ok R

/-- The frame of the four commands that write a point register (R40, R214, R215): everything but `Q[qd]`, `ST`, `DONE` (on a commit) and `ERR`,
`ERRCMD`, `ST` (on a fault) is unchanged (and, for `SMUL` alone, the hidden loop registers with the counter of free values), and so is every
word a host can read outside `STATUS`, `ERR`, `ERRCMD` and the words of `Q[qd]`. -/
def Obligations.PointCommandFrame : Prop :=
  ∀ (i : Instr) (d : QReg) (s t : State), pointDestination i = some d → exec i s = .next t →
    t.curve = s.curve ∧ t.f = s.f ∧ (∀ k : QReg, k ≠ d → readQ t k = readQ s k) ∧
    t.ieDone = s.ieDone ∧ t.ieFault = s.ieFault ∧ t.cmdr = s.cmdr ∧
    t.left = s.left ∧ t.lats = s.lats ∧ t.host = s.host ∧ t.got = s.got ∧
    ((∃ qd qa fk, i = .smul qd qa fk) ∨ (t.loop = s.loop ∧ t.fresh = s.fresh)) ∧
    (t.st = .idle → t.done = true ∧ t.err = s.err ∧ t.errcmd = s.errcmd) ∧
    (t.st ≠ .idle → t.st = .fault ∧ t.q = s.q ∧ t.done = s.done) ∧
    (∀ a : Addr, a ≠ 0x004 → a ≠ 0x008 → a ≠ 0x00C →
      (a.toNat < 0x200 + 0x100 * d.val ∨ 0x300 + 0x100 * d.val ≤ a.toNat) → memRead t a = memRead s a)

/-! ### The scalar unit -/

/-- R180, R181, R188, whole: `SMUL` commits or faults exactly as the document's double-and-add loop ends, from the identity on the source's
curve; with no point in the source it faults with `UninitPoint` before anything else. -/
def Obligations.SmulIsDoubleAndAdd : Prop :=
  ∀ (qd qa : QReg) (fk : FReg) (s : State),
    decode (BitVec.ofNat 32 (0x30 + qd.val * 2 ^ 8 + qa.val * 2 ^ 12 + fk.val * 2 ^ 16)) = .ok (.smul qd qa fk) ∧
    (s.q[qa].v = false → exec (.smul qd qa fk) s = .next { s with err := 7, errcmd := s.cmdr, st := .fault }) ∧
    (s.q[qa].v = true → ∀ out,
      DoubleAndAdd s.f[fk].toNat ⟨true, true, 0, 0, s.q[qa].ca, s.q[qa].cb, s.q[qa].cp⟩ s.q[qa] out →
      ∃ l n, exec (.smul qd qa fk) s = .next (match out with
        | .ok R => { s with q := s.q.set qd R, st := .idle, done := true, loop := l, fresh := n }
        | .error c => { s with err := faultNumber c, errcmd := s.cmdr, st := .fault, loop := l, fresh := n })) ∧
    ∃ out, DoubleAndAdd s.f[fk].toNat ⟨true, true, 0, 0, s.q[qa].ca, s.q[qa].cb, s.q[qa].cp⟩ s.q[qa] out

/-- R182: `SMUL` with scalar 0, or of the identity with any scalar, commits the identity on the source's curve; on a prime modulus above
2, `SMUL` of a valid point with scalar 1 commits that point. -/
def Obligations.SmulOfZeroOneAndIdentity : Prop :=
  ∀ (qd qa : QReg) (fk : FReg) (s : State), s.q[qa].v = true →
    (s.f[fk] = 0 ∨ s.q[qa].inf = true → ∃ l n, exec (.smul qd qa fk) s = .next { s with
      q := s.q.set qd ⟨true, true, 0, 0, s.q[qa].ca, s.q[qa].cb, s.q[qa].cp⟩,
      st := .idle, done := true, loop := l, fresh := n }) ∧
    (s.f[fk] = 1 → PointValid s.q[qa] → OddPrime s.q[qa] → ∃ l n, exec (.smul qd qa fk) s = .next { s with
      q := s.q.set qd s.q[qa], st := .idle, done := true, loop := l, fresh := n })

/-- R183, R186: the loop of `SMUL` runs exactly `bitlen(k)` iterations: it equals that many unconditional ones, before the last of which
`KSH` is not yet 0 and after the last of which it is. -/
def Obligations.SmulRunsBitlenIterations : Prop :=
  ∀ (P : PointRec) (k : Wide),
    loopRun 256 (loopStart P k) = iterations (bitlen k.toNat) (loopStart P k) ∧
    bitlen k.toNat ≤ 256 ∧
    (∀ n l, iterations n (loopStart P k) = .ok l → (l.ksh = 0 ↔ bitlen k.toNat ≤ n))

/-- R188, R182: on a prime modulus above 2, `SMUL` of a valid point never faults and commits a valid point of the source's curve. -/
def Obligations.SmulCommitsOnAnOddPrime : Prop :=
  ∀ (qd qa : QReg) (fk : FReg) (s : State), PointValid s.q[qa] → OddPrime s.q[qa] →
    ∃ R l n, PointValid R ∧ OneCurve R s.q[qa] ∧
      exec (.smul qd qa fk) s = .next { s with q := s.q.set qd R, st := .idle, done := true, loop := l, fresh := n }

/-- R182 (the spec marks the claim as general knowledge): on a non-singular curve over a prime modulus above 2, `SMUL` commits the group
element `P + P + … + P`, `k` terms. -/
def Obligations.SmulIsRepeatedAddition : Prop :=
  ∀ (qd qa : QReg) (fk : FReg) (s : State), PointValid s.q[qa] → OddPrime s.q[qa] → NonSingular s.q[qa] →
    ∃ R l n, multiple s.q[qa] s.f[fk].toNat = .ok R ∧
      exec (.smul qd qa fk) s = .next { s with q := s.q.set qd R, st := .idle, done := true, loop := l, fresh := n }
end

