-- ==== Sys2Proof/Laws/Arith.lean ====
section
/-! SUPPORT. The field functions answer residues in `[0, p)` (`40_field.md` R120, R137), and how the subtraction of R123 reads as an
integer remainder. -/

namespace Sys2Proof.Laws

open Sys2Proof.Machine

theorem fadd_lt {a b p : Nat} (hp : 0 < p) : fadd a b p < p := Nat.mod_lt _ hp

theorem fmul_lt {a b p : Nat} (hp : 0 < p) : fmul a b p < p := Nat.mod_lt _ hp

theorem fsub_lt {a b p : Nat} (ha : a < p) (hb : b < p) : fsub a b p < p := by
  unfold fsub; split <;> omega

/-- `fsub(a, b, p)` is congruent to `a − b` (R123). -/
theorem fsub_cast {a b p : Nat} (hb : b < p) : ((fsub a b p : Nat) : ZMod p) = (a : ZMod p) - (b : ZMod p) := by
  unfold fsub
  split
  · rename_i h; rw [Nat.cast_sub h]
  · rw [Nat.cast_sub (by omega), Nat.cast_add, ZMod.natCast_self, add_zero]

theorem fadd_cast (a b p : Nat) : ((fadd a b p : Nat) : ZMod p) = (a : ZMod p) + (b : ZMod p) := by
  simp [fadd]

theorem fmul_cast (a b p : Nat) : ((fmul a b p : Nat) : ZMod p) = (a : ZMod p) * (b : ZMod p) := by
  simp [fmul]

/-- `fsub(a, b, p)` is the remainder of the integer `a − b` (R123). -/
theorem fsub_eq_emod {a b p : Nat} (ha : a < p) (hb : b < p) : ((fsub a b p : Nat) : Int) = ((a : Int) - b) % p := by
  unfold fsub
  split
  · rw [Int.emod_eq_of_lt (by omega) (by omega)]; omega
  · rw [← Int.add_emod_right, Int.emod_eq_of_lt (by omega) (by omega)]; omega

/-- A division answers a product with what `finv` answers, or what `finv` faults with (R126). -/
theorem fdiv_cases (a b p : Nat) :
    (∃ v, finv b p = .ok v ∧ fdiv a b p = .ok (fmul a v p)) ∨
    (∃ c, finv b p = .error c ∧ fdiv a b p = .error c) := by
  unfold fdiv
  cases h : finv b p with
  | ok v => exact .inl ⟨v, rfl, rfl⟩
  | error c => exact .inr ⟨c, rfl, rfl⟩

/-- The only fault of `finv` is `NonInvertibleDivisor` (R127). -/
theorem finv_error {b p : Nat} {c : FaultCode} (h : finv b p = .error c) : c = .nonInvertibleDivisor := by
  unfold finv at h
  split at h
  split at h
  · cases h
  · cases h; rfl

/-- The only fault of `fdiv` is `NonInvertibleDivisor` (R126). -/
theorem fdiv_error {a b p : Nat} {c : FaultCode} (h : fdiv a b p = .error c) : c = .nonInvertibleDivisor := by
  obtain ⟨v, _, h'⟩ | ⟨c', hc, h'⟩ := fdiv_cases a b p
  · rw [h'] at h; cases h
  · rw [h'] at h; cases h; exact finv_error hc

end Sys2Proof.Laws
end

