-- ==== Sys2Proof/Laws/Curves.lean ====
section
/-! SUPPORT. What the point functions can answer: one lemma each, cited instead of unfolding (`41_point.md` R151, R155 to R160). -/

namespace Sys2Proof.Laws

open Sys2Proof.Machine

@[simp] theorem infPoint_v (a b p : Nat) : (infPoint a b p).v = true := rfl
@[simp] theorem infPoint_inf (a b p : Nat) : (infPoint a b p).inf = true := rfl
@[simp] theorem affPoint_v (x y a b p : Nat) : (affPoint x y a b p).v = true := rfl
@[simp] theorem affPoint_inf (x y a b p : Nat) : (affPoint x y a b p).inf = false := rfl

/-- `Inf(curve(P))` keeps the curve of `P`, bit for bit. -/
theorem infOn_eq (P : PointRec) : infOn P = ⟨true, true, 0, 0, P.ca, P.cb, P.cp⟩ := by
  simp [infOn, infPoint]

/-- `PointNew` of an affine point: that point where it is on the curve, else `InvalidPoint` (R151). -/
theorem pointNew_affine_cases (x y a b p : Nat) :
    (onCurve x y a b p = true ∧ pointNew (.affine x y) a b p = .ok (affPoint x y a b p)) ∨
    (onCurve x y a b p = false ∧ pointNew (.affine x y) a b p = .error .invalidPoint) := by
  unfold pointNew
  cases h : onCurve x y a b p <;> simp [h]

/-- A chord answers a finite point of the curve with coordinates that are residues, or faults with `NonInvertibleDivisor` or
`InvalidPoint` (R157, R160). -/
theorem lineResult_cases {sl x1 y1 x2 a b p : Nat} (h1 : x1 < p) (h2 : x2 < p) (hy : y1 < p) :
    (∃ x y, x < p ∧ y < p ∧ onCurve x y a b p = true ∧ lineResult sl x1 y1 x2 a b p = .ok (affPoint x y a b p)) ∨
    lineResult sl x1 y1 x2 a b p = .error .invalidPoint := by
  have hp : 0 < p := by omega
  unfold lineResult
  dsimp only
  obtain ⟨hon, he⟩ | ⟨_, he⟩ := pointNew_affine_cases
    (fsub (fsub (fmul sl sl p) x1 p) x2 p)
    (fsub (fmul sl (fsub x1 (fsub (fsub (fmul sl sl p) x1 p) x2 p) p) p) y1 p) a b p
  · exact .inl ⟨_, _, fsub_lt (fsub_lt (fmul_lt hp) h1) h2, fsub_lt (fmul_lt hp) hy, hon, he⟩
  · exact .inr he

theorem chord_cases {x1 y1 x2 y2 a b p : Nat} (h1 : x1 < p) (h2 : x2 < p) (hy : y1 < p) :
    (∃ x y, x < p ∧ y < p ∧ onCurve x y a b p = true ∧ chord x1 y1 x2 y2 a b p = .ok (affPoint x y a b p)) ∨
    chord x1 y1 x2 y2 a b p = .error .nonInvertibleDivisor ∨ chord x1 y1 x2 y2 a b p = .error .invalidPoint := by
  unfold chord
  cases hd : fdiv (fsub y2 y1 p) (fsub x2 x1 p) p with
  | error c => right; left; rw [fdiv_error hd]
  | ok sl =>
    obtain h | h := lineResult_cases (sl := sl) (a := a) (b := b) h1 h2 hy
    · exact .inl h
    · exact .inr (.inr h)

theorem tangent_cases {x1 y1 a b p : Nat} (h1 : x1 < p) (hy : y1 < p) :
    (y1 = 0 ∧ tangent x1 y1 a b p = .ok (infPoint a b p)) ∨
    (∃ x y, x < p ∧ y < p ∧ onCurve x y a b p = true ∧ tangent x1 y1 a b p = .ok (affPoint x y a b p)) ∨
    tangent x1 y1 a b p = .error .nonInvertibleDivisor ∨ tangent x1 y1 a b p = .error .invalidPoint := by
  unfold tangent
  by_cases h0 : y1 = 0
  · left; simp [h0]
  · right
    rw [if_neg h0]
    cases hd : fdiv (fadd (fmul (3 % p) (fmul x1 x1 p) p) a p) (fmul (2 % p) y1 p) p with
    | error c => right; left; rw [fdiv_error hd]
    | ok sl =>
      obtain h | h := lineResult_cases (sl := sl) (a := a) (b := b) h1 h1 hy
      · exact .inl h
      · exact .inr (.inr h)

theorem sameCurve_iff (A B : PointRec) : sameCurve A B = true ↔ A.ca = B.ca ∧ A.cb = B.cb ∧ A.cp = B.cp := by
  simp [sameCurve, and_assoc]

/-- The six cases of `Add`, by their conditions, and the fault before them (R155). -/
theorem addPoints_cases (A B : PointRec) :
    (sameCurve A B = false ∧ addPoints A B = .error .curveMismatch) ∨
    (sameCurve A B = true ∧
      ((A.inf = true ∧ B.inf = true ∧ addPoints A B = .ok (infOn A)) ∨
       (A.inf = true ∧ B.inf = false ∧ addPoints A B = .ok B) ∨
       (A.inf = false ∧ B.inf = true ∧ addPoints A B = .ok A) ∨
       (A.inf = false ∧ B.inf = false ∧ A.x ≠ B.x ∧ addPoints A B =
          chord A.x.toNat A.y.toNat B.x.toNat B.y.toNat A.ca.toNat A.cb.toNat A.cp.toNat) ∨
       (A.inf = false ∧ B.inf = false ∧ A.x = B.x ∧ A.y = B.y ∧ addPoints A B =
          tangent A.x.toNat A.y.toNat A.ca.toNat A.cb.toNat A.cp.toNat) ∨
       (A.inf = false ∧ B.inf = false ∧ A.x = B.x ∧ A.y ≠ B.y ∧ addPoints A B = .ok (infOn A)))) := by
  unfold addPoints
  cases hc : sameCurve A B
  · simp
  · cases hA : A.inf <;> cases hB : B.inf <;> simp
    by_cases hx : A.x = B.x <;> by_cases hy : A.y = B.y <;> simp [hx, hy]

/-- A line's third point is on the curve it was given (R151, R160). -/
theorem lineResult_curve {sl x1 y1 x2 a b p : Nat} {R : PointRec} (h : lineResult sl x1 y1 x2 a b p = .ok R) :
    R.v = true ∧ R.ca = BitVec.ofNat 256 a ∧ R.cb = BitVec.ofNat 256 b ∧ R.cp = BitVec.ofNat 256 p := by
  unfold lineResult pointNew at h
  dsimp only at h
  split at h
  · cases h; exact ⟨rfl, rfl, rfl, rfl⟩
  · cases h

/-- Every result of `Add` on two records that hold points holds a point of their curve (R162). -/
theorem addPoints_curve {A B R : PointRec} (hA : A.v = true) (hB : B.v = true) (h : addPoints A B = .ok R) :
    R.v = true ∧ R.ca = A.ca ∧ R.cb = A.cb ∧ R.cp = A.cp := by
  obtain ⟨_, e⟩ | ⟨hc, ⟨_, _, e⟩ | ⟨_, _, e⟩ | ⟨_, _, e⟩ | ⟨_, _, _, e⟩ | ⟨_, _, _, _, e⟩ | ⟨_, _, _, _, e⟩⟩ := addPoints_cases A B
  all_goals rw [e] at h
  · cases h
  · cases h; rw [infOn_eq]; exact ⟨rfl, rfl, rfl, rfl⟩
  · cases h
    obtain ⟨h1, h2, h3⟩ := (sameCurve_iff _ _).mp hc
    exact ⟨hB, h1.symm, h2.symm, h3.symm⟩
  · cases h; exact ⟨hA, rfl, rfl, rfl⟩
  · unfold chord at h
    split at h
    · cases h
    · simpa using lineResult_curve h
  · unfold tangent at h
    split at h
    · cases h; simp [infPoint]
    · split at h
      · cases h
      · simpa using lineResult_curve h
  · cases h; rw [infOn_eq]; exact ⟨rfl, rfl, rfl, rfl⟩

/-- One iteration of the loop: both `Add` calls answer, or the first that faults ends it (R180, R188). -/
theorem loopIterate_cases (l : LoopRegs) :
    (∃ acc cur, (if l.ksh.getLsbD 0 then addPoints l.acc l.cur else .ok l.acc) = .ok acc ∧
      addPoints l.cur l.cur = .ok cur ∧ loopIterate l = .ok ⟨acc, cur, l.ksh >>> 1⟩) ∨
    (∃ c, (if l.ksh.getLsbD 0 then addPoints l.acc l.cur else .ok l.acc) = .error c ∧ loopIterate l = .error c) ∨
    (∃ acc c, (if l.ksh.getLsbD 0 then addPoints l.acc l.cur else .ok l.acc) = .ok acc ∧
      addPoints l.cur l.cur = .error c ∧ loopIterate l = .error c) := by
  unfold loopIterate
  cases h : (if l.ksh.getLsbD 0 then addPoints l.acc l.cur else Except.ok l.acc) with
  | error c => exact .inr (.inl ⟨c, rfl, rfl⟩)
  | ok acc =>
    cases h' : addPoints l.cur l.cur with
    | error c => exact .inr (.inr ⟨acc, c, rfl, rfl, rfl⟩)
    | ok cur => exact .inl ⟨acc, cur, rfl, rfl, rfl⟩

theorem loopRun_zero_ksh (n : Nat) {l : LoopRegs} (h : l.ksh = 0) : loopRun n l = .ok l := by
  cases n <;> simp [loopRun, h]

theorem loopRun_succ (n : Nat) {l : LoopRegs} (h : l.ksh ≠ 0) :
    loopRun (n + 1) l = match loopIterate l with | .error c => .error c | .ok l' => loopRun n l' := by
  exact if_neg h

/-- The loop of `SMUL` stays on the curve of its records (R188). -/
theorem loopRun_curve {n : Nat} {l r : LoopRegs} (ha : l.acc.v = true) (hc : l.cur.v = true) (h : loopRun n l = .ok r) :
    r.acc.v = true ∧ r.acc.ca = l.acc.ca ∧ r.acc.cb = l.acc.cb ∧ r.acc.cp = l.acc.cp := by
  induction n generalizing l with
  | zero => cases h; exact ⟨ha, rfl, rfl, rfl⟩
  | succ n ih =>
    by_cases hk : l.ksh = 0
    · rw [loopRun_zero_ksh _ hk] at h; cases h; exact ⟨ha, rfl, rfl, rfl⟩
    · rw [loopRun_succ n hk] at h
      obtain ⟨acc, cur, e1, e2, e⟩ | ⟨_, _, e⟩ | ⟨_, _, _, _, e⟩ := loopIterate_cases l
      · rw [e] at h
        have hacc : acc.v = true ∧ acc.ca = l.acc.ca ∧ acc.cb = l.acc.cb ∧ acc.cp = l.acc.cp := by
          split at e1
          · exact addPoints_curve ha hc e1
          · cases e1; exact ⟨ha, rfl, rfl, rfl⟩
        obtain ⟨h1, h2, h3, h4⟩ := ih hacc.1 (addPoints_curve hc hc e2).1 h
        exact ⟨h1, h2.trans hacc.2.1, h3.trans hacc.2.2.1, h4.trans hacc.2.2.2⟩
      · rw [e] at h; cases h
      · rw [e] at h; cases h

end Sys2Proof.Laws
end

