-- ==== Sys2Proof/Laws/State.lean ====
section
/-! SUPPORT. What each field is after each named operation on the state: one lemma per field per operation, so that no later proof
unfolds a record update. Then the read-after-write laws of the register files. -/

namespace Sys2Proof.Laws

open Sys2Proof.Machine

@[simp] theorem writeF_curve (s : State) (i : FReg) (v : Wide) : (writeF s i v).curve = s.curve := rfl
@[simp] theorem writeF_f (s : State) (i : FReg) (v : Wide) : (writeF s i v).f = s.f.set i v := rfl
@[simp] theorem writeF_q (s : State) (i : FReg) (v : Wide) : (writeF s i v).q = s.q := rfl
@[simp] theorem writeF_ieDone (s : State) (i : FReg) (v : Wide) : (writeF s i v).ieDone = s.ieDone := rfl
@[simp] theorem writeF_ieFault (s : State) (i : FReg) (v : Wide) : (writeF s i v).ieFault = s.ieFault := rfl
@[simp] theorem writeF_st (s : State) (i : FReg) (v : Wide) : (writeF s i v).st = s.st := rfl
@[simp] theorem writeF_done (s : State) (i : FReg) (v : Wide) : (writeF s i v).done = s.done := rfl
@[simp] theorem writeF_err (s : State) (i : FReg) (v : Wide) : (writeF s i v).err = s.err := rfl
@[simp] theorem writeF_errcmd (s : State) (i : FReg) (v : Wide) : (writeF s i v).errcmd = s.errcmd := rfl
@[simp] theorem writeF_cmdr (s : State) (i : FReg) (v : Wide) : (writeF s i v).cmdr = s.cmdr := rfl
@[simp] theorem writeF_loop (s : State) (i : FReg) (v : Wide) : (writeF s i v).loop = s.loop := rfl
@[simp] theorem writeF_left (s : State) (i : FReg) (v : Wide) : (writeF s i v).left = s.left := rfl
@[simp] theorem writeF_lats (s : State) (i : FReg) (v : Wide) : (writeF s i v).lats = s.lats := rfl
@[simp] theorem writeF_fresh (s : State) (i : FReg) (v : Wide) : (writeF s i v).fresh = s.fresh := rfl
@[simp] theorem writeF_host (s : State) (i : FReg) (v : Wide) : (writeF s i v).host = s.host := rfl
@[simp] theorem writeF_got (s : State) (i : FReg) (v : Wide) : (writeF s i v).got = s.got := rfl

@[simp] theorem writeQ_curve (s : State) (j : QReg) (r : PointRec) : (writeQ s j r).curve = s.curve := rfl
@[simp] theorem writeQ_f (s : State) (j : QReg) (r : PointRec) : (writeQ s j r).f = s.f := rfl
@[simp] theorem writeQ_q (s : State) (j : QReg) (r : PointRec) : (writeQ s j r).q = s.q.set j r := rfl
@[simp] theorem writeQ_ieDone (s : State) (j : QReg) (r : PointRec) : (writeQ s j r).ieDone = s.ieDone := rfl
@[simp] theorem writeQ_ieFault (s : State) (j : QReg) (r : PointRec) : (writeQ s j r).ieFault = s.ieFault := rfl
@[simp] theorem writeQ_st (s : State) (j : QReg) (r : PointRec) : (writeQ s j r).st = s.st := rfl
@[simp] theorem writeQ_done (s : State) (j : QReg) (r : PointRec) : (writeQ s j r).done = s.done := rfl
@[simp] theorem writeQ_err (s : State) (j : QReg) (r : PointRec) : (writeQ s j r).err = s.err := rfl
@[simp] theorem writeQ_errcmd (s : State) (j : QReg) (r : PointRec) : (writeQ s j r).errcmd = s.errcmd := rfl
@[simp] theorem writeQ_cmdr (s : State) (j : QReg) (r : PointRec) : (writeQ s j r).cmdr = s.cmdr := rfl
@[simp] theorem writeQ_loop (s : State) (j : QReg) (r : PointRec) : (writeQ s j r).loop = s.loop := rfl
@[simp] theorem writeQ_left (s : State) (j : QReg) (r : PointRec) : (writeQ s j r).left = s.left := rfl
@[simp] theorem writeQ_lats (s : State) (j : QReg) (r : PointRec) : (writeQ s j r).lats = s.lats := rfl
@[simp] theorem writeQ_fresh (s : State) (j : QReg) (r : PointRec) : (writeQ s j r).fresh = s.fresh := rfl
@[simp] theorem writeQ_host (s : State) (j : QReg) (r : PointRec) : (writeQ s j r).host = s.host := rfl
@[simp] theorem writeQ_got (s : State) (j : QReg) (r : PointRec) : (writeQ s j r).got = s.got := rfl

@[simp] theorem commit_curve (s : State) : (commit s).curve = s.curve := rfl
@[simp] theorem commit_f (s : State) : (commit s).f = s.f := rfl
@[simp] theorem commit_q (s : State) : (commit s).q = s.q := rfl
@[simp] theorem commit_ieDone (s : State) : (commit s).ieDone = s.ieDone := rfl
@[simp] theorem commit_ieFault (s : State) : (commit s).ieFault = s.ieFault := rfl
@[simp] theorem commit_st (s : State) : (commit s).st = .idle := rfl
@[simp] theorem commit_done (s : State) : (commit s).done = true := rfl
@[simp] theorem commit_err (s : State) : (commit s).err = s.err := rfl
@[simp] theorem commit_errcmd (s : State) : (commit s).errcmd = s.errcmd := rfl
@[simp] theorem commit_cmdr (s : State) : (commit s).cmdr = s.cmdr := rfl
@[simp] theorem commit_loop (s : State) : (commit s).loop = s.loop := rfl
@[simp] theorem commit_left (s : State) : (commit s).left = s.left := rfl
@[simp] theorem commit_lats (s : State) : (commit s).lats = s.lats := rfl
@[simp] theorem commit_fresh (s : State) : (commit s).fresh = s.fresh := rfl
@[simp] theorem commit_host (s : State) : (commit s).host = s.host := rfl
@[simp] theorem commit_got (s : State) : (commit s).got = s.got := rfl

@[simp] theorem faultEntry_curve (c : FaultCode) (s : State) : (faultEntry c s).curve = s.curve := rfl
@[simp] theorem faultEntry_f (c : FaultCode) (s : State) : (faultEntry c s).f = s.f := rfl
@[simp] theorem faultEntry_q (c : FaultCode) (s : State) : (faultEntry c s).q = s.q := rfl
@[simp] theorem faultEntry_ieDone (c : FaultCode) (s : State) : (faultEntry c s).ieDone = s.ieDone := rfl
@[simp] theorem faultEntry_ieFault (c : FaultCode) (s : State) : (faultEntry c s).ieFault = s.ieFault := rfl
@[simp] theorem faultEntry_st (c : FaultCode) (s : State) : (faultEntry c s).st = .fault := rfl
@[simp] theorem faultEntry_done (c : FaultCode) (s : State) : (faultEntry c s).done = s.done := rfl
@[simp] theorem faultEntry_err (c : FaultCode) (s : State) : (faultEntry c s).err = faultNumber c := rfl
@[simp] theorem faultEntry_errcmd (c : FaultCode) (s : State) : (faultEntry c s).errcmd = s.cmdr := rfl
@[simp] theorem faultEntry_cmdr (c : FaultCode) (s : State) : (faultEntry c s).cmdr = s.cmdr := rfl
@[simp] theorem faultEntry_loop (c : FaultCode) (s : State) : (faultEntry c s).loop = s.loop := rfl
@[simp] theorem faultEntry_left (c : FaultCode) (s : State) : (faultEntry c s).left = s.left := rfl
@[simp] theorem faultEntry_lats (c : FaultCode) (s : State) : (faultEntry c s).lats = s.lats := rfl
@[simp] theorem faultEntry_fresh (c : FaultCode) (s : State) : (faultEntry c s).fresh = s.fresh := rfl
@[simp] theorem faultEntry_host (c : FaultCode) (s : State) : (faultEntry c s).host = s.host := rfl
@[simp] theorem faultEntry_got (c : FaultCode) (s : State) : (faultEntry c s).got = s.got := rfl

@[simp] theorem dropLoop_curve (s : State) : (dropLoop s).curve = s.curve := rfl
@[simp] theorem dropLoop_f (s : State) : (dropLoop s).f = s.f := rfl
@[simp] theorem dropLoop_q (s : State) : (dropLoop s).q = s.q := rfl
@[simp] theorem dropLoop_ieDone (s : State) : (dropLoop s).ieDone = s.ieDone := rfl
@[simp] theorem dropLoop_ieFault (s : State) : (dropLoop s).ieFault = s.ieFault := rfl
@[simp] theorem dropLoop_st (s : State) : (dropLoop s).st = s.st := rfl
@[simp] theorem dropLoop_done (s : State) : (dropLoop s).done = s.done := rfl
@[simp] theorem dropLoop_err (s : State) : (dropLoop s).err = s.err := rfl
@[simp] theorem dropLoop_errcmd (s : State) : (dropLoop s).errcmd = s.errcmd := rfl
@[simp] theorem dropLoop_cmdr (s : State) : (dropLoop s).cmdr = s.cmdr := rfl
@[simp] theorem dropLoop_loop (s : State) : (dropLoop s).loop = Config.freeLoop s.fresh := rfl
@[simp] theorem dropLoop_left (s : State) : (dropLoop s).left = s.left := rfl
@[simp] theorem dropLoop_lats (s : State) : (dropLoop s).lats = s.lats := rfl
@[simp] theorem dropLoop_fresh (s : State) : (dropLoop s).fresh = s.fresh + 1 := rfl
@[simp] theorem dropLoop_host (s : State) : (dropLoop s).host = s.host := rfl
@[simp] theorem dropLoop_got (s : State) : (dropLoop s).got = s.got := rfl

@[simp] theorem issue_curve (w : Word) (s : State) : (issue w s).curve = s.curve := rfl
@[simp] theorem issue_f (w : Word) (s : State) : (issue w s).f = s.f := rfl
@[simp] theorem issue_q (w : Word) (s : State) : (issue w s).q = s.q := rfl
@[simp] theorem issue_ieDone (w : Word) (s : State) : (issue w s).ieDone = s.ieDone := rfl
@[simp] theorem issue_ieFault (w : Word) (s : State) : (issue w s).ieFault = s.ieFault := rfl
@[simp] theorem issue_st (w : Word) (s : State) : (issue w s).st = .busy := rfl
@[simp] theorem issue_done (w : Word) (s : State) : (issue w s).done = false := rfl
@[simp] theorem issue_err (w : Word) (s : State) : (issue w s).err = s.err := rfl
@[simp] theorem issue_errcmd (w : Word) (s : State) : (issue w s).errcmd = s.errcmd := rfl
@[simp] theorem issue_cmdr (w : Word) (s : State) : (issue w s).cmdr = w := rfl
@[simp] theorem issue_loop (w : Word) (s : State) : (issue w s).loop = s.loop := rfl
@[simp] theorem issue_left (w : Word) (s : State) : (issue w s).left = s.lats.headD (Config.latency s.fresh w s.curve s.f s.q) := rfl
@[simp] theorem issue_lats (w : Word) (s : State) : (issue w s).lats = s.lats.tail := rfl
@[simp] theorem issue_fresh (w : Word) (s : State) : (issue w s).fresh = s.fresh + 1 := rfl
@[simp] theorem issue_host (w : Word) (s : State) : (issue w s).host = s.host := rfl
@[simp] theorem issue_got (w : Word) (s : State) : (issue w s).got = s.got := rfl

@[simp] theorem resetBlock_curve (s : State) : (resetBlock s).curve = State.reset.curve := rfl
@[simp] theorem resetBlock_f (s : State) : (resetBlock s).f = State.reset.f := rfl
@[simp] theorem resetBlock_q (s : State) : (resetBlock s).q = State.reset.q := rfl
@[simp] theorem resetBlock_ieDone (s : State) : (resetBlock s).ieDone = State.reset.ieDone := rfl
@[simp] theorem resetBlock_ieFault (s : State) : (resetBlock s).ieFault = State.reset.ieFault := rfl
@[simp] theorem resetBlock_st (s : State) : (resetBlock s).st = State.reset.st := rfl
@[simp] theorem resetBlock_done (s : State) : (resetBlock s).done = State.reset.done := rfl
@[simp] theorem resetBlock_err (s : State) : (resetBlock s).err = State.reset.err := rfl
@[simp] theorem resetBlock_errcmd (s : State) : (resetBlock s).errcmd = State.reset.errcmd := rfl
@[simp] theorem resetBlock_cmdr (s : State) : (resetBlock s).cmdr = State.reset.cmdr := rfl
@[simp] theorem resetBlock_loop (s : State) : (resetBlock s).loop = Config.freeLoop s.fresh := rfl
@[simp] theorem resetBlock_left (s : State) : (resetBlock s).left = State.reset.left := rfl
@[simp] theorem resetBlock_lats (s : State) : (resetBlock s).lats = s.lats := rfl
@[simp] theorem resetBlock_fresh (s : State) : (resetBlock s).fresh = s.fresh + 1 := rfl
@[simp] theorem resetBlock_host (s : State) : (resetBlock s).host = s.host := rfl
@[simp] theorem resetBlock_got (s : State) : (resetBlock s).got = s.got := rfl

@[simp] theorem smulStart_curve (P : PointRec) (k : Wide) (s : State) : (smulStart P k s).curve = s.curve := rfl
@[simp] theorem smulStart_f (P : PointRec) (k : Wide) (s : State) : (smulStart P k s).f = s.f := rfl
@[simp] theorem smulStart_q (P : PointRec) (k : Wide) (s : State) : (smulStart P k s).q = s.q := rfl
@[simp] theorem smulStart_ieDone (P : PointRec) (k : Wide) (s : State) : (smulStart P k s).ieDone = s.ieDone := rfl
@[simp] theorem smulStart_ieFault (P : PointRec) (k : Wide) (s : State) : (smulStart P k s).ieFault = s.ieFault := rfl
@[simp] theorem smulStart_st (P : PointRec) (k : Wide) (s : State) : (smulStart P k s).st = s.st := rfl
@[simp] theorem smulStart_done (P : PointRec) (k : Wide) (s : State) : (smulStart P k s).done = s.done := rfl
@[simp] theorem smulStart_err (P : PointRec) (k : Wide) (s : State) : (smulStart P k s).err = s.err := rfl
@[simp] theorem smulStart_errcmd (P : PointRec) (k : Wide) (s : State) : (smulStart P k s).errcmd = s.errcmd := rfl
@[simp] theorem smulStart_cmdr (P : PointRec) (k : Wide) (s : State) : (smulStart P k s).cmdr = s.cmdr := rfl
@[simp] theorem smulStart_loop (P : PointRec) (k : Wide) (s : State) : (smulStart P k s).loop = loopStart P k := rfl
@[simp] theorem smulStart_left (P : PointRec) (k : Wide) (s : State) : (smulStart P k s).left = s.left := rfl
@[simp] theorem smulStart_lats (P : PointRec) (k : Wide) (s : State) : (smulStart P k s).lats = s.lats := rfl
@[simp] theorem smulStart_fresh (P : PointRec) (k : Wide) (s : State) : (smulStart P k s).fresh = s.fresh := rfl
@[simp] theorem smulStart_host (P : PointRec) (k : Wide) (s : State) : (smulStart P k s).host = s.host := rfl
@[simp] theorem smulStart_got (P : PointRec) (k : Wide) (s : State) : (smulStart P k s).got = s.got := rfl

theorem readF_eq (s : State) (i : FReg) : readF s i = s.f[i.val] := rfl

theorem readQ_eq (s : State) (j : QReg) : readQ s j = s.q[j.val] := rfl

/-- Reading `F[k]` after writing `F[i]` (R23: no register is an alias of another). -/
@[simp] theorem readF_writeF (s : State) (i k : FReg) (v : Wide) :
    readF (writeF s i v) k = if i = k then v else readF s k := by
  simp only [readF_eq, writeF_f, Vector.getElem_set, Fin.ext_iff]

/-- Reading `Q[k]` after writing `Q[j]` (R26). -/
@[simp] theorem readQ_writeQ (s : State) (j k : QReg) (r : PointRec) :
    readQ (writeQ s j r) k = if j = k then r else readQ s k := by
  simp only [readQ_eq, writeQ_q, Vector.getElem_set, Fin.ext_iff]

@[simp] theorem readF_writeQ (s : State) (j : QReg) (r : PointRec) (i : FReg) : readF (writeQ s j r) i = readF s i := rfl

@[simp] theorem readQ_writeF (s : State) (i : FReg) (v : Wide) (j : QReg) : readQ (writeF s i v) j = readQ s j := rfl

@[simp] theorem readF_commit (s : State) (i : FReg) : readF (commit s) i = readF s i := rfl

@[simp] theorem readQ_commit (s : State) (j : QReg) : readQ (commit s) j = readQ s j := rfl

@[simp] theorem readF_faultEntry (c : FaultCode) (s : State) (i : FReg) : readF (faultEntry c s) i = readF s i := rfl

@[simp] theorem readQ_faultEntry (c : FaultCode) (s : State) (j : QReg) : readQ (faultEntry c s) j = readQ s j := rfl

@[simp] theorem readF_dropLoop (s : State) (i : FReg) : readF (dropLoop s) i = readF s i := rfl

@[simp] theorem readQ_dropLoop (s : State) (j : QReg) : readQ (dropLoop s) j = readQ s j := rfl

@[simp] theorem readF_issue (w : Word) (s : State) (i : FReg) : readF (issue w s) i = readF s i := rfl

@[simp] theorem readQ_issue (w : Word) (s : State) (j : QReg) : readQ (issue w s) j = readQ s j := rfl

/-- After a reset every `F` register is 0 (R48). -/
@[simp] theorem readF_resetBlock (s : State) (i : FReg) : readF (resetBlock s) i = 0 := by
  fin_cases i <;> rfl

/-- After a reset no point register holds a point (R48). -/
@[simp] theorem readQ_resetBlock (s : State) (j : QReg) : readQ (resetBlock s) j = emptyPoint := by
  fin_cases j <;> rfl

end Sys2Proof.Laws
end

