-- ==== Sys2Proof/Laws/Ops.lean ====
section
/-! SUPPORT. What the shared operations can do: how a command ends, what its operand tests raise, and what one edge of the clock can do
(`10_state.md` R39, R40; `40_field.md` R121; `60_exceptions.md` R214). -/

namespace Sys2Proof.Laws

open Sys2Proof.Machine

/-- A command with an `F` destination commits that register or takes a fault (R40, R214). -/
theorem finishF_cases (fd : FReg) (r : Except FaultCode Nat) (s : State) :
    (∃ v, r = .ok v ∧ finishF fd r s = .next (commit (writeF s fd (BitVec.ofNat 256 v)))) ∨
    (∃ c, r = .error c ∧ finishF fd r s = .next (faultEntry c s)) := by
  cases r with
  | ok v => exact .inl ⟨v, rfl, rfl⟩
  | error c => exact .inr ⟨c, rfl, rfl⟩

/-- A command with a `Q` destination commits that register or takes a fault (R40, R214). -/
theorem finishQ_cases (qd : QReg) (r : Except FaultCode PointRec) (s : State) :
    (∃ rec, r = .ok rec ∧ finishQ qd r s = .next (commit (writeQ s qd rec))) ∨
    (∃ c, r = .error c ∧ finishQ qd r s = .next (faultEntry c s)) := by
  cases r with
  | ok v => exact .inl ⟨v, rfl, rfl⟩
  | error c => exact .inr ⟨c, rfl, rfl⟩

/-- `FieldPre` (R121): the three ways it can go. -/
theorem withFieldPre_cases {α : Type} (p : Nat) (vs : List Nat) (r : Except FaultCode α) :
    (p < 2 ∧ withFieldPre p vs r = .error .badModulus) ∨
    (2 ≤ p ∧ (∃ v ∈ vs, p ≤ v) ∧ withFieldPre p vs r = .error .operandRange) ∨
    (2 ≤ p ∧ (∀ v ∈ vs, v < p) ∧ withFieldPre p vs r = r) := by
  unfold withFieldPre
  by_cases hp : p < 2
  · simp [hp]
  · right
    cases h : vs.any (p ≤ ·)
    · right
      refine ⟨by omega, fun v hv => ?_, by simp [hp]⟩
      have := List.any_eq_false.mp h v hv
      simpa using this
    · left
      obtain ⟨v, hv, h'⟩ := List.any_eq_true.mp h
      exact ⟨by omega, ⟨v, hv, by simpa using h'⟩, by simp [hp]⟩

/-- The test for points that are not there (R207). -/
theorem withPoints_cases {α : Type} (rs : List PointRec) (r : Except FaultCode α) :
    ((∃ P ∈ rs, P.v = false) ∧ withPoints rs r = .error .uninitPoint) ∨
    ((∀ P ∈ rs, P.v = true) ∧ withPoints rs r = r) := by
  unfold withPoints
  cases h : rs.any (!·.v)
  · right
    refine ⟨fun P hP => ?_, by simp⟩
    have := List.any_eq_false.mp h P hP
    simpa using this
  · left
    obtain ⟨P, hP, h'⟩ := List.any_eq_true.mp h
    exact ⟨⟨P, hP, by simpa using h'⟩, by simp⟩

/-- How `SMUL` ends: no point in the source, a fault in the loop, or a commit of `ACC` (R181, R186, R188). -/
theorem execSmul_cases (qd qa : QReg) (fk : FReg) (s : State) :
    ((readQ s qa).v = false ∧ execSmul qd qa fk s = .next (faultEntry .uninitPoint s)) ∨
    ((readQ s qa).v = true ∧
      ((∃ c, loopRun 256 (loopStart (readQ s qa) (readF s fk)) = .error c ∧
          execSmul qd qa fk s = .next (dropLoop (faultEntry c s))) ∨
       (∃ l, loopRun 256 (loopStart (readQ s qa) (readF s fk)) = .ok l ∧
          execSmul qd qa fk s = .next (dropLoop (commit (writeQ s qd l.acc)) )))) := by
  unfold execSmul smulIterations
  cases hv : (readQ s qa).v
  · simp
  · right
    refine ⟨rfl, ?_⟩
    simp only [smulStart_loop]
    cases h : loopRun 256 (loopStart (readQ s qa) (readF s fk)) with
    | error c => exact .inl ⟨c, rfl, rfl⟩
    | ok l => exact .inr ⟨l, rfl, rfl⟩

/-- What one edge can do (R39, R76): only the port's part; one clock less to wait; or the completion of the command in flight. -/
theorem clockEdge_cases {p : PortIn} {s t : State} (h : clockEdge p s = .next t) :
    (¬(s.st = .busy ∧ (portEdge p s).st = .busy) ∧ t = portEdge p s) ∨
    (s.st = .busy ∧ (portEdge p s).st = .busy ∧
      ((∃ n, (portEdge p s).left = n + 1 ∧ t = { portEdge p s with left := n }) ∨
       ((portEdge p s).left = 0 ∧ engineComplete (portEdge p s) = .next t))) := by
  unfold clockEdge at h
  by_cases hb : s.st = .busy ∧ (portEdge p s).st = .busy
  · rw [if_pos hb] at h
    right
    refine ⟨hb.1, hb.2, ?_⟩
    unfold engineEdge at h
    cases hl : (portEdge p s).left with
    | zero => rw [hl] at h; exact .inr ⟨rfl, h⟩
    | succ n => rw [hl] at h; cases h; exact .inl ⟨n, rfl, rfl⟩
  · rw [if_neg hb] at h
    cases h
    exact .inl ⟨hb, rfl⟩

/-- The completion of the command in flight (R208): its meaning, or `IllegalCommand`. -/
theorem engineComplete_cases (s : State) :
    (∃ i, decode s.cmdr = .ok i ∧ engineComplete s = exec i s) ∨
    (∃ e, decode s.cmdr = .error e ∧ engineComplete s = .next (faultEntry .illegalCommand s)) := by
  unfold engineComplete
  cases h : decode s.cmdr with
  | ok i => exact .inl ⟨i, rfl, rfl⟩
  | error e => exact .inr ⟨e, rfl, rfl⟩

/-- The host's own move touches only the host's fields. -/
theorem hostAdvance_eq (r : Word) (s : State) :
    ∃ h g, hostAdvance r s = { s with host := h, got := g } := by
  unfold hostAdvance
  split
  · exact ⟨s.host, s.got, rfl⟩
  · exact ⟨_, _, rfl⟩
  · split
    · exact ⟨s.host, s.got, rfl⟩
    · exact ⟨_, _, rfl⟩

end Sys2Proof.Laws
end

