-- ==== Sys2Proof/Laws/Port.lean ====
section
/-! SUPPORT. The host port: the word laws of a 256-bit value (`20_memory.md` R63), which addresses are `CTRL`, and everything a write can do
(R67). -/

namespace Sys2Proof.Laws

open Sys2Proof.Machine

/-- Which bits of a 256-bit value a word write replaces (R67 item 5). -/
theorem getLsbD_setWord (v : Wide) (k : Fin 8) (w : Word) (n : Nat) :
    (setWord v k w).getLsbD n =
      if 32 * k.val ≤ n ∧ n < 32 * k.val + 32 then w.getLsbD (n - 32 * k.val) else v.getLsbD n := by
  have hk := k.isLt
  have hm : ∀ m, (BitVec.ofNat 256 0xFFFFFFFF).getLsbD m = decide (m < 32) := by
    intro m
    by_cases hm : m < 256
    · have : (0xFFFFFFFF : Nat) = 2 ^ 32 - 1 := rfl
      rw [BitVec.getLsbD_ofNat, this, Nat.testBit_two_pow_sub_one]
      simp [hm]
    · rw [BitVec.getLsbD_of_ge _ _ (by omega)]
      simp; omega
  unfold setWord
  rw [BitVec.getLsbD_or, BitVec.getLsbD_and, BitVec.getLsbD_not, BitVec.getLsbD_shiftLeft, BitVec.getLsbD_shiftLeft, hm,
    BitVec.getLsbD_setWidth]
  by_cases hn : n < 256
  · by_cases h1 : n < 32 * k.val
    · simp [hn, h1, show ¬ (32 * k.val ≤ n) by omega]
    · by_cases h2 : n < 32 * k.val + 32
      · simp [hn, h1, h2, show 32 * k.val ≤ n by omega, show n - 32 * k.val < 32 by omega, show n - 32 * k.val < 256 by omega]
      · simp [hn, h1, h2, show ¬ (n - 32 * k.val < 32) by omega, BitVec.getLsbD_of_ge w (n - 32 * k.val) (by omega)]
  · simp [hn, show ¬ (n < 32 * k.val + 32) by omega, BitVec.getLsbD_of_ge v n (by omega)]

/-- A word reads back as it was written (R67 item 5). -/
@[simp] theorem wordOf_setWord_self (v : Wide) (k : Fin 8) (w : Word) : wordOf (setWord v k w) k = w := by
  apply BitVec.eq_of_getLsbD_eq
  intro n hn
  simp only [wordOf, BitVec.getLsbD_extractLsb', getLsbD_setWord]
  simp [hn]

/-- Writing one word keeps every other word (R67 item 5). -/
theorem wordOf_setWord_ne (v : Wide) {k j : Fin 8} (w : Word) (h : j ≠ k) : wordOf (setWord v k w) j = wordOf v j := by
  have h' : j.val ≠ k.val := fun e => h (Fin.ext e)
  apply BitVec.eq_of_getLsbD_eq
  intro n hn
  simp only [wordOf, BitVec.getLsbD_extractLsb', getLsbD_setWord]
  rw [if_neg (by omega)]

/-- A choice has a property where both of its branches have it. -/
theorem ite_of {α : Type} {P : α → Prop} {c : Prop} [Decidable c] {x y : α} (h1 : c → P x) (h2 : ¬c → P y) :
    P (if c then x else y) := by
  by_cases h : c
  · rw [if_pos h]; exact h1 h
  · rw [if_neg h]; exact h2 h

/-- The byte address that R62 and R63 give a register word. -/
def Stands (a : Nat) : Place → Prop
  | .ctrl => a = 0x000
  | .status => a = 0x004
  | .err => a = 0x008
  | .errcmd => a = 0x00C
  | .cmd => a = 0x010
  | .curveP k => a = 0x040 + 4 * k.val
  | .curveA k => a = 0x060 + 4 * k.val
  | .curveB k => a = 0x080 + 4 * k.val
  | .f i k => a = 0x100 + 0x20 * i.val + 4 * k.val
  | .tag j => a = 0x200 + 0x100 * j.val
  | .qX j k => a = 0x220 + 0x100 * j.val + 4 * k.val
  | .qY j k => a = 0x240 + 0x100 * j.val + 4 * k.val
  | .qCA j k => a = 0x260 + 0x100 * j.val + 4 * k.val
  | .qCB j k => a = 0x280 + 0x100 * j.val + 4 * k.val
  | .qCP j k => a = 0x2A0 + 0x100 * j.val + 4 * k.val
  | .reserved => True

/-- The map puts every register word where R62 says, and so no two addresses at one word. -/
theorem stands (a : Nat) : Stands a (placeOf a) := by
  unfold placeOf pointPlace
  repeat' refine ite_of (P := Stands a) ?_ ?_ <;> intro _
  all_goals simp only [Stands, wordIndex, Fin.val_ofNat]
  all_goals omega

/-- What is known of an address from the place it maps to. -/
theorem addr_of_place {a : Addr} {pl : Place} (h : placeOf a.toNat = pl) : Stands a.toNat pl := h ▸ stands a.toNat

theorem addr_eq {a : Addr} {n : Nat} (h : a.toNat = n) : a = BitVec.ofNat 11 n := by
  rw [← h, BitVec.ofNat_toNat, BitVec.setWidth_eq]

/-- The one address of `CTRL` (R62). -/
theorem placeOf_ctrl_iff (a : Addr) : placeOf a.toNat = .ctrl ↔ a = 0 :=
  ⟨fun h => addr_eq (addr_of_place h), fun h => by rw [h]; rfl⟩

/-- The one address of `CMD` (R62). -/
theorem placeOf_cmd_iff (a : Addr) : placeOf a.toNat = .cmd ↔ a = 0x010 :=
  ⟨fun h => addr_eq (addr_of_place h), fun h => by rw [h]; rfl⟩

/-- Everything a write in `IDLE` to an address other than `CTRL`'s can do, and at which addresses (R67 items 3 to 6). -/
theorem writeIdle_cases (s : State) (a : Addr) (w : Word) :
    writeIdle (placeOf a.toNat) w s = s ∨
    (a = 0x004 ∧ w.getLsbD 1 = true ∧ writeIdle (placeOf a.toNat) w s = { s with done := false }) ∨
    (a = 0x010 ∧ writeIdle (placeOf a.toNat) w s = issue w s) ∨
    (∃ (k : Fin 8) (v : Wide), a = BitVec.ofNat 11 (0x040 + 4 * k.val) ∧
      writeIdle (placeOf a.toNat) w s = { s with curve := { s.curve with p := v } }) ∨
    (∃ (k : Fin 8) (v : Wide), a = BitVec.ofNat 11 (0x060 + 4 * k.val) ∧
      writeIdle (placeOf a.toNat) w s = { s with curve := { s.curve with a := v } }) ∨
    (∃ (k : Fin 8) (v : Wide), a = BitVec.ofNat 11 (0x080 + 4 * k.val) ∧
      writeIdle (placeOf a.toNat) w s = { s with curve := { s.curve with b := v } }) ∨
    (∃ (i : FReg) (k : Fin 8) (v : Wide), a = BitVec.ofNat 11 (0x100 + 0x20 * i.val + 4 * k.val) ∧
      writeIdle (placeOf a.toNat) w s = writeF s i v) := by
  have hs := stands a.toNat
  generalize placeOf a.toNat = pl at hs
  cases pl with
  | status =>
    by_cases hw : w.getLsbD 1 = true
    · exact .inr (.inl ⟨addr_eq hs, hw, if_pos hw⟩)
    · exact .inl (if_neg hw)
  | cmd => exact .inr (.inr (.inl ⟨addr_eq hs, rfl⟩))
  | curveP k => exact .inr (.inr (.inr (.inl ⟨k, _, addr_eq hs, rfl⟩)))
  | curveA k => exact .inr (.inr (.inr (.inr (.inl ⟨k, _, addr_eq hs, rfl⟩))))
  | curveB k => exact .inr (.inr (.inr (.inr (.inr (.inl ⟨k, _, addr_eq hs, rfl⟩)))))
  | f i k => exact .inr (.inr (.inr (.inr (.inr (.inr ⟨i, k, _, addr_eq hs, rfl⟩)))))
  | _ => exact .inl rfl

/-- Everything a write can do (R67); `writeIdle_cases` says the rest. -/
theorem memWrite_cases (s : State) (a : Addr) (w : Word) :
    (a = 0 ∧ w.getLsbD 0 = true ∧ memWrite s a w = resetBlock s) ∨
    (a = 0 ∧ w.getLsbD 0 = false ∧ memWrite s a w = { s with ieDone := w.getLsbD 1, ieFault := w.getLsbD 2 }) ∨
    (a ≠ 0 ∧ s.st ≠ .idle ∧ memWrite s a w = s) ∨
    (a ≠ 0 ∧ s.st = .idle ∧ memWrite s a w = writeIdle (placeOf a.toNat) w s) := by
  unfold memWrite
  by_cases hc : placeOf a.toNat = .ctrl
  · rw [if_pos hc]
    rw [placeOf_ctrl_iff] at hc
    unfold writeCtrl
    cases hw : w.getLsbD 0
    · exact .inr (.inl ⟨hc, rfl, by simp⟩)
    · exact .inl ⟨hc, rfl, by simp⟩
  · rw [if_neg hc]
    rw [placeOf_ctrl_iff] at hc
    by_cases hs : s.st = .idle
    · rw [if_pos hs]; exact .inr (.inr (.inr ⟨hc, hs, rfl⟩))
    · rw [if_neg hs]; exact .inr (.inr (.inl ⟨hc, hs, rfl⟩))

/-- Everything the inputs of an edge can do to the registers (R242, R66, R67). -/
theorem portEdge_cases (p : PortIn) (s : State) :
    (p.rstN = false ∧ portEdge p s = resetBlock s) ∨
    (p.rstN = true ∧ p.sel = true ∧ p.we = true ∧ portEdge p s = memWrite s p.addr p.wdata) ∨
    (p.rstN = true ∧ (p.sel && p.we) = false ∧ portEdge p s = s) := by
  unfold portEdge isWrite
  cases p.rstN <;> cases p.sel <;> cases p.we <;> simp

end Sys2Proof.Laws
end

