-- ==== Sys2Proof/Laws/Step.lean ====
section
/-! SUPPORT. One step of the machine, once and for all: what the host's own move keeps, what the inputs of an edge do where they reset the
block, where a command is in flight or a fault stands, and in `IDLE`; and the inversion of a step into its cases (`10_state.md` R39,
`20_memory.md` R67, R69, R76). -/

namespace Sys2Proof.Laws

open Sys2Proof.Machine Sys2Proof.Safety

@[simp] theorem hostAdvance_curve (r : Word) (s : State) : (hostAdvance r s).curve = s.curve := by
  obtain ⟨_, _, h⟩ := hostAdvance_eq r s; rw [h]

@[simp] theorem hostAdvance_f (r : Word) (s : State) : (hostAdvance r s).f = s.f := by
  obtain ⟨_, _, h⟩ := hostAdvance_eq r s; rw [h]

@[simp] theorem hostAdvance_q (r : Word) (s : State) : (hostAdvance r s).q = s.q := by
  obtain ⟨_, _, h⟩ := hostAdvance_eq r s; rw [h]

@[simp] theorem hostAdvance_ieDone (r : Word) (s : State) : (hostAdvance r s).ieDone = s.ieDone := by
  obtain ⟨_, _, h⟩ := hostAdvance_eq r s; rw [h]

@[simp] theorem hostAdvance_ieFault (r : Word) (s : State) : (hostAdvance r s).ieFault = s.ieFault := by
  obtain ⟨_, _, h⟩ := hostAdvance_eq r s; rw [h]

@[simp] theorem hostAdvance_st (r : Word) (s : State) : (hostAdvance r s).st = s.st := by
  obtain ⟨_, _, h⟩ := hostAdvance_eq r s; rw [h]

@[simp] theorem hostAdvance_done (r : Word) (s : State) : (hostAdvance r s).done = s.done := by
  obtain ⟨_, _, h⟩ := hostAdvance_eq r s; rw [h]

@[simp] theorem hostAdvance_err (r : Word) (s : State) : (hostAdvance r s).err = s.err := by
  obtain ⟨_, _, h⟩ := hostAdvance_eq r s; rw [h]

@[simp] theorem hostAdvance_errcmd (r : Word) (s : State) : (hostAdvance r s).errcmd = s.errcmd := by
  obtain ⟨_, _, h⟩ := hostAdvance_eq r s; rw [h]

@[simp] theorem hostAdvance_cmdr (r : Word) (s : State) : (hostAdvance r s).cmdr = s.cmdr := by
  obtain ⟨_, _, h⟩ := hostAdvance_eq r s; rw [h]

@[simp] theorem hostAdvance_loop (r : Word) (s : State) : (hostAdvance r s).loop = s.loop := by
  obtain ⟨_, _, h⟩ := hostAdvance_eq r s; rw [h]

@[simp] theorem hostAdvance_left (r : Word) (s : State) : (hostAdvance r s).left = s.left := by
  obtain ⟨_, _, h⟩ := hostAdvance_eq r s; rw [h]

@[simp] theorem hostAdvance_lats (r : Word) (s : State) : (hostAdvance r s).lats = s.lats := by
  obtain ⟨_, _, h⟩ := hostAdvance_eq r s; rw [h]

@[simp] theorem hostAdvance_fresh (r : Word) (s : State) : (hostAdvance r s).fresh = s.fresh := by
  obtain ⟨_, _, h⟩ := hostAdvance_eq r s; rw [h]

/-- What a read answers does not depend on the host, the schedule, or the hidden loop registers. -/
theorem memRead_congr {s t : State} (h : SameRegisters s t) (a : Addr) : memRead s a = memRead t a := by
  obtain ⟨h1, h2, h3, h4, h5, h6, h7, h8, h9, h10⟩ := h
  unfold memRead readPlace ctrlWord statusWord errWord faultFlag busyFlag readF readQ
  rw [h1, h2, h3, h4, h5, h6, h7, h8, h9, h10]

/-- A write to `CTRL` (R67 item 1). -/
theorem memWrite_ctrl (s : State) (w : Word) : memWrite s 0 w = writeCtrl w s := by
  unfold memWrite; rw [if_pos ((placeOf_ctrl_iff 0).mpr rfl)]

/-- Any other write is dropped unless `ST = IDLE` (R69). -/
theorem memWrite_not_idle {s : State} {a : Addr} (w : Word) (h : s.st ≠ .idle) (ha : a ≠ 0) : memWrite s a w = s := by
  unfold memWrite; rw [if_neg (fun e => ha ((placeOf_ctrl_iff a).mp e)), if_neg h]

theorem resetInputs_iff (p : PortIn) :
    ResetInputs p = true ↔ p.rstN = false ∨ (p.sel = true ∧ p.we = true ∧ p.addr = 0 ∧ p.wdata.getLsbD 0 = true) := by
  simp [ResetInputs, and_assoc]

/-- The inputs that reset the block do so in any state (R240, R242, R243). -/
theorem portEdge_of_reset {p : PortIn} (s : State) (h : ResetInputs p = true) : portEdge p s = resetBlock s := by
  unfold portEdge isWrite
  obtain h | ⟨hs, hw, ha, hb⟩ := (resetInputs_iff p).mp h
  · simp [h]
  · cases hr : p.rstN
    · simp
    · rw [hs, hw, ha, memWrite_ctrl]
      unfold writeCtrl
      rw [if_pos hb]
      rfl

theorem writeInputs_iff (p : PortIn) (a : Addr) :
    WriteInputs p a = true ↔ p.rstN = true ∧ p.sel = true ∧ p.we = true ∧ p.addr = a := by
  simp [WriteInputs, and_assoc]

/-- Where a command is in flight or a fault stands, inputs that do not reset the block change at most the interrupt enables, by a write to
`CTRL` (R69). -/
theorem portEdge_not_idle {p : PortIn} {s : State} (h : ResetInputs p = false) (hs : s.st ≠ .idle) :
    ∃ d e, (d ≠ s.ieDone ∨ e ≠ s.ieFault → WriteInputs p 0 = true) ∧ portEdge p s = { s with ieDone := d, ieFault := e } := by
  obtain ⟨hr, _⟩ | ⟨hr, hsel, hwe, he⟩ | ⟨_, _, he⟩ := portEdge_cases p s
  · simp [ResetInputs, hr] at h
  · rw [he]
    obtain ⟨hc, hw, _⟩ | ⟨hc, _, e⟩ | ⟨_, _, e⟩ | ⟨_, hi, _⟩ := memWrite_cases s p.addr p.wdata
    · exact absurd ((resetInputs_iff p).mpr (.inr ⟨hsel, hwe, hc, hw⟩)) (by rw [h]; simp)
    · exact ⟨_, _, fun _ => (writeInputs_iff p 0).mpr ⟨hr, hsel, hwe, hc⟩, e⟩
    · exact ⟨s.ieDone, s.ieFault, by simp, e⟩
    · exact absurd hi hs
  · exact ⟨s.ieDone, s.ieFault, by simp, he⟩

/-- In `IDLE`, inputs that do not reset the block issue a command (exactly where they write `CMD`), or leave `ST` as it is and write at most
the enables, `DONE`, `CURVE` or one `F` register, each at its own addresses (R67). -/
theorem portEdge_idle {p : PortIn} {s : State} (h : ResetInputs p = false) (hs : s.st = .idle) :
    (IssueInputs p = true ∧ portEdge p s = issue p.wdata s) ∨
    (IssueInputs p = false ∧
      (portEdge p s = s ∨
       (WriteInputs p 0 = true ∧ ∃ d e, portEdge p s = { s with ieDone := d, ieFault := e }) ∨
       (WriteInputs p 0x004 = true ∧ p.wdata.getLsbD 1 = true ∧ portEdge p s = { s with done := false }) ∨
       (WideWriteInputs p 0x040 ∧ ∃ v, portEdge p s = { s with curve := { s.curve with p := v } }) ∨
       (WideWriteInputs p 0x060 ∧ ∃ v, portEdge p s = { s with curve := { s.curve with a := v } }) ∨
       (WideWriteInputs p 0x080 ∧ ∃ v, portEdge p s = { s with curve := { s.curve with b := v } }) ∨
       (∃ i : FReg, WideWriteInputs p (0x100 + 0x20 * i.val) ∧ ∃ v, portEdge p s = writeF s i v))) := by
  cases hi : IssueInputs p
  · refine .inr ⟨rfl, ?_⟩
    obtain ⟨hr, _⟩ | ⟨hr, hsel, hwe, he⟩ | ⟨_, _, he⟩ := portEdge_cases p s
    · simp [ResetInputs, hr] at h
    · have at_ (a : Addr) (ha : p.addr = a) : WriteInputs p a = true := (writeInputs_iff p a).mpr ⟨hr, hsel, hwe, ha⟩
      rw [he]
      obtain ⟨hc, hw, _⟩ | ⟨hc, _, e⟩ | ⟨_, hn, _⟩ | ⟨_, _, e'⟩ := memWrite_cases s p.addr p.wdata
      · exact absurd ((resetInputs_iff p).mpr (.inr ⟨hsel, hwe, hc, hw⟩)) (by rw [h]; simp)
      · exact .inr (.inl ⟨at_ _ hc, _, _, e⟩)
      · exact absurd hs hn
      · rw [e']
        obtain e | ⟨ha, hw, e⟩ | ⟨ha, _⟩ | ⟨k, v, ha, e⟩ | ⟨k, v, ha, e⟩ | ⟨k, v, ha, e⟩ | ⟨i, k, v, ha, e⟩ :=
          writeIdle_cases s p.addr p.wdata
        · exact .inl e
        · exact .inr (.inr (.inl ⟨at_ _ ha, hw, e⟩))
        · exact absurd (at_ _ ha) (by rw [← IssueInputs, hi]; simp)
        · exact .inr (.inr (.inr (.inl ⟨⟨k, at_ _ ha⟩, v, e⟩)))
        · exact .inr (.inr (.inr (.inr (.inl ⟨⟨k, at_ _ ha⟩, v, e⟩))))
        · exact .inr (.inr (.inr (.inr (.inr (.inl ⟨⟨k, at_ _ ha⟩, v, e⟩)))))
        · exact .inr (.inr (.inr (.inr (.inr (.inr ⟨i, ⟨k, at_ _ ha⟩, v, e⟩)))))
    · exact .inl he
  · refine .inl ⟨rfl, ?_⟩
    obtain ⟨hr, hsel, hwe, ha⟩ := (writeInputs_iff p 0x010).mp hi
    have hp : placeOf p.addr.toNat = .cmd := (placeOf_cmd_iff _).mpr ha
    unfold portEdge isWrite memWrite
    simp [hr, hsel, hwe, hp, hs, writeIdle]

theorem step_eq (s : State) :
    step s = clockEdge (hostInputs s) (hostAdvance (rdata s (hostInputs s)) s) := rfl

/-- Where a command is in flight with its latency over and still is after the port's part, the edge completes it (R76). -/
theorem clockEdge_completes {p : PortIn} {s : State} (hb : s.st = .busy) (hp : (portEdge p s).st = .busy)
    (hl : (portEdge p s).left = 0) : clockEdge p s = engineComplete (portEdge p s) := by
  unfold clockEdge engineEdge; rw [if_pos ⟨hb, hp⟩, hl]

/-- Where no command is in flight before the edge, or a reset takes it, only the port's part happens (R76). -/
theorem clockEdge_port_only {p : PortIn} {s : State} (h : ¬(s.st = .busy ∧ (portEdge p s).st = .busy)) :
    clockEdge p s = .next (portEdge p s) := by
  unfold clockEdge; rw [if_neg h]

/-- The cases of one step. The state `u` is `s` after the host's own move, which keeps every register. -/
theorem step_cases {s t : State} (h : step s = .next t) :
    ∃ u : State, u = hostAdvance (rdata s (hostInputs s)) s ∧
    ((ResetInputs (hostInputs s) = true ∧ t = resetBlock u) ∨
     (ResetInputs (hostInputs s) = false ∧
      ((s.st = .idle ∧ t = portEdge (hostInputs s) u) ∨
       (s.st = .fault ∧ ∃ d e, (d ≠ s.ieDone ∨ e ≠ s.ieFault → WriteInputs (hostInputs s) 0 = true) ∧
          t = { u with ieDone := d, ieFault := e }) ∨
       (s.st = .busy ∧ ∃ d e, (d ≠ s.ieDone ∨ e ≠ s.ieFault → WriteInputs (hostInputs s) 0 = true) ∧
          ((∃ n, s.left = n + 1 ∧ t = { u with ieDone := d, ieFault := e, left := n }) ∨
           (s.left = 0 ∧ engineComplete { u with ieDone := d, ieFault := e } = .next t)))))) := by
  refine ⟨_, rfl, ?_⟩
  rw [step_eq] at h
  generalize hu : hostAdvance (rdata s (hostInputs s)) s = u at h ⊢
  have hst : u.st = s.st := by rw [← hu]; simp
  have hleft : u.left = s.left := by rw [← hu]; simp
  have hie : u.ieDone = s.ieDone ∧ u.ieFault = s.ieFault := by rw [← hu]; simp
  cases hr : ResetInputs (hostInputs s)
  · right
    refine ⟨rfl, ?_⟩
    cases hs : s.st with
    | idle =>
      left
      obtain ⟨_, e⟩ | ⟨hb, _⟩ := clockEdge_cases h
      · exact ⟨rfl, e⟩
      · rw [hst, hs] at hb; cases hb
    | fault =>
      right; left
      obtain ⟨d, e, hw, hp⟩ := portEdge_not_idle hr (s := u) (by rw [hst, hs]; simp)
      obtain ⟨_, ht⟩ | ⟨hb, _⟩ := clockEdge_cases h
      · exact ⟨rfl, d, e, hie.1 ▸ hie.2 ▸ hw, by rw [ht, hp]⟩
      · rw [hst, hs] at hb; cases hb
    | busy =>
      right; right
      obtain ⟨d, e, hw, hp⟩ := portEdge_not_idle hr (s := u) (by rw [hst, hs]; simp)
      refine ⟨rfl, d, e, hie.1 ▸ hie.2 ▸ hw, ?_⟩
      obtain ⟨hn, _⟩ | ⟨_, _, ⟨n, hl, ht⟩ | ⟨hl, ht⟩⟩ := clockEdge_cases h
      · exact absurd ⟨by rw [hst, hs], by rw [hp]; exact hst.trans hs⟩ hn
      · rw [hp] at hl ht; exact .inl ⟨n, hleft ▸ hl, ht⟩
      · rw [hp] at hl ht; exact .inr ⟨hleft ▸ hl, ht⟩
  · left
    refine ⟨rfl, ?_⟩
    have hp := portEdge_of_reset u hr
    obtain ⟨_, e⟩ | ⟨_, hb, _⟩ := clockEdge_cases h
    · rw [e, hp]
    · rw [hp] at hb; exact absurd hb (by simp [State.reset])

/-- A run of `n + 1` edges begins with a step. -/
theorem after_succ {s t : State} {n : Nat} : After s (n + 1) t ↔ ∃ u, step s = .next u ∧ After u n t := by
  simp only [After, Host.Core.run]
  cases h : step s with
  | next u => simp only [show core.step s = .next u from h, Host.Outcome.next.injEq, exists_eq_left']
  | fault r => exact nomatch r
  | refused r => simp [show core.step s = .refused r from h]

/-- A run of `n + 1` edges ends with a step. -/
theorem after_step {s t : State} {n : Nat} : After s (n + 1) t ↔ ∃ u, After s n u ∧ step u = .next t := by
  induction n generalizing s with
  | zero =>
    rw [after_succ]
    exact ⟨fun ⟨u, h, e⟩ => ⟨s, rfl, by cases e; exact h⟩, fun ⟨u, e, h⟩ => ⟨t, by cases e; exact h, rfl⟩⟩
  | succ n ih =>
    rw [after_succ]
    constructor
    · rintro ⟨v, h, e⟩
      obtain ⟨u, e', h'⟩ := ih.mp e
      exact ⟨u, after_succ.mpr ⟨v, h, e'⟩, h'⟩
    · rintro ⟨u, e, h⟩
      obtain ⟨v, h', e'⟩ := after_succ.mp e
      exact ⟨v, h', ih.mpr ⟨u, e', h⟩⟩

/-- Runs compose. -/
theorem after_add {s t u : State} {n m : Nat} (h : After s n t) (h' : After t m u) : After s (n + m) u := by
  induction m generalizing u with
  | zero => cases h'; exact h
  | succ m ih =>
    obtain ⟨v, hv, e⟩ := after_step.mp h'
    exact after_step.mpr ⟨v, ih hv, e⟩

/-- The rest of a run, from any of its states. -/
theorem after_rest {s t u : State} {n m : Nat} (h : After s n t) (h' : After s (n + m) u) : After t m u := by
  induction m generalizing u with
  | zero => exact h.symm.trans h'
  | succ m ih =>
    obtain ⟨v, hv, e⟩ := after_step.mp h'
    exact after_step.mpr ⟨v, ih hv, e⟩

/-- Nothing happens after a state that the step leaves as it is. -/
theorem after_fixed {s t : State} {n : Nat} (h : step s = .next s) (h' : After s n t) : t = s := by
  induction n generalizing t with
  | zero => cases h'; rfl
  | succ n ih =>
    obtain ⟨u, hu, e⟩ := after_step.mp h'
    rw [ih hu, h] at e; cases e; rfl

end Sys2Proof.Laws
end

