-- ==== Sys2Proof/Laws/Exec.lean ====
section
/-! SUPPORT. What the meaning of a command can answer, said once for all ten: a commit of its destination or a fault with a code that a
command raises (`00_scope.md` R17, `60_exceptions.md` R200, R211, R214). -/

namespace Sys2Proof.Laws

open Sys2Proof.Machine Sys2Proof.Safety

theorem pointNew_error {k : Coords} {a b p : Nat} {c : FaultCode} (h : pointNew k a b p = .error c) : c = .invalidPoint := by
  cases k with
  | identity => cases h
  | affine x y =>
    obtain ⟨_, e⟩ | ⟨_, e⟩ := pointNew_affine_cases x y a b p
    · rw [e] at h; cases h
    · rw [e] at h; cases h; rfl

theorem lineResult_error {sl x1 y1 x2 a b p : Nat} {c : FaultCode} (h : lineResult sl x1 y1 x2 a b p = .error c) :
    c = .invalidPoint := by
  unfold lineResult at h; exact pointNew_error h

/-- The faults of `Add` (R155, R157, R158). -/
theorem addPoints_error {A B : PointRec} {c : FaultCode} (h : addPoints A B = .error c) :
    c = .curveMismatch ∨ c = .nonInvertibleDivisor ∨ c = .invalidPoint := by
  obtain ⟨_, e⟩ | ⟨_, ⟨_, _, e⟩ | ⟨_, _, e⟩ | ⟨_, _, e⟩ | ⟨_, _, _, e⟩ | ⟨_, _, _, _, e⟩ | ⟨_, _, _, _, e⟩⟩ := addPoints_cases A B
  all_goals rw [e] at h
  · cases h; exact .inl rfl
  · cases h
  · cases h
  · cases h
  · unfold chord at h
    split at h
    · cases h; exact .inr (.inl (fdiv_error ‹_›))
    · exact .inr (.inr (lineResult_error h))
  · unfold tangent at h
    split at h
    · cases h
    · split at h
      · cases h; exact .inr (.inl (fdiv_error ‹_›))
      · exact .inr (.inr (lineResult_error h))
  · cases h

/-- The faults of the loop of `SMUL` are those of its `Add` calls (R188). -/
theorem loopRun_error {n : Nat} {l : LoopRegs} {c : FaultCode} (h : loopRun n l = .error c) :
    c = .curveMismatch ∨ c = .nonInvertibleDivisor ∨ c = .invalidPoint := by
  induction n generalizing l with
  | zero => cases h
  | succ n ih =>
    by_cases hk : l.ksh = 0
    · rw [loopRun_zero_ksh _ hk] at h; cases h
    · rw [loopRun_succ n hk] at h
      obtain ⟨_, _, _, _, e⟩ | ⟨c', h', e⟩ | ⟨_, c', _, h', e⟩ := loopIterate_cases l
      · rw [e] at h; exact ih h
      · rw [e] at h; cases h
        split at h'
        · exact addPoints_error h'
        · cases h'
      · rw [e] at h; cases h; exact addPoints_error h'

/-- A fault code that a command can raise: all of R200 but 3 (reserved) and 8 (a word that is no command). -/
def Raised (c : FaultCode) : Prop := c ≠ .negativeScalar ∧ c ≠ .illegalCommand

theorem raised_of_add {c : FaultCode} (h : c = .curveMismatch ∨ c = .nonInvertibleDivisor ∨ c = .invalidPoint) : Raised c := by
  obtain rfl | rfl | rfl := h <;> constructor <;> simp

theorem withFieldPre_error {α : Type} {p : Nat} {vs : List Nat} {r : Except FaultCode α} {c : FaultCode}
    (h : withFieldPre p vs r = .error c) : c = .badModulus ∨ c = .operandRange ∨ r = .error c := by
  obtain ⟨_, e⟩ | ⟨_, _, e⟩ | ⟨_, _, e⟩ := withFieldPre_cases p vs r
  all_goals rw [e] at h
  · cases h; exact .inl rfl
  · cases h; exact .inr (.inl rfl)
  · exact .inr (.inr h)

theorem finishF_raised {fd : FReg} {r : Except FaultCode Nat} {s : State} (hr : ∀ c, r = .error c → Raised c) :
    (∃ v, finishF fd r s = .next (commit (writeF s fd v))) ∨ (∃ c, Raised c ∧ finishF fd r s = .next (faultEntry c s)) := by
  obtain ⟨v, _, e⟩ | ⟨c, hc, e⟩ := finishF_cases fd r s
  · exact .inl ⟨_, e⟩
  · exact .inr ⟨c, hr c hc, e⟩

theorem finishQ_raised {qd : QReg} {r : Except FaultCode PointRec} {s : State} (hr : ∀ c, r = .error c → Raised c) :
    (∃ v, finishQ qd r s = .next (commit (writeQ s qd v))) ∨ (∃ c, Raised c ∧ finishQ qd r s = .next (faultEntry c s)) := by
  obtain ⟨v, _, e⟩ | ⟨c, hc, e⟩ := finishQ_cases qd r s
  · exact .inl ⟨_, e⟩
  · exact .inr ⟨c, hr c hc, e⟩

theorem withFieldPre_raised {α : Type} {p : Nat} {vs : List Nat} {r : Except FaultCode α}
    (hr : ∀ c, r = .error c → Raised c) : ∀ c, withFieldPre p vs r = .error c → Raised c := by
  intro c h
  obtain rfl | rfl | h := withFieldPre_error h
  · constructor <;> simp
  · constructor <;> simp
  · exact hr c h

theorem division_raised {r : Except FaultCode Nat} (hr : ∀ c, r = .error c → c = .nonInvertibleDivisor) :
    ∀ c, r = .error c → Raised c := by
  intro c h; rw [hr c h]; constructor <;> simp

/-- What a completion can do: commit an `F` register, commit a `Q` register (`SMUL` drops its loop registers as well), or take a fault. -/
def Ends (i : Instr) (s : State) : Prop :=
  (∃ d v, fieldDestination i = some d ∧ exec i s = .next (commit (writeF s d v))) ∨
  (∃ d r, pointDestination i = some d ∧
    (exec i s = .next (commit (writeQ s d r)) ∨
     ((∃ qa fk, i = .smul d qa fk) ∧ exec i s = .next (dropLoop (commit (writeQ s d r)))))) ∨
  (∃ c, Raised c ∧
    (exec i s = .next (faultEntry c s) ∨
     ((∃ d qa fk, i = .smul d qa fk) ∧ exec i s = .next (dropLoop (faultEntry c s)))))

theorem ends_of_finishF {i : Instr} {s : State} {d : FReg} {r : Except FaultCode Nat} (hd : fieldDestination i = some d)
    (he : exec i s = finishF d r s) (hr : ∀ c, r = .error c → Raised c) : Ends i s := by
  obtain ⟨v, e⟩ | ⟨c, hc, e⟩ := finishF_raised (fd := d) (s := s) hr
  · exact .inl ⟨d, v, hd, he.trans e⟩
  · exact .inr (.inr ⟨c, hc, .inl (he.trans e)⟩)

theorem ends_of_finishQ {i : Instr} {s : State} {d : QReg} {r : Except FaultCode PointRec} (hd : pointDestination i = some d)
    (he : exec i s = finishQ d r s) (hr : ∀ c, r = .error c → Raised c) : Ends i s := by
  obtain ⟨v, e⟩ | ⟨c, hc, e⟩ := finishQ_raised (qd := d) (s := s) hr
  · exact .inr (.inl ⟨d, v, hd, .inl (he.trans e)⟩)
  · exact .inr (.inr ⟨c, hc, .inl (he.trans e)⟩)

theorem pointNew_raised {k : Coords} {a b p : Nat} : ∀ c, pointNew k a b p = .error c → Raised c := by
  intro c h; rw [pointNew_error h]; constructor <;> simp

theorem exec_ends (i : Instr) (s : State) : Ends i s := by
  cases i with
  | fadd d a b => exact ends_of_finishF rfl rfl (withFieldPre_raised (by nofun))
  | fsub d a b => exact ends_of_finishF rfl rfl (withFieldPre_raised (by nofun))
  | fmul d a b => exact ends_of_finishF rfl rfl (withFieldPre_raised (by nofun))
  | fdiv d a b => exact ends_of_finishF rfl rfl (withFieldPre_raised (division_raised fun _ => fdiv_error))
  | finv d a => exact ends_of_finishF rfl rfl (withFieldPre_raised (division_raised fun _ => finv_error))
  | fpow d a e => exact ends_of_finishF rfl rfl (withFieldPre_raised (by nofun))
  | pnew d x y => exact ends_of_finishQ rfl rfl (withFieldPre_raised pointNew_raised)
  | pinf d => exact ends_of_finishQ rfl rfl (withFieldPre_raised pointNew_raised)
  | padd d a b =>
    refine ends_of_finishQ rfl rfl fun c h => ?_
    obtain ⟨_, e⟩ | ⟨_, e⟩ := withPoints_cases [readQ s a, readQ s b] (addPoints (readQ s a) (readQ s b))
    · rw [e] at h; cases h; constructor <;> simp
    · rw [e] at h; exact raised_of_add (addPoints_error h)
  | smul d qa fk =>
    obtain ⟨_, e⟩ | ⟨_, ⟨c, hc, e⟩ | ⟨l, _, e⟩⟩ := execSmul_cases d qa fk s
    · exact .inr (.inr ⟨.uninitPoint, by constructor <;> simp, .inl e⟩)
    · exact .inr (.inr ⟨c, raised_of_add (loopRun_error hc), .inr ⟨⟨d, qa, fk, rfl⟩, e⟩⟩)
    · exact .inr (.inl ⟨d, l.acc, rfl, .inr ⟨⟨qa, fk, rfl⟩, e⟩⟩)

end Sys2Proof.Laws
end

