-- ==== Sys2Proof/Laws/PerInstr.lean ====
section
/-! SUPPORT. The per-instruction family `EncodeWellFormed`: the word the encoder makes of a command is the command of exactly that
command's row of the opcode table (`30_encoding.md` R95, R102). -/

namespace Sys2Proof.Laws.EncodeWellFormed

/-- The rows that take the encoded word are exactly the row of this mnemonic. -/
def Statement (i : Instr) : Prop :=
  (opcodeRows.filter (·.takes (encode i))).map (·.mnemonic) = [i.mnemonic]

/-- A row of the table takes only words with its own opcode. -/
theorem takes_opcode {r : Row} (hr : r ∈ opcodeRows) {w : Word} (h : r.takes w = true) : w &&& 0xFF#32 = r.pattern := by
  have hm : r.mask &&& 0xFF#32 = 0xFF#32 ∧ r.pattern &&& 0xFF#32 = r.pattern :=
    (by decide : ∀ r ∈ opcodeRows, r.mask &&& 0xFF#32 = 0xFF#32 ∧ r.pattern &&& 0xFF#32 = r.pattern) r hr
  have h' : w &&& r.mask = r.pattern := by simpa [Row.takes] using h
  rw [← hm.2, ← h', BitVec.and_assoc, hm.1]

/-- So only the rows with a word's opcode can take it. -/
theorem filter_takes (w : Word) :
    opcodeRows.filter (·.takes w) = (opcodeRows.filter (fun r => decide (r.pattern = w &&& 0xFF#32))).filter (·.takes w) := by
  rw [List.filter_filter]
  refine List.filter_congr fun r hr => ?_
  cases h : r.takes w with
  | false => simp
  | true => simp [takes_opcode hr h]

/-- Masking a word made of an opcode and three fields masks each of them. -/
theorem packWord_and (op d a b : Nat) (m : Word) :
    packWord op d a b &&& m = (BitVec.ofNat 32 op &&& m) ||| (BitVec.ofNat 32 d <<< 8 &&& m) ||| (BitVec.ofNat 32 a <<< 12 &&& m) |||
      (BitVec.ofNat 32 b <<< 16 &&& m) := by
  unfold packWord
  ext i
  simp [Bool.and_or_distrib_right]

/-- No value below `n` in the field at bit `sh` meets the mask `m`. -/
abbrev Clear (n sh : Nat) (m : Word) : Prop := ∀ d : Fin n, BitVec.ofNat 32 d.val <<< sh &&& m = 0

/-- A command whose fields its row's mask (and the opcode's) leaves free is taken by its row alone. -/
theorem of_row (i : Instr) (r : Row) {n₁ n₂ n₃ : Nat} (d : Fin n₁) (a : Fin n₂) (b : Fin n₃)
    (hw : encode i = packWord r.pattern.toNat d.val a.val b.val)
    (ho : Clear n₁ 8 0xFF#32 ∧ Clear n₂ 12 0xFF#32 ∧ Clear n₃ 16 0xFF#32 ∧ r.pattern &&& 0xFF#32 = r.pattern)
    (hm : Clear n₁ 8 r.mask ∧ Clear n₂ 12 r.mask ∧ Clear n₃ 16 r.mask ∧ r.pattern &&& r.mask = r.pattern)
    (hr : opcodeRows.filter (fun x => decide (x.pattern = r.pattern)) = [r]) (hi : r.mnemonic = i.mnemonic) : Statement i := by
  have masked (m : Word) (h : Clear n₁ 8 m ∧ Clear n₂ 12 m ∧ Clear n₃ 16 m ∧ r.pattern &&& m = r.pattern) :
      encode i &&& m = r.pattern := by
    rw [hw, packWord_and, h.1 d, h.2.1 a, h.2.2.1 b]
    simpa using h.2.2.2
  have ht : r.takes (encode i) = true := by simpa [Row.takes] using masked r.mask hm
  rw [Statement, filter_takes, masked 0xFF#32 ho, hr]
  simp [ht, hi]

theorem fadd (d a b : FReg) : Statement (.fadd d a b) :=
  of_row _ ⟨"FADD", 0x00000010#32, 0xFFF888FF#32⟩ d a b rfl (by decide) (by decide) (by decide) rfl

theorem fsub (d a b : FReg) : Statement (.fsub d a b) :=
  of_row _ ⟨"FSUB", 0x00000011#32, 0xFFF888FF#32⟩ d a b rfl (by decide) (by decide) (by decide) rfl

theorem fmul (d a b : FReg) : Statement (.fmul d a b) :=
  of_row _ ⟨"FMUL", 0x00000012#32, 0xFFF888FF#32⟩ d a b rfl (by decide) (by decide) (by decide) rfl

theorem fdiv (d a b : FReg) : Statement (.fdiv d a b) :=
  of_row _ ⟨"FDIV", 0x00000013#32, 0xFFF888FF#32⟩ d a b rfl (by decide) (by decide) (by decide) rfl

theorem finv (d a : FReg) : Statement (.finv d a) :=
  of_row _ ⟨"FINV", 0x00000014#32, 0xFFFF88FF#32⟩ d a (0 : Fin 1) rfl (by decide) (by decide) (by decide) rfl

theorem fpow (d a e : FReg) : Statement (.fpow d a e) :=
  of_row _ ⟨"FPOW", 0x00000015#32, 0xFFF888FF#32⟩ d a e rfl (by decide) (by decide) (by decide) rfl

theorem pnew (d : QReg) (x y : FReg) : Statement (.pnew d x y) :=
  of_row _ ⟨"PNEW", 0x00000020#32, 0xFFF88CFF#32⟩ d x y rfl (by decide) (by decide) (by decide) rfl

theorem pinf (d : QReg) : Statement (.pinf d) :=
  of_row _ ⟨"PINF", 0x00000021#32, 0xFFFFFCFF#32⟩ d (0 : Fin 1) (0 : Fin 1) rfl (by decide) (by decide) (by decide) rfl

theorem padd (d a b : QReg) : Statement (.padd d a b) :=
  of_row _ ⟨"PADD", 0x00000022#32, 0xFFFCCCFF#32⟩ d a b rfl (by decide) (by decide) (by decide) rfl

theorem smul (d a : QReg) (k : FReg) : Statement (.smul d a k) :=
  of_row _ ⟨"SMUL", 0x00000030#32, 0xFFF8CCFF#32⟩ d a k rfl (by decide) (by decide) (by decide) rfl

end Sys2Proof.Laws.EncodeWellFormed
end

