-- ==== Sys2Proof/Tests/Slice0.lean ====
section
/-! SUPPORT. Tests on fixed values, and the witnesses of the statements. Every expected value is the spec's: the examples of
`30_encoding.md` R102 and the vectors of `95_test_vectors.md` (V-E, V-F, V-P, V-S, V-B), named at each test. Each test is about one step. -/

namespace Sys2Proof.Tests

open Sys2Proof Sys2Proof.Machine Sys2Proof.Safety

-- One test after the other: together they would wait for the kernel in a thread each, beyond the memory limit of the check.
set_option Elab.async false

/-! ### Words: the smoke test of well-formedness, one ill-formed word for each class of R97 -/

theorem test_wf_takes_a_command : wordWellFormed 0x00010210#32 = true := by decide

/-- V-E14, V-E15: (a) reserved opcodes. -/
theorem test_wf_refuses_reserved_opcodes :
    [0x00000000#32, 0x00000040#32, 0x000000FF#32, 0x00000016#32, 0x00000023#32, 0x00000031#32].all
      (fun w => !wordWellFormed w && decide (decode w = .error .reservedOpcode)) = true := by decide

/-- V-E16: (b) the field `zero` is not 0. -/
theorem test_wf_refuses_zero_field :
    wordWellFormed 0x00100010#32 = false ∧ decode 0x00100010#32 = .error .zeroField := by decide

/-- V-E17: (c) an `F` index of 8 in each of the three fields of `FADD`. -/
theorem test_wf_refuses_f_index :
    [0x00000810#32, 0x00018210#32, 0x00080210#32].all
      (fun w => !wordWellFormed w && decide (decode w = .error .fIndex)) = true := by decide

/-- V-E18: (d) a `Q` index of 4 in each of the three fields of `PADD`. -/
theorem test_wf_refuses_q_index :
    [0x00000422#32, 0x00004022#32, 0x00040022#32].all
      (fun w => !wordWellFormed w && decide (decode w = .error .qIndex)) = true := by decide

/-- V-E19: (e) an unused field that is not 0. -/
theorem test_wf_refuses_unused_field :
    [0x00010114#32, 0x00001321#32, 0x00010321#32].all
      (fun w => !wordWellFormed w && decide (decode w = .error .unusedField)) = true := by decide

/-! ### Words written out field by field (`zero ++ rs2 ++ rs1 ++ rd ++ op`, R90), one for each command -/

theorem test_decode_fadd : decode (0x000#12 ++ 1#4 ++ 0#4 ++ 2#4 ++ 0x10#8) = .ok (.fadd 2 0 1) := by decide
theorem test_decode_fsub : decode (0x000#12 ++ 1#4 ++ 7#4 ++ 6#4 ++ 0x11#8) = .ok (.fsub 6 7 1) := by decide
theorem test_decode_fmul : decode (0x000#12 ++ 1#4 ++ 1#4 ++ 5#4 ++ 0x12#8) = .ok (.fmul 5 1 1) := by decide
theorem test_decode_fdiv : decode (0x000#12 ++ 3#4 ++ 2#4 ++ 2#4 ++ 0x13#8) = .ok (.fdiv 2 2 3) := by decide
theorem test_decode_finv : decode (0x000#12 ++ 0#4 ++ 3#4 ++ 7#4 ++ 0x14#8) = .ok (.finv 7 3) := by decide
theorem test_decode_fpow : decode (0x000#12 ++ 2#4 ++ 0#4 ++ 4#4 ++ 0x15#8) = .ok (.fpow 4 0 2) := by decide
theorem test_decode_pnew : decode (0x000#12 ++ 6#4 ++ 0#4 ++ 1#4 ++ 0x20#8) = .ok (.pnew 1 0 6) := by decide
theorem test_decode_pinf : decode (0x000#12 ++ 0#4 ++ 0#4 ++ 3#4 ++ 0x21#8) = .ok (.pinf 3) := by decide
theorem test_decode_padd : decode (0x000#12 ++ 1#4 ++ 3#4 ++ 2#4 ++ 0x22#8) = .ok (.padd 2 3 1) := by decide
theorem test_decode_smul : decode (0x000#12 ++ 2#4 ++ 0#4 ++ 1#4 ++ 0x30#8) = .ok (.smul 1 0 2) := by decide

/-- R101: the words of the pseudo-instructions `PDBL Q1, Q0` (V-E10) and `FSQR F5, F1` (program PR3). -/
theorem test_pseudo_words : encode (pdbl 1 0) = 0x00000122#32 ∧ encode (fsqr 5 1) = 0x00011512#32 := by decide

/-- R100: the assembler's form. -/
theorem test_asm : asm (.smul 1 0 2) = "SMUL Q1, Q0, F2" := by decide

/-- The encoder writes the words of R102 and of vector V-E12. -/
theorem test_encode_words :
    encode (.fpow 3 0 1) = 0x00010315#32 ∧ encode (.finv 1 0) = 0x00000114#32 ∧ encode (.pinf 3) = 0x00000321#32 ∧
    encode (.fpow 7 7 7) = 0x00077715#32 := by decide

/-! ### States -/

/-- The state an outcome leaves, or the reset state where it stops. -/
def left (o : Host.Outcome State Fault Refusal) : State :=
  match o with
  | .next t => t
  | .fault _ => State.reset
  | .refused _ => State.reset

/-- The outcome is a next state. -/
def isNext (o : Host.Outcome State Fault Refusal) : Bool :=
  match o with
  | .next _ => true
  | .fault _ => false
  | .refused _ => false

theorem exists_of_isNext {o : Host.Outcome State Fault Refusal} (h : isNext o = true) : ∃ t, o = .next t := by
  cases o with
  | next t => exact ⟨t, rfl⟩
  | fault f => cases h
  | refused r => cases h

theorem next_left {o : Host.Outcome State Fault Refusal} {t : State} (h : isNext o = true ∧ left o = t) : o = .next t := by
  obtain ⟨u, rfl⟩ := exists_of_isNext h.1
  exact congrArg _ h.2

/-- A command in flight on a curve `y² = x³ + a·x + b (mod p)` with these registers. -/
def flight (p a b : Nat) (f : Vector Wide 8) (q : Vector PointRec 4) (w : Word) : State :=
  { State.reset with curve := ⟨BitVec.ofNat 256 p, BitVec.ofNat 256 a, BitVec.ofNat 256 b⟩, f := f, q := q, st := .busy, cmdr := w }

/-- A finite point of R-TOY. -/
def tp (x y : Nat) : PointRec := affPoint x y 0 7 223

/-- R-TOY with these operands in `F0`, `F1` and this word in flight. -/
def toy (x y : Nat) (w : Word) : State :=
  flight 223 0 7 #v[BitVec.ofNat 256 x, BitVec.ofNat 256 y, 0, 0, 0, 0, 0, 0] State.reset.q w

/-- R-TOY with these points in `Q0`, `Q1`, this scalar in `F2` and this word in flight. -/
def toyQ (A B : PointRec) (k : Nat) (w : Word) : State :=
  flight 223 0 7 #v[0, 0, BitVec.ofNat 256 k, 0, 0, 0, 0, 0] #v[A, B, emptyPoint, emptyPoint] w

/-- What the commit or the fault of the command in flight shows: `ST`, `DONE`, `ERR`, `F[i]`. -/
def seenF (s : State) (i : FReg) : Engine × Bool × BitVec 4 × Wide :=
  ((left (step s)).st, (left (step s)).done, (left (step s)).err, readF (left (step s)) i)

/-- The same for `Q[j]`. -/
def seenQ (s : State) (j : QReg) : Engine × Bool × BitVec 4 × PointRec :=
  ((left (step s)).st, (left (step s)).done, (left (step s)).err, readQ (left (step s)) j)

/-! ### The field unit -/

/-- V-F1. -/
theorem test_fadd_wraps : seenF (toy 200 100 0x00010210) 2 = (.idle, true, 0, 77) := by decide +kernel

/-- V-F23: an operand equal to the modulus. -/
theorem test_fadd_range : seenF (toy 223 0 0x00010210) 2 = (.fault, false, 5, 0) := by decide +kernel

/-- V-F5. -/
theorem test_fsub_borrows : seenF (toy 5 10 0x00010211) 2 = (.idle, true, 0, 218) := by decide +kernel

/-- V-F7: the negation of 0 is 0, not `p`. -/
theorem test_fsub_zero : seenF (toy 0 0 0x00010211) 2 = (.idle, true, 0, 0) := by decide +kernel

/-- V-F9. -/
theorem test_fmul : seenF (toy 17 13 0x00010212) 2 = (.idle, true, 0, 221) := by decide +kernel

/-- V-F26: a 512-bit product on R-SECP, `(p−1)·(p−1) = 1`. -/
theorem test_fmul_wide :
    seenF (flight (2 ^ 256 - 2 ^ 32 - 977) 0 7
      #v[BitVec.ofNat 256 (2 ^ 256 - 2 ^ 32 - 978), 0, 0, 0, 0, 0, 0, 0] State.reset.q 0x00000212) 2 = (.idle, true, 0, 1) := by
  decide +kernel

/-- V-F12. -/
theorem test_fdiv : seenF (toy 2 7 0x00010213) 2 = (.idle, true, 0, 64) := by decide +kernel

/-- V-F15: `0 / 0` faults. -/
theorem test_fdiv_by_zero : seenF (toy 0 0 0x00010213) 2 = (.fault, false, 4, 0) := by decide +kernel

/-- V-F26: the inverse of 2 on R-SECP is `(p+1)/2`. -/
theorem test_finv_wide :
    seenF (flight (2 ^ 256 - 2 ^ 32 - 977) 0 7 #v[2, 0, 0, 0, 0, 0, 0, 0] State.reset.q 0x00000114) 1
      = (.idle, true, 0, 0x7FFFFFFFFFFFFFFFFFFFFFFFFFFFFFFFFFFFFFFFFFFFFFFFFFFFFFFF7FFFFE18) := by decide +kernel

/-- V-F25: a divisor that shares a factor with a composite modulus. -/
theorem test_finv_composite :
    seenF (flight 15 0 0 #v[10, 0, 0, 0, 0, 0, 0, 0] State.reset.q 0x00000114) 1 = (.fault, false, 4, 0) := by decide +kernel

/-- V-F22: the exponent is all 256 bits, not reduced. -/
theorem test_fpow_wide : seenF (toy 5 (2 ^ 256 - 1) 0x00010315) 3 = (.idle, true, 0, 27) := by decide +kernel

/-- V-F18: `0 ^ 0 = 1`. -/
theorem test_fpow_zero_zero : seenF (toy 0 0 0x00010315) 3 = (.idle, true, 0, 1) := by decide +kernel

/-! ### The point unit -/

/-- V-P1. -/
theorem test_pnew : seenQ (toy 192 105 0x00010020) 0 = (.idle, true, 0, tp 192 105) := by decide +kernel

/-- V-P2, V-B5: off the curve; the destination is not written and `ERRCMD` holds the word. -/
theorem test_pnew_off_curve :
    seenQ (toy 192 106 0x00010020) 0 = (.fault, false, 1, emptyPoint) ∧
    (left (step (toy 192 106 0x00010020))).errcmd = 0x00010020 := by decide +kernel

/-- V-P4. -/
theorem test_pinf :
    seenQ (toy 0 0 0x00000321) 3 = (.idle, true, 0, infPoint 0 7 223) ∧
    memRead (left (step (toy 0 0 0x00000321))) 0x500 = 3 := by decide +kernel

/-- V-F24: with no modulus loaded. -/
theorem test_pinf_bad_modulus : seenQ { State.reset with st := .busy, cmdr := 0x00000321 } 3 = (.fault, false, 6, emptyPoint) := by
  decide +kernel

/-- V-P5: chord. -/
theorem test_padd_chord :
    seenQ (toyQ (tp 192 105) (tp 170 142) 0 0x00010222) 2 = (.idle, true, 0, tp 32 153) := by decide +kernel

/-- V-P19: tangent, the destination being both sources. -/
theorem test_padd_tangent_in_place :
    seenQ (toyQ (tp 192 105) emptyPoint 0 0x00000022) 0 = (.idle, true, 0, tp 49 71) := by decide +kernel

/-! ### The scalar unit -/

/-- V-S3: 21 times a point of order 21. -/
theorem test_smul_order :
    seenQ (toyQ (tp 47 71) emptyPoint 21 0x00020130) 1 = (.idle, true, 0, infPoint 0 7 223) := by decide +kernel

/-- V-S17: the unused doubling of the last iteration faults for `p = 2`. -/
theorem test_smul_unused_doubling_faults :
    seenQ (flight 2 0 0 #v[0, 0, 1, 0, 0, 0, 0, 0] #v[affPoint 1 1 0 0 2, emptyPoint, emptyPoint, emptyPoint] 0x00020130) 1
      = (.fault, false, 4, emptyPoint) := by decide +kernel

/-- R186: the worked trace, after iteration 3 of `k = 21`. -/
theorem test_smul_trace :
    iterations 3 (loopStart (tp 47 71) 21) = .ok ⟨tp 126 96, tp 116 55, 2⟩ := by decide +kernel

/-! ### The port and the clock -/

/-- V-B10: one word of `F0` is replaced, the other words keep their value. -/
theorem test_write_word :
    readF (memWrite { State.reset with f := #v[2 ^ 32 + 2, 0, 0, 0, 0, 0, 0, 0] } 0x100 5) 0 = 2 ^ 32 + 5 := by decide +kernel

/-- V-B9: the word order of the modulus of R-SECP. -/
theorem test_word_order :
    let s := { State.reset with curve := ⟨BitVec.ofNat 256 (2 ^ 256 - 2 ^ 32 - 977), 0, 7⟩ }
    memRead s 0x040 = 0xFFFFFC2F ∧ memRead s 0x044 = 0xFFFFFFFE ∧ memRead s 0x05C = 0xFFFFFFFF ∧ memRead s 0x080 = 7 := by
  decide +kernel

/-- V-B8: the point register's words, and writes to it and to `ERR` dropped. -/
theorem test_point_words :
    let s := { State.reset with q := #v[tp 192 105, emptyPoint, emptyPoint, emptyPoint] }
    memRead s 0x200 = 1 ∧ memRead s 0x220 = 192 ∧ memWrite s 0x200 0 = s ∧ memWrite s 0x220 1 = s ∧ memWrite s 0x008 15 = s := by
  decide +kernel

/-- V-B2: an issue with a latency of three edges: `STATUS` reads `BUSY` after it. -/
theorem test_issue :
    let s := { State.reset with host := [wr 0x010 0x00010210], lats := [2] }
    (left (step s)).st = .busy ∧ (left (step s)).left = 2 ∧ memRead (left (step s)) 0x004 = 1 ∧
    memRead (left (step s)) 0x010 = 0x00010210 := by decide +kernel

/-- V-B3: a write and a second issue while a command is in flight are dropped. -/
theorem test_dropped_while_busy :
    memWrite (toy 200 100 0x00010210) 0x100 1 = toy 200 100 0x00010210 ∧
    memWrite (toy 200 100 0x00010210) 0x010 0x00010211 = toy 200 100 0x00010210 := by decide +kernel

/-- V-B4: `irq` follows `DONE` until the host clears it. -/
theorem test_irq :
    let s := { State.reset with ieDone := true, done := true }
    irq s = true ∧ memRead (memWrite s 0x004 2) 0x004 = 0 ∧ irq (memWrite s 0x004 2) = false := by decide +kernel

/-- V-B11: a soft reset at the very edge of a completion wins. -/
theorem test_soft_reset_wins :
    let s := { toy 200 100 0x00010210 with host := [wr 0x000 1] }
    (left (step s)).st = .idle ∧ (left (step s)).done = false ∧ readF (left (step s)) 2 = 0 ∧ (left (step s)).curve.p = 0 := by
  decide +kernel

/-- V-B12: `CTRL` is writable while `BUSY`. -/
theorem test_ctrl_while_busy :
    memRead (memWrite (toy 200 100 0x00010210) 0x000 6) 0x000 = 6 ∧
    (memWrite (toy 200 100 0x00010210) 0x000 6).st = .busy := by decide +kernel

/-- V-B7: reserved and misaligned addresses read 0. -/
theorem test_reserved_reads :
    [0x014#11, 0x0A0#11, 0x204#11, 0x2C0#11, 0x600#11, 0x7FC#11, 0x101#11].all
      (fun a => decide (memRead (toyQ (tp 47 71) (tp 47 71) 5 0) a = 0)) = true := by decide +kernel

/-- R104: a `WAIT` line stays while `BUSY`, and ends with the word it reads when `BUSY` is clear. -/
theorem test_wait :
    (left (step { toy 200 100 0x00010210 with host := [.wait], left := 1 })).host = [.wait] ∧
    (left (step { State.reset with host := [.wait], done := true })).host = [] ∧
    (left (step { State.reset with host := [.wait], done := true })).got = [2] := by decide +kernel

/-! ### Witnesses: each statement's hypotheses hold together somewhere, clause by clause, at the ends of their ranges -/

theorem witness_CommandWordsAreTheTableRows :
    (∃ i, decode 0x00020130#32 = .ok i) ∧ ∃ r ∈ opcodeRows, r.takes 0x00020130#32 = true :=
  ⟨⟨_, rfl⟩, ⟨"SMUL", 0x00000030#32, 0xFFF8CCFF#32⟩, by decide, by decide⟩

theorem witness_IllegalWordsAreTheFiveClasses :
    ∃ s : State, s.cmdr = 0x00100010#32 ∧ ∃ e, decode 0x00100010#32 = .error e :=
  ⟨{ State.reset with cmdr := 0x00100010#32 }, rfl, .zeroField, by decide⟩

theorem witness_StepCompletesTheCommandInFlight :
    let s := toy 200 100 0x00010210
    s.st = .busy ∧ s.left = 0 ∧ decode s.cmdr = .ok (.fadd 2 0 1) ∧ s.host = [] ∧
    { s with host := [.wait] }.host = .wait :: [] ∧
    ({ s with host := [wr 0x000 6] }.host = .cycle (writeCycle 0x000 6) :: [] ∧ ResetInputs (writeCycle 0x000 6) = false) ∧
    ResetInputs (readCycle 0x000) = false := by decide

theorem witness_EveryCommandInFlightEnds :
    ∃ s : State, s.st = .busy ∧ s.left = 3 ∧ s.host = [.wait] :=
  ⟨{ toy 200 100 0x00010210 with left := 3, host := [.wait] }, rfl, rfl, rfl⟩

theorem witness_IllegalCommandFaults :
    ∃ s : State, s.st = .busy ∧ s.left = 0 ∧ s.host = [] ∧ wordWellFormed s.cmdr = false :=
  ⟨toy 0 0 0x00000000, rfl, rfl, rfl, by decide⟩

theorem witness_CmdWriteIssuesInIdle :
    State.reset.st = .idle ∧ (toy 0 0 0).st ≠ .idle := by decide

/-- One state for each row of R39: the five kinds of step all happen. -/
theorem witness_EngineStateTransitions :
    (isNext (step { toy 0 0 0 with host := [.cycle resetCycle] }) = true ∧
      ResetInputs (hostInputs { toy 0 0 0 with host := [.cycle resetCycle] }) = true) ∧
    (isNext (step { State.reset with host := [wr 0x010 0] }) = true ∧
      ResetInputs (hostInputs { State.reset with host := [wr 0x010 0] }) = false ∧
      IssueInputs (hostInputs { State.reset with host := [wr 0x010 0] }) = true) ∧
    (isNext (step State.reset) = true ∧ ResetInputs (hostInputs State.reset) = false ∧ State.reset.st = .idle) ∧
    (isNext (step { toy 0 0 0 with left := 1 }) = true ∧ ResetInputs (hostInputs { toy 0 0 0 with left := 1 }) = false) ∧
    (isNext (step (toy 0 0 0)) = true ∧ (toy 0 0 0).left = 0 ∧ ResetInputs (hostInputs (toy 0 0 0)) = false) ∧
    (isNext (step { State.reset with st := .fault }) = true ∧ ResetInputs (hostInputs { State.reset with st := .fault }) = false) := by
  decide +kernel

/-- The ends of the reserved ranges. -/
theorem witness_ReadReturnsTheMappedWord :
    (0x001#11).toNat % 4 ≠ 0 ∧ (0x014 ≤ (0x03C#11).toNat ∧ (0x03C#11).toNat < 0x040) ∧
    (0x0A0 ≤ (0x0A0#11).toNat ∧ (0x0A0#11).toNat < 0x100) ∧
    (0x200 ≤ (0x21C#11).toNat ∧ (0x21C#11).toNat < 0x600 ∧ 0x04 ≤ (0x21C#11).toNat % 0x100 ∧ (0x21C#11).toNat % 0x100 < 0x20) ∧
    (0x200 ≤ (0x5C0#11).toNat ∧ (0x5C0#11).toNat < 0x600 ∧ 0xC0 ≤ (0x5C0#11).toNat % 0x100) ∧ 0x600 ≤ (0x7FC#11).toNat := by decide

/-- Each item of R67 applies somewhere: to the state and word, and (item 6) to an address. -/
theorem witness_WriteDoesTheFirstThatApplies :
    (1#32).getLsbD 0 = true ∧ (6#32).getLsbD 0 = false ∧ ((toy 0 0 0).st ≠ .idle ∧ (0x100#11) ≠ 0) ∧ State.reset.st = .idle ∧
    (∃ j k : Fin 8, j ≠ k) ∧
    ((0x7FC#11) ≠ 0 ∧ (0x7FC#11) ≠ 0x004 ∧ (0x7FC#11) ≠ 0x010 ∧
      ¬((0x7FC#11).toNat % 4 = 0 ∧ ((0x040 ≤ (0x7FC#11).toNat ∧ (0x7FC#11).toNat < 0x0A0) ∨
        (0x100 ≤ (0x7FC#11).toNat ∧ (0x7FC#11).toNat < 0x200)))) := by decide

/-- The reset state with a program for the host. -/
def at_host (h : List HostLine) : State := { State.reset with host := h }

/-- Each kind of line, from a state with no command in flight and from one with. -/
theorem witness_StepMakesTheHostsTransaction :
    (State.reset.st ≠ .busy ∧ State.reset.host = []) ∧ (at_host [.wait]).host = [.wait] ∧
    (at_host [wr 0x040 1]).host = [.cycle ⟨true, true, true, 0x040, 1⟩] ∧
    (at_host [rd 0x040]).host = [.cycle ⟨true, true, false, 0x040, 0⟩] ∧
    (at_host [.cycle idleCycle]).host = [.cycle ⟨true, false, false, 0, 0⟩] ∧
    ({ toy 0 0 0 with left := 1 }.st = .busy ∧ { toy 0 0 0 with left := 1 }.host = []) := by decide

theorem witness_WritesAreDroppedUnlessIdle :
    (toy 0 0 0).st ≠ .idle ∧ { State.reset with st := .fault }.st ≠ .idle ∧ (0x010#11) ≠ 0 := by decide

theorem witness_EngineRegistersAreReadOnlyToTheHost :
    (0x008#11 = 0x008) ∧ (0x00C#11 = 0x00C) ∧ (0x200 ≤ (0x200#11).toNat ∧ (0x5FF#11).toNat < 0x600) ∧
    isNext (step State.reset) = true ∧ ResetInputs (hostInputs State.reset) = false ∧
    ¬(State.reset.st = .busy ∧ State.reset.left = 0) := by decide +kernel

theorem witness_CompletionAndTransactionAtOneEdge :
    (toy 200 100 0x00010210).st = .busy ∧ (toy 200 100 0x00010210).left = 0 ∧ (0x004#11) ≠ 0 ∧
    (6#32).getLsbD 0 = false ∧ (1#32).getLsbD 0 = true ∧ resetCycle.rstN = false := by decide

theorem witness_EightWordWritesStoreTheValue : ∃ s : State, s.st = .idle := ⟨State.reset, rfl⟩

theorem witness_ResetClearsEveryRegister :
    (∃ t : State, t = State.reset) ∧
    (∃ s p, ResetInputs p = true ∧ p.rstN = true ∧ (portEdge p s).st = .idle ∧ s.st = .busy) ∧
    (∃ p, ResetInputs p = true ∧ p.rstN = false) :=
  ⟨⟨_, rfl⟩, ⟨toy 0 0 0, writeCycle 0 1, by decide⟩, resetCycle, by decide⟩

theorem witness_BothResetsWinInAnyState :
    ({ toy 0 0 0 with host := [.cycle resetCycle] }.host = .cycle resetCycle :: [] ∧ resetCycle.rstN = false) ∧
    ({ toy 0 0 0 with host := [wr 0 1] }.host = .cycle (writeCycle 0 1) :: [] ∧ (writeCycle 0 1).sel = true ∧
      (writeCycle 0 1).we = true ∧ (writeCycle 0 1).addr = 0 ∧ (writeCycle 0 1).wdata.getLsbD 0 = true) := by decide

theorem witness_NoCommandSucceedsFromReset :
    SameRegisters { State.reset with st := .busy, cmdr := encode (.padd 0 0 0), left := 5 }
      { State.reset with st := .busy, cmdr := encode (.padd 0 0 0) } := by constructor <;> rfl

/-- A state with a point, an identity and an empty register, in `IDLE`, that meets the invariant. -/
def sound : State :=
  { State.reset with curve := ⟨223, 0, 7⟩, q := #v[tp 47 71, infPoint 0 7 223, tp 6 0, emptyPoint], done := true }

theorem witness_EveryStepKeepsTheInvariant : Inv sound ∧ isNext (step sound) = true := by
  refine ⟨⟨by decide +kernel, by decide, by decide, by decide⟩, by decide +kernel⟩

/-- The invariant holds of a command in flight and of a recorded fault as well. -/
theorem witness_Inv_busy_and_fault :
    Inv { sound with st := .busy, done := false, cmdr := 0x00010222 } ∧
    Inv { sound with st := .fault, done := false, err := 8, errcmd := 7, cmdr := 7 } := by
  refine ⟨⟨by decide +kernel, by decide, by decide, by decide⟩, ⟨by decide +kernel, by decide, by decide, by decide⟩⟩

theorem witness_FaultIsFatalUntilReset :
    { State.reset with st := .fault, host := [wr 0x010 0x10] }.st = .fault ∧
    ResetInputs (hostInputs { State.reset with st := .fault, host := [wr 0x010 0x10] }) = false ∧
    isNext (step { State.reset with st := .fault, host := [wr 0x010 0x10] }) = true := by decide +kernel

/-- Every register changes somewhere, in each of the ways it can. -/
theorem witness_RegistersChangeOnlyByTheirWriters :
    (readQ (left (step (toy 192 105 0x00010020))) 0 ≠ readQ (toy 192 105 0x00010020) 0 ∧
      ResetInputs (hostInputs (toy 192 105 0x00010020)) = false) ∧
    (readF (left (step (toy 200 100 0x00010210))) 2 ≠ readF (toy 200 100 0x00010210) 2 ∧
      readF (left (step (at_host [wr 0x1FC 1]))) 7 ≠ 0) ∧
    ((left (step (at_host [wr 0x05C 1]))).curve.p ≠ 0 ∧ (left (step (at_host [wr 0x060 1]))).curve.a ≠ 0 ∧
      (left (step (at_host [wr 0x09C 1]))).curve.b ≠ 0) ∧
    ((left (step (at_host [wr 0x010 1]))).cmdr ≠ 0 ∧ (left (step (at_host [wr 0x000 4]))).ieFault ≠ false ∧
      (left (step (at_host [wr 0x000 2]))).ieDone ≠ false) ∧
    ((left (step (toy 200 100 0x00010210))).done = true ∧ (toy 200 100 0x00010210).done = false) ∧
    ((left (step { at_host [wr 0x010 1] with done := true })).done = false ∧
      (left (step { at_host [wr 0x004 2] with done := true })).done = false) := by decide +kernel

theorem witness_NothingMovesWhileACommandIsInFlight :
    { toy 200 100 0x00010210 with left := 3, host := [wr 0x000 6] }.st = .busy ∧
    ResetInputs (hostInputs { toy 200 100 0x00010210 with left := 3, host := [wr 0x000 6] }) = false ∧
    isNext (step { toy 200 100 0x00010210 with left := 3, host := [wr 0x000 6] }) = true := by decide +kernel

/-- A program of R246 after a clean reset: load 223, build the identity in `Q0`, wait, and add `Q0` to the empty `Q3`, which faults. -/
def program : State :=
  { State.reset with host := ldw 0x040 223 ++ [cmd (.pinf 0), .wait, cmd (.padd 1 0 3)], lats := [0, 0] }

/-- The states of its run, edge by edge; from the thirteenth on nothing changes. -/
def programAt (n : Nat) : State := left (Host.Core.run core n program)

theorem program_runs {n : Nat} (h : isNext (Host.Core.run core n program) = true) : After program n (programAt n) := next_left ⟨h, rfl⟩

theorem program_after {n : Nat} {u : State} (h : After program n u) : ∃ k : Fin 14, u = programAt k.val := by
  by_cases hn : n < 14
  · exact ⟨⟨n, hn⟩, by show u = left _; rw [show Host.Core.run core n program = .next u from h]; rfl⟩
  · obtain ⟨m, rfl⟩ : ∃ m, n = 13 + m := ⟨n - 13, by omega⟩
    exact ⟨13, Laws.after_fixed (next_left (by decide +kernel)) (Laws.after_rest (program_runs (by decide +kernel)) h)⟩

theorem program_loads {v : Wide} (h : LoadsModulus program v) : v = 223 := by
  obtain ⟨n, t, m, u, h1, _, _, h2, _, h3, h4, rfl⟩ := h
  obtain ⟨k, rfl⟩ := program_after (Laws.after_add h1 h2)
  exact (by decide +kernel : ∀ k : Fin 14, (programAt k.val).st = .idle → IssueInputs (hostInputs (programAt k.val)) = true →
    (programAt k.val).curve.p = 223) k h3 h4

/-- The premises of R247 hold together of a program that loads a modulus, holds a point and faults; it does load one. -/
theorem witness_PointsOfARunHavePrimeModuli :
    CleanReset program ∧ PrimeModulus program ∧ LargeModulus program ∧
    After program 10 (programAt 10) ∧ (readQ (programAt 10) 0).v = true ∧ LoadsModulus program 223 := by
  refine ⟨by constructor <;> rfl, fun v h => ?_, fun v h => ?_, program_runs (by decide +kernel), by decide +kernel, ?_⟩
  · rw [program_loads h]; show Nat.Prime 223; norm_num
  · rw [program_loads h]; decide
  · refine ⟨7, programAt 7, 1, programAt 8, program_runs (by decide +kernel), by decide +kernel, ⟨7, by decide +kernel⟩,
      next_left (by decide +kernel), ?_,
      by decide +kernel, by decide +kernel, by decide +kernel⟩
    intro k u hk hu
    obtain rfl : k = 0 := by omega
    cases hu
    decide +kernel

theorem witness_PointArithmeticOfARunNeverFailsToDivide :
    After program 13 (programAt 13) ∧ (programAt 13).st = .fault ∧ decode (programAt 13).errcmd = .ok (.padd 1 0 3) ∧
    (programAt 13).err = 7 := ⟨program_runs (by decide +kernel), by decide +kernel⟩

theorem witness_NoFaultAtTheEndMeansNoneInTheRun : Inv sound ∧ After sound 1 sound ∧ NoResetWithin sound 1 ∧ NoFault sound := by
  refine ⟨witness_EveryStepKeepsTheInvariant.1, next_left (by decide +kernel), ?_, by decide⟩
  intro k u hk hu
  obtain rfl : k = 0 := by omega
  cases hu
  decide

theorem witness_InterruptLineFollowsTheFlags : Inv sound ∧ irq { sound with ieDone := true } = true :=
  ⟨witness_EveryStepKeepsTheInvariant.1, by decide⟩

theorem witness_EngineIgnoresTheInterruptEnables : isNext (exec (.smul 1 0 2) (toyQ (tp 47 71) emptyPoint 3 0)) = true := by
  decide +kernel

theorem witness_OperandsCarryTheirCurve :
    isNext (exec (.padd 2 0 1) (toyQ (tp 47 71) (tp 47 71) 3 0)) = true ∧
    isNext (exec (.smul 1 0 2) (toyQ (tp 47 71) emptyPoint 3 0)) = true ∧
    (fieldDestination (.finv 1 0)).isSome = true ∧ isNext (exec (.finv 1 0) (toy 7 0 0)) = true := by decide +kernel

/-- A prime modulus and a composite one, a divisor with an inverse and one without. -/
theorem witness_InverseIsTheUniqueInverse :
    ((2 : Nat) ≤ 223 ∧ 7 < 223 ∧ 32 < 223 ∧ 7 * 32 % 223 = 1 ∧ Nat.gcd 7 223 = 1 ∧ finv 7 223 = .ok 32 ∧ Nat.Prime 223) ∧
    ((2 : Nat) ≤ 15 ∧ 10 < 15 ∧ Nat.gcd 10 15 ≠ 1 ∧ finv 10 15 = .error .nonInvertibleDivisor) ∧
    ((2 : Nat) ≤ 2 ∧ 0 < 2 ∧ finv 0 2 = .error .nonInvertibleDivisor) := by
  refine ⟨⟨by decide, by decide, by decide, by decide, by decide, by decide, by norm_num⟩, by decide, by decide⟩

theorem witness_PowerIsTheRepeatedProduct : (2 : Nat) ≤ 2 := by decide

/-- The three cases of the two-operand field commands, at the ends of their ranges. -/
theorem witness_field_binary :
    (flight 1 0 0 State.reset.f State.reset.q 0).curve.p.toNat < 2 ∧
    (2 ≤ (toy 222 223 0).curve.p.toNat ∧ (toy 222 223 0).curve.p.toNat ≤ (toy 222 223 0).f[(1 : FReg)].toNat) ∧
    (2 ≤ (toy 223 0 0).curve.p.toNat ∧ (toy 223 0 0).curve.p.toNat ≤ (toy 223 0 0).f[(0 : FReg)].toNat) ∧
    (2 ≤ (toy 222 222 0).curve.p.toNat ∧ (toy 222 222 0).f[(0 : FReg)].toNat < (toy 222 222 0).curve.p.toNat ∧
      (toy 222 222 0).f[(1 : FReg)].toNat < (toy 222 222 0).curve.p.toNat) := by decide

theorem witness_FaddAddsModuloP : isNext (exec (.fadd 2 0 1) (toy 222 222 0)) = true := by decide +kernel
theorem witness_FsubSubtractsModuloP : isNext (exec (.fsub 2 0 1) (toy 222 222 0)) = true := by decide +kernel
theorem witness_FmulMultipliesModuloP : isNext (exec (.fmul 2 0 1) (toy 222 222 0)) = true := by decide +kernel

/-- A divisor with an inverse and one without, both in range. -/
theorem witness_FdivDividesModuloP :
    (2 ≤ (toy 222 222 0).curve.p.toNat ∧ (toy 222 222 0).f[(0 : FReg)].toNat < (toy 222 222 0).curve.p.toNat ∧
      (toy 222 222 0).f[(1 : FReg)].toNat < (toy 222 222 0).curve.p.toNat ∧
      Nat.gcd (toy 222 222 0).f[(1 : FReg)].toNat (toy 222 222 0).curve.p.toNat = 1) ∧
    ((toy 222 0 0).f[(1 : FReg)].toNat < (toy 222 0 0).curve.p.toNat ∧
      Nat.gcd (toy 222 0 0).f[(1 : FReg)].toNat (toy 222 0 0).curve.p.toNat ≠ 1) := by decide +kernel

theorem witness_FinvInvertsModuloP :
    (2 ≤ (toy 222 0 0).curve.p.toNat ∧ (toy 222 0 0).f[(0 : FReg)].toNat < (toy 222 0 0).curve.p.toNat ∧
      Nat.gcd (toy 222 0 0).f[(0 : FReg)].toNat (toy 222 0 0).curve.p.toNat = 1) ∧
    (toy 223 0 0).curve.p.toNat ≤ (toy 223 0 0).f[(0 : FReg)].toNat ∧
    Nat.gcd (toy 0 0 0).f[(0 : FReg)].toNat (toy 0 0 0).curve.p.toNat ≠ 1 := by decide +kernel

theorem witness_FpowRaisesModuloP :
    (2 ≤ (toy 222 0 0).curve.p.toNat ∧ (toy 222 0 0).f[(0 : FReg)].toNat < (toy 222 0 0).curve.p.toNat) ∧
    (toy 223 0 0).curve.p.toNat ≤ (toy 223 0 0).f[(0 : FReg)].toNat := by decide

/-- For FieldCommandFrame and PointCommandFrame: addresses on both sides of `F2` and of `Q2`. -/
theorem witness_frames :
    (fieldDestination (.fadd 2 0 1) = some 2 ∧ isNext (exec (.fadd 2 0 1) (toy 200 100 0)) = true) ∧
    (pointDestination (.padd 2 0 1) = some 2 ∧ isNext (exec (.padd 2 0 1) (toyQ (tp 47 71) (tp 47 71) 3 0)) = true) ∧
    ((0x13F#11) ≠ 0x004 ∧ (0x13F#11) ≠ 0x008 ∧ (0x13F#11) ≠ 0x00C ∧ (0x13F#11).toNat < 0x100 + 0x20 * (2 : FReg).val) ∧
    0x120 + 0x20 * (2 : FReg).val ≤ (0x160#11).toNat ∧ (0x3FF#11).toNat < 0x200 + 0x100 * (2 : QReg).val ∧
    0x300 + 0x100 * (2 : QReg).val ≤ (0x500#11).toNat := by decide +kernel

/-- On the curve and off it, and each range test of R152 at its end. -/
theorem witness_PnewBuildsACheckedPoint :
    (2 ≤ (toy 192 105 0).curve.p.toNat ∧ (toy 192 105 0).curve.a.toNat < 223 ∧ (toy 192 105 0).curve.b.toNat < 223 ∧
      105 * 105 ≡ 192 ^ 3 + 0 * 192 + 7 [MOD 223]) ∧
    ¬(106 * 106 ≡ 192 ^ 3 + 0 * 192 + 7 [MOD 223]) ∧
    (flight 223 223 7 State.reset.f State.reset.q 0).curve.p.toNat ≤ (flight 223 223 7 State.reset.f State.reset.q 0).curve.a.toNat ∧
    (flight 1 0 0 State.reset.f State.reset.q 0).curve.p.toNat < 2 := by decide

theorem witness_PinfBuildsTheIdentity :
    (2 ≤ (toy 0 0 0).curve.p.toNat ∧ (toy 0 0 0).curve.a.toNat < (toy 0 0 0).curve.p.toNat ∧
      (toy 0 0 0).curve.b.toNat < (toy 0 0 0).curve.p.toNat) ∧
    (flight 7 0 7 State.reset.f State.reset.q 0).curve.p.toNat ≤ (flight 7 0 7 State.reset.f State.reset.q 0).curve.b.toNat ∧
    State.reset.curve.p.toNat < 2 := by decide

theorem witness_PaddChecksPointsThenCurves :
    (toyQ (tp 47 71) emptyPoint 0 0).q[(1 : QReg)].v = false ∧
    ((toyQ (infPoint 0 7 223) (infPoint 0 8 223) 0 0).q[(0 : QReg)].v = true ∧
      (toyQ (infPoint 0 7 223) (infPoint 0 8 223) 0 0).q[(1 : QReg)].v = true ∧
      ¬OneCurve (toyQ (infPoint 0 7 223) (infPoint 0 8 223) 0 0).q[(0 : QReg)] (toyQ (infPoint 0 7 223) (infPoint 0 8 223) 0 0).q[(1 : QReg)]) := by
  decide

/-- The three cases of R156, the inverse pair V-P8 and the vertical tangent V-P9. -/
theorem witness_PaddIdentityIsNeutral :
    OneCurve (infPoint 0 7 223) (infPoint 0 7 223) ∧ OneCurve (infPoint 0 7 223) (tp 47 71) ∧ OneCurve (tp 47 71) (infPoint 0 7 223) ∧
    (infPoint 0 7 223).v = true ∧ (infPoint 0 7 223).inf = true ∧ (tp 47 71).v = true ∧ (tp 47 71).inf = false := by decide

theorem witness_PaddInverseAndVerticalGiveIdentity :
    (OneCurve (tp 47 71) (tp 47 152) ∧ (tp 47 71).x = (tp 47 152).x ∧ (tp 47 71).y ≠ (tp 47 152).y) ∧
    (OneCurve (tp 6 0) (tp 6 0) ∧ (tp 6 0).y = (tp 6 0).y ∧ (tp 6 0).y = 0) := by decide

/-- Two points with an invertible difference (V-P5), and two without (V-P15). -/
theorem witness_PaddChordIsTheThirdPoint :
    (PointValid (tp 192 105) ∧ PointValid (tp 170 142) ∧ OneCurve (tp 192 105) (tp 170 142) ∧ (tp 192 105).inf = false ∧
      (tp 170 142).inf = false ∧ (tp 192 105).x ≠ (tp 170 142).x ∧ Int.gcd ((170 : Int) - 192) 223 = 1) ∧
    (PointValid (affPoint 1 1 0 0 15) ∧ PointValid (affPoint 4 8 0 0 15) ∧ OneCurve (affPoint 1 1 0 0 15) (affPoint 4 8 0 0 15) ∧
      Int.gcd ((4 : Int) - 1) 15 ≠ 1) := by
  refine ⟨⟨?_, ?_, ?_, ?_, ?_, ?_, ?_⟩, ?_, ?_, ?_, ?_⟩ <;> decide

/-- A doubling (V-P7), and one whose denominator has no inverse (V-P16). -/
theorem witness_PaddTangentIsTheThirdPoint :
    (PointValid (tp 192 105) ∧ (tp 192 105).inf = false ∧ (tp 192 105).y ≠ 0 ∧ Int.gcd (2 * (105 : Int)) 223 = 1) ∧
    (PointValid (affPoint 1 1 0 0 2) ∧ (affPoint 1 1 0 0 2).y ≠ 0 ∧ Int.gcd (2 * (1 : Int)) 2 ≠ 1) := by decide

/-- For RevalidationNeverFails, AddNeverFaultsOnAnOddPrime, AddCommutes and AddIsAssociative. -/
theorem witness_group_law :
    (PointValid (tp 192 105) ∧ PointValid (tp 170 142) ∧ PointValid (infPoint 0 7 223) ∧ OneCurve (tp 192 105) (tp 170 142) ∧
      OneCurve (tp 170 142) (infPoint 0 7 223) ∧ NonSingular (tp 192 105)) ∧ OddPrime (tp 192 105) := by
  refine ⟨by decide, ?_⟩
  show Nat.Prime 223 ∧ 2 < 223
  norm_num

/-- For the fault half of AddCommutes: two valid points over a composite modulus whose sum faults (V-P15). -/
theorem witness_AddCommutes_fault :
    PointValid (affPoint 1 1 0 0 15) ∧ PointValid (affPoint 4 8 0 0 15) ∧
    addPoints (affPoint 1 1 0 0 15) (affPoint 4 8 0 0 15) = .error .nonInvertibleDivisor := by
  refine ⟨by decide, by decide, by decide +kernel⟩

theorem witness_SmulIsDoubleAndAdd :
    (toyQ emptyPoint emptyPoint 1 0).q[(0 : QReg)].v = false ∧ (toyQ (tp 47 71) emptyPoint 0 0).q[(0 : QReg)].v = true ∧
    DoubleAndAdd (toyQ (tp 47 71) emptyPoint 0 0).f[(2 : FReg)].toNat (infPoint 0 7 223) (tp 47 71) (.ok (infPoint 0 7 223)) ∧
    DoubleAndAdd 1 (infPoint 0 0 2) (affPoint 1 1 0 0 2) (.error .nonInvertibleDivisor) :=
  ⟨by decide, by decide, .finished _ _, .accumulateThenDoubleFaults rfl (by decide : addPoints _ _ = .ok (affPoint 1 1 0 0 2)) (by decide)⟩

theorem witness_SmulOfZeroOneAndIdentity :
    (toyQ (tp 47 71) emptyPoint 0 0).f[(2 : FReg)] = 0 ∧ (toyQ (infPoint 0 7 223) emptyPoint 5 0).q[(0 : QReg)].inf = true ∧
    ((toyQ (tp 47 71) emptyPoint 1 0).f[(2 : FReg)] = 1 ∧ PointValid (toyQ (tp 47 71) emptyPoint 1 0).q[(0 : QReg)]) ∧
    OddPrime (toyQ (tp 47 71) emptyPoint 1 0).q[(0 : QReg)] := by
  refine ⟨by decide, by decide, by decide, ?_⟩
  show Nat.Prime 223 ∧ 2 < 223
  norm_num

theorem witness_SmulRunsBitlenIterations :
    iterations 3 (loopStart (tp 47 71) 21) = .ok ⟨tp 126 96, tp 116 55, 2⟩ ∧ bitlen 21 = 5 := by decide +kernel

/-- For SmulCommitsOnAnOddPrime and SmulIsRepeatedAddition. -/
theorem witness_SmulOnAnOddPrime :
    (PointValid (toyQ (tp 47 71) emptyPoint (2 ^ 256 - 1) 0).q[(0 : QReg)] ∧
      NonSingular (toyQ (tp 47 71) emptyPoint (2 ^ 256 - 1) 0).q[(0 : QReg)]) ∧
    OddPrime (toyQ (tp 47 71) emptyPoint (2 ^ 256 - 1) 0).q[(0 : QReg)] := by
  refine ⟨by decide, ?_⟩
  show Nat.Prime 223 ∧ 2 < 223
  norm_num

/-! ### The interface -/

/-- The fetched word runs as the first command after reset: a `FADD` with no modulus loaded takes `BadModulus` (V-F24). -/
theorem test_withFetchWord :
    decodeTableWord 32 0x10 = some (.fadd 0 0 0) ∧ (left (step (State.reset.withFetchWord 32 0x10))).err = 6 ∧
    (left (step (State.reset.withFetchWord 32 0x10))).errcmd = 0x10 := by decide +kernel

/-- R2, R8: the recorded width is the width of the values. -/
theorem test_identity : Wide = BitVec Config.identity.width ∧ Config.identity.commandSet = "ECPE-1" := ⟨rfl, rfl⟩

/-! ### The longest scalar (last, since the kernel takes longest over it) -/

/-- V-S15: the all-ones scalar runs 256 iterations and is not negative. -/
theorem test_smul_all_ones :
    seenQ (toyQ (tp 47 71) emptyPoint (2 ^ 256 - 1) 0x00020130) 1 = (.idle, true, 0, tp 139 86) := by decide +kernel

end Sys2Proof.Tests
end

section
/-! How a command and a step end (`00_scope.md` R17; `60_exceptions.md` R200, R214). -/

namespace Sys2Proof.Proofs

open Sys2Proof.Machine Sys2Proof.Safety Sys2Proof.Laws

/-- The codes a command can raise are 1, 2, 4, 5, 6 and 7 (R200). -/
theorem faultNumber_mem_of_raised {c : FaultCode} (h : Raised c) : faultNumber c ∈ [1#4, 2#4, 4#4, 5#4, 6#4, 7#4] := by
  obtain ⟨not_negativeScalar, not_illegalCommand⟩ := h
  cases c with
  | negativeScalar => exact absurd rfl not_negativeScalar
  | illegalCommand => exact absurd rfl not_illegalCommand
  | _ => decide

/-- Settles O23: each end of a command in `exec_ends` is a commit or a fault, with `SMUL`'s loop registers dropped or not. -/
theorem commandsCommitOrFaultPrecisely : Obligations.CommandsCommitOrFaultPrecisely := by
  intro i s
  obtain ⟨d, v, _, e⟩ | ⟨d, r, _, e | ⟨_, e⟩⟩ | ⟨c, hc, e | ⟨_, e⟩⟩ := exec_ends i s
  · exact ⟨_, e, .inl ⟨rfl, rfl, rfl, rfl⟩⟩
  · exact ⟨_, e, .inl ⟨rfl, rfl, rfl, rfl⟩⟩
  · exact ⟨_, e, .inl ⟨rfl, rfl, rfl, rfl⟩⟩
  · exact ⟨_, e, .inr ⟨rfl, faultNumber_mem_of_raised hc⟩⟩
  · exact ⟨_, e, .inr ⟨rfl, faultNumber_mem_of_raised hc⟩⟩

theorem engineComplete_next (s : State) : ∃ t, engineComplete s = .next t := by
  obtain ⟨i, _, e⟩ | ⟨_, _, e⟩ := engineComplete_cases s
  · obtain ⟨t, ht, _⟩ := commandsCommitOrFaultPrecisely i s
    exact ⟨t, e.trans ht⟩
  · exact ⟨_, e⟩

theorem engineEdge_next (s : State) : ∃ t, engineEdge s = .next t := by
  unfold engineEdge
  cases s.left with
  | zero => exact engineComplete_next s
  | succ n => exact ⟨_, rfl⟩

theorem clockEdge_next (p : PortIn) (s : State) : ∃ t, clockEdge p s = .next t := by
  unfold clockEdge
  split
  · exact engineEdge_next _
  · exact ⟨_, rfl⟩

/-- Settles O9: the port's part of an edge is a state, and so is what the engine makes of it. -/
theorem noStepStops : Obligations.NoStepStops := fun _ => clockEdge_next _ _

end Sys2Proof.Proofs
end

section
/-! Where the modulus of a point comes from: what one completion and one step do to `CURVE.P`, to `ST` and to the point registers
(`10_state.md` R27, R30, R39; `41_point.md` R152, R153, R162; `42_scalar.md` R188). -/

namespace Sys2Proof.Proofs

open Sys2Proof.Machine Sys2Proof.Safety Sys2Proof.Laws

/-- The modulus of the record `r` is `CURVE.P`, and one that `FieldPre` lets pass, or that of a point which a register of `s` holds. -/
def ModulusFrom (s : State) (r : PointRec) : Prop :=
  (2 ≤ modulus s ∧ r.cp = s.curve.p) ∨ ∃ k : QReg, (readQ s k).v = true ∧ r.cp = (readQ s k).cp

theorem modulusFrom_of_register {s : State} {j : QReg} (hv : (readQ s j).v = true) : ModulusFrom s (readQ s j) :=
  .inr ⟨j, hv, rfl⟩

/-- A new point's curve is the one it is made with (R151). -/
theorem pointNew_cp {k : Coords} {a b p : Nat} {r : PointRec} (h : pointNew k a b p = .ok r) : r.cp = BitVec.ofNat 256 p := by
  cases k with
  | identity => cases h; rfl
  | affine x y =>
    obtain ⟨_, e⟩ | ⟨_, e⟩ := pointNew_affine_cases x y a b p
    · rw [e] at h; cases h; rfl
    · rw [e] at h; cases h

/-- `PNEW` and `PINF` build points on the curve in `CURVE` (R152, R153). -/
theorem modulusFrom_of_pointNew {s : State} {vs : List Nat} {k : Coords} {a b : Nat} {r : PointRec}
    (h : withFieldPre (modulus s) vs (pointNew k a b (modulus s)) = .ok r) : ModulusFrom s r := by
  obtain ⟨_, e⟩ | ⟨_, _, e⟩ | ⟨hp, _, e⟩ := withFieldPre_cases (modulus s) vs (pointNew k a b (modulus s))
  all_goals rw [e] at h
  · cases h
  · cases h
  · exact .inl ⟨hp, (pointNew_cp h).trans (by simp [modulus])⟩

/-- `PADD` answers a point on its first source's curve (R162). -/
theorem modulusFrom_of_addPoints {s : State} {a b : QReg} {r : PointRec}
    (h : withPoints [readQ s a, readQ s b] (addPoints (readQ s a) (readQ s b)) = .ok r) : ModulusFrom s r := by
  obtain ⟨_, e⟩ | ⟨hv, e⟩ := withPoints_cases [readQ s a, readQ s b] (addPoints (readQ s a) (readQ s b))
  all_goals rw [e] at h
  · cases h
  · have ha : (readQ s a).v = true := hv _ (by simp)
    have hb : (readQ s b).v = true := hv _ (by simp)
    obtain ⟨_, _, _, hcp⟩ := addPoints_curve ha hb h
    exact .inr ⟨a, ha, hcp⟩

/-- `SMUL` answers a point on its source's curve (R188). -/
theorem modulusFrom_of_loopRun {s : State} {n : Nat} {a : QReg} {k : Wide} {l : LoopRegs} (hv : (readQ s a).v = true)
    (h : loopRun n (loopStart (readQ s a) k) = .ok l) : ModulusFrom s l.acc := by
  obtain ⟨_, _, _, hcp⟩ := loopRun_curve (l := loopStart (readQ s a) k) rfl hv h
  exact .inr ⟨a, hv, hcp.trans (by simp [loopStart, infOn_eq])⟩

/-- The points of `t` all have moduli from `s`. -/
def PointsFrom (s t : State) : Prop := ∀ j : QReg, (readQ t j).v = true → ModulusFrom s (readQ t j)

theorem pointsFrom_of_q {s t : State} (h : t.q = s.q) : PointsFrom s t := by
  intro j hv
  rw [show readQ t j = readQ s j by rw [readQ, h, readQ]] at hv ⊢
  exact modulusFrom_of_register hv

theorem pointsFrom_of_writeQ {s t : State} {d : QReg} {r : PointRec} (h : t.q = (writeQ s d r).q) (hr : ModulusFrom s r) :
    PointsFrom s t := by
  intro j hv
  rw [show readQ t j = readQ (writeQ s d r) j by rw [readQ, h, readQ], readQ_writeQ] at hv ⊢
  split at hv
  · rwa [if_pos ‹_›]
  · rw [if_neg ‹_›]; exact modulusFrom_of_register hv

theorem pointsFrom_of_finishF {s t : State} {d : FReg} {r : Except FaultCode Nat} (h : finishF d r s = .next t) :
    PointsFrom s t := by
  obtain ⟨v, _, e⟩ | ⟨c, _, e⟩ := finishF_cases d r s
  all_goals rw [e] at h; cases h; exact pointsFrom_of_q rfl

theorem pointsFrom_of_finishQ {s t : State} {d : QReg} {r : Except FaultCode PointRec} (h : finishQ d r s = .next t)
    (hr : ∀ R, r = .ok R → ModulusFrom s R) : PointsFrom s t := by
  obtain ⟨R, hR, e⟩ | ⟨c, _, e⟩ := finishQ_cases d r s
  all_goals rw [e] at h; cases h
  · exact pointsFrom_of_writeQ rfl (hr R hR)
  · exact pointsFrom_of_q rfl

/-- No command makes a point on any other curve than `CURVE`'s or a source's. -/
theorem exec_pointsFrom {i : Instr} {s t : State} (h : exec i s = .next t) : PointsFrom s t := by
  cases i with
  | fadd | fsub | fmul | fdiv | finv | fpow => exact pointsFrom_of_finishF h
  | pnew | pinf => exact pointsFrom_of_finishQ h fun _ => modulusFrom_of_pointNew
  | padd => exact pointsFrom_of_finishQ h fun _ => modulusFrom_of_addPoints
  | smul d a k =>
    obtain ⟨_, e⟩ | ⟨hv, ⟨c, _, e⟩ | ⟨l, hl, e⟩⟩ := execSmul_cases d a k s
    all_goals cases e.symm.trans h
    · exact pointsFrom_of_q rfl
    · exact pointsFrom_of_q rfl
    · exact pointsFrom_of_writeQ rfl (modulusFrom_of_loopRun hv hl)

theorem PointsFrom.congr {s s' t : State} (h : PointsFrom s t) (hq : s.q = s'.q) (hc : s.curve = s'.curve) :
    PointsFrom s' t := by
  unfold PointsFrom ModulusFrom modulus readQ at *
  rwa [← hq, ← hc]

/-- A completion leaves `CURVE` alone and ends `BUSY` (R39). -/
theorem exec_curve_st {i : Instr} {s t : State} (h : exec i s = .next t) : t.curve = s.curve ∧ t.st ≠ .busy := by
  obtain ⟨d, v, _, e⟩ | ⟨d, r, _, e | ⟨_, e⟩⟩ | ⟨c, _, e | ⟨_, e⟩⟩ := exec_ends i s
  all_goals cases e.symm.trans h; exact ⟨rfl, nofun⟩

theorem engineComplete_frame {s t : State} (h : engineComplete s = .next t) :
    t.curve = s.curve ∧ t.st ≠ .busy ∧ PointsFrom s t := by
  obtain ⟨i, _, e⟩ | ⟨_, _, e⟩ := engineComplete_cases s
  · obtain ⟨hc, hb⟩ := exec_curve_st (e.symm.trans h)
    exact ⟨hc, hb, exec_pointsFrom (e.symm.trans h)⟩
  · cases e.symm.trans h
    exact ⟨rfl, nofun, pointsFrom_of_q rfl⟩

/-- The kinds of step from `s` to `t`, by what they mean for the moduli in the machine: of `CURVE`, of a command in flight, of points. -/
inductive ModuliStep (s t : State) : Prop where
  | reset (curve : t.curve.p = 0) (st : t.st ≠ .busy) (points : ∀ j : QReg, (readQ t j).v = false)
  | issue (noReset : ResetInputs (hostInputs s) = false) (idle : s.st = .idle) (issues : IssueInputs (hostInputs s) = true)
      (curve : t.curve.p = s.curve.p) (points : t.q = s.q)
  | writeModulus (noReset : ResetInputs (hostInputs s) = false) (idle : s.st = .idle)
      (writes : WideWriteInputs (hostInputs s) 0x040) (st : t.st ≠ .busy) (points : t.q = s.q)
  | complete (noReset : ResetInputs (hostInputs s) = false) (busy : s.st = .busy) (st : t.st ≠ .busy)
      (curve : t.curve.p = s.curve.p) (points : PointsFrom s t)
  | other (noReset : ResetInputs (hostInputs s) = false) (st : t.st = .busy → s.st = .busy)
      (curve : t.curve.p = s.curve.p) (points : t.q = s.q)

/-- In `IDLE` the inputs of an edge issue a command, write a word of `CURVE.P`, or do neither (R67). -/
theorem portEdge_moduliStep {s u : State} (hr : ResetInputs (hostInputs s) = false) (hs : s.st = .idle) (hst : u.st = s.st)
    (hc : u.curve = s.curve) (hq : u.q = s.q) : ModuliStep s (portEdge (hostInputs s) u) := by
  have hb : u.st ≠ .busy := by rw [hst, hs]; nofun
  have hp : u.curve.p = s.curve.p := by rw [hc]
  obtain ⟨hi, e⟩ | ⟨_, e | ⟨_, _, _, e⟩ | ⟨_, _, e⟩ | ⟨hw, _, e⟩ | ⟨_, _, e⟩ | ⟨_, _, e⟩ | ⟨_, _, _, e⟩⟩ :=
    portEdge_idle (s := u) hr (hst.trans hs)
  all_goals rw [e]
  · exact .issue hr hs hi hp hq
  · exact .other hr (absurd · hb) hp hq
  · exact .other hr (absurd · hb) hp hq
  · exact .other hr (absurd · hb) hp hq
  · exact .writeModulus hr hs hw hb hq
  · exact .other hr (absurd · hb) hp hq
  · exact .other hr (absurd · hb) hp hq
  · exact .other hr (absurd · hb) hp hq

/-- Every step is of one of these kinds (R39, R67, R69, R76). -/
theorem step_moduliStep {s t : State} (h : step s = .next t) : ModuliStep s t := by
  obtain ⟨u, hu, hcases⟩ := step_cases h
  have hst : u.st = s.st := by simp [hu]
  have hc : u.curve = s.curve := by simp [hu]
  have hq : u.q = s.q := by simp [hu]
  have hp : u.curve.p = s.curve.p := by rw [hc]
  obtain ⟨_, rfl⟩ | ⟨hr, ⟨hs, rfl⟩ | ⟨_, _, _, _, rfl⟩ | ⟨hs, _, _, _, ⟨_, _, rfl⟩ | ⟨_, he⟩⟩⟩ := hcases
  · exact .reset rfl nofun fun j => by rw [readQ_resetBlock]; rfl
  · exact portEdge_moduliStep hr hs hst hc hq
  · exact .other hr (hst ▸ ·) hp hq
  · exact .other hr (hst ▸ ·) hp hq
  · obtain ⟨hcurve, hidle, hpoints⟩ := engineComplete_frame he
    exact .complete hr hs hidle (by rw [hcurve]; exact hp) (hpoints.congr hq hc)

end Sys2Proof.Proofs
end

section
/-! The moduli of a run: what a program writes to `CURVE.P` and then issues a command on is what it loads (`70_reset_and_hazards.md`
R247; log 16), and every point of the run is over such a modulus. -/

namespace Sys2Proof.Proofs

open Sys2Proof.Machine Sys2Proof.Safety Sys2Proof.Laws

/-- Induction along a run: what holds at its start, and what every step of it keeps, holds at its end. -/
theorem after_induction {P : State → Prop} {s t : State} {n : Nat} (start : P s)
    (keeps : ∀ m u v, After s m u → step u = .next v → P u → P v) (h : After s n t) : P t := by
  induction n generalizing t with
  | zero => cases h; exact start
  | succ n ih =>
    obtain ⟨u, hu, hstep⟩ := after_step.mp h
    exact keeps n u t hu hstep (ih hu)

theorem noResetWithin_zero (s : State) : NoResetWithin s 0 :=
  fun _ _ hk => absurd hk (Nat.not_lt_zero _)

theorem noResetWithin_succ {s t : State} {n : Nat} (h : NoResetWithin s n) (ht : After s n t)
    (hr : ResetInputs (hostInputs t) = false) : NoResetWithin s (n + 1) := by
  intro k u hk hu
  obtain hlt | rfl := Nat.lt_succ_iff_lt_or_eq.mp hk
  · exact h k u hlt hu
  · cases ht.symm.trans hu
    exact hr

/-- In the run from `s` a word of `CURVE.P` has been written before `t`, and no reset has come since (R67, R251). -/
def ModulusWritten (s t : State) : Prop :=
  ∃ n w m, After s n w ∧ w.st = .idle ∧ WideWriteInputs (hostInputs w) 0x040 ∧ After w m t ∧ NoResetWithin w m

theorem modulusWritten_of_write {s w t : State} {n : Nat} (hw : After s n w) (idle : w.st = .idle)
    (writes : WideWriteInputs (hostInputs w) 0x040) (hr : ResetInputs (hostInputs w) = false) (h : step w = .next t) :
    ModulusWritten s t :=
  ⟨n, w, 1, hw, idle, writes, after_step.mpr ⟨w, rfl, h⟩, noResetWithin_succ (noResetWithin_zero w) rfl hr⟩

theorem ModulusWritten.step {s t t' : State} (h : ModulusWritten s t) (hr : ResetInputs (hostInputs t) = false)
    (hstep : step t = .next t') : ModulusWritten s t' := by
  obtain ⟨n, w, m, hw, idle, writes, ht, hno⟩ := h
  exact ⟨n, w, m + 1, hw, idle, writes, after_step.mpr ⟨t, ht, hstep⟩, noResetWithin_succ hno ht hr⟩

/-- A program loads exactly the values that a written `CURVE.P` has at an issue (log 16). -/
theorem loadsModulus_iff {s : State} {v : Wide} : LoadsModulus s v ↔
    ∃ u, ModulusWritten s u ∧ u.st = .idle ∧ IssueInputs (hostInputs u) = true ∧ u.curve.p = v := by
  constructor
  · rintro ⟨n, w, m, u, hw, idle, writes, hu, hno, hi⟩
    exact ⟨u, ⟨n, w, m, hw, idle, writes, hu, hno⟩, hi⟩
  · rintro ⟨u, ⟨n, w, m, hw, idle, writes, hu, hno⟩, hi⟩
    exact ⟨n, w, m, u, hw, idle, writes, hu, hno, hi⟩

/-- What holds of the moduli in a state `t` of the run from `s`. -/
structure PrimeModuli (s t : State) : Prop where
  written : t.curve.p ≠ 0 → ModulusWritten s t
  inFlight : t.st = .busy → t.curve.p ≠ 0 → Nat.Prime t.curve.p.toNat
  points : ∀ j : QReg, (readQ t j).v = true → Nat.Prime (readQ t j).cp.toNat

/-- The registers of a clean reset hold no modulus at all (R48, R247). -/
theorem primeModuli_of_cleanReset {s : State} (h : CleanReset s) : PrimeModuli s s := by
  have hp : s.curve.p = 0 := by rw [h.curve]; rfl
  have hv : ∀ j : QReg, (readQ s j).v = false := by
    unfold readQ
    rw [h.q]
    decide
  exact ⟨(absurd hp ·), fun _ => (absurd hp ·), fun j hj => absurd hj (by simp [hv j])⟩

/-- While a command is in flight that `FieldPre` lets pass, `CURVE.P` is prime; so a point made from it has a prime modulus. -/
theorem PrimeModuli.prime_of_modulusFrom {s t : State} {r : PointRec} (h : PrimeModuli s t) (busy : t.st = .busy)
    (hr : ModulusFrom t r) : Nat.Prime r.cp.toNat := by
  obtain ⟨hp, e⟩ | ⟨k, hv, e⟩ := hr
  · rw [e]
    exact h.inFlight busy fun h0 => by simp [modulus, h0] at hp
  · rw [e]
    exact h.points k hv

theorem PrimeModuli.points_of_q {s t t' : State} (h : PrimeModuli s t) (hq : t'.q = t.q) (j : QReg) :
    (readQ t' j).v = true → Nat.Prime (readQ t' j).cp.toNat := by
  rw [readQ, hq]
  exact h.points j

theorem PrimeModuli.step {s t t' : State} {n : Nat} (hprime : PrimeModulus s) (hn : After s n t) (hstep : step t = .next t')
    (h : PrimeModuli s t) : PrimeModuli s t' := by
  have written (hr : ResetInputs (hostInputs t) = false) (hp : t'.curve.p = t.curve.p) : t'.curve.p ≠ 0 → ModulusWritten s t' :=
    fun h0 => (h.written (hp ▸ h0)).step hr hstep
  cases step_moduliStep hstep with
  | reset hp hst hv => exact ⟨(absurd hp ·), (absurd · hst), fun j hj => absurd hj (by simp [hv j])⟩
  | issue hr hs hi hp hq =>
    have loaded (h0 : t.curve.p ≠ 0) : LoadsModulus s t.curve.p := loadsModulus_iff.mpr ⟨t, h.written h0, hs, hi, rfl⟩
    exact ⟨written hr hp, fun _ h0 => hp ▸ hprime _ (loaded (hp ▸ h0)), h.points_of_q hq⟩
  | writeModulus hr hs hw hst hq =>
    exact ⟨fun _ => modulusWritten_of_write hn hs hw hr hstep, (absurd · hst), h.points_of_q hq⟩
  | complete hr hs hst hp hfrom =>
    exact ⟨written hr hp, (absurd · hst), fun j hv => h.prime_of_modulusFrom hs (hfrom j hv)⟩
  | other hr hst hp hq =>
    exact ⟨written hr hp, fun hb h0 => hp ▸ h.inFlight (hst hb) (hp ▸ h0), h.points_of_q hq⟩

theorem primeModuli_of_after {s t : State} {n : Nat} (hclean : CleanReset s) (hprime : PrimeModulus s) (h : After s n t) :
    PrimeModuli s t :=
  after_induction (P := PrimeModuli s) (primeModuli_of_cleanReset hclean) (fun _ _ _ hn hstep => .step hprime hn hstep) h

/-- Settles O57: `PrimeModuli` holds at a clean reset and every step of the run keeps it. -/
theorem pointsOfARunHavePrimeModuli : Obligations.PointsOfARunHavePrimeModuli :=
  fun _ _ _ hclean hprime h => (primeModuli_of_after hclean hprime h).points

end Sys2Proof.Proofs
end

section
/-! The frame of a completion: which registers it can change, how it ends, and which words of the register space read as before
(`10_state.md` R23, R27, R40; `60_exceptions.md` R200, R214, R215, R219). -/

namespace Sys2Proof.Proofs

open Sys2Proof.Machine Sys2Proof.Safety Sys2Proof.Laws

/-- What a completion from `s` to `t` keeps, where `writesF` and `writesQ` say which registers are its destination. -/
structure CompletionFrame (writesF : FReg → Prop) (writesQ : QReg → Prop) (s t : State) : Prop where
  curve : t.curve = s.curve := by rfl
  ieDone : t.ieDone = s.ieDone := by rfl
  ieFault : t.ieFault = s.ieFault := by rfl
  cmdr : t.cmdr = s.cmdr := by rfl
  left : t.left = s.left := by rfl
  lats : t.lats = s.lats := by rfl
  host : t.host = s.host := by rfl
  got : t.got = s.got := by rfl
  f : ∀ d, readF t d ≠ readF s d → writesF d := by exact fun _ h => absurd rfl h
  q : ∀ j, readQ t j ≠ readQ s j → writesQ j := by exact fun _ h => absurd rfl h
  ends : (t.st = .idle ∧ t.done = true ∧ t.err = s.err ∧ t.errcmd = s.errcmd) ∨
    (t.st = .fault ∧ t.f = s.f ∧ t.q = s.q ∧ t.done = s.done ∧ t.errcmd = s.cmdr ∧
      t.err ∈ [1#4, 2#4, 4#4, 5#4, 6#4, 7#4, 8#4])

theorem eq_of_readF_writeF_ne {s : State} {d k : FReg} {v : Wide} (h : readF (writeF s d v) k ≠ readF s k) : d = k := by
  by_contra hne
  exact h (by rw [readF_writeF, if_neg hne])

theorem eq_of_readQ_writeQ_ne {s : State} {d k : QReg} {r : PointRec} (h : readQ (writeQ s d r) k ≠ readQ s k) : d = k := by
  by_contra hne
  exact h (by rw [readQ_writeQ, if_neg hne])

/-- Every code but the reserved 3 is raised somewhere (R200). -/
theorem faultNumber_mem_of_ne {c : FaultCode} (h : c ≠ .negativeScalar) :
    faultNumber c ∈ [1#4, 2#4, 4#4, 5#4, 6#4, 7#4, 8#4] := by
  cases c with
  | negativeScalar => exact absurd rfl h
  | _ => decide

theorem exec_frame {i : Instr} {s t : State} (h : exec i s = .next t) :
    CompletionFrame (fieldDestination i = some ·) (pointDestination i = some ·) s t := by
  have commits {d : QReg} {r : PointRec} (hd : pointDestination i = some d) (k : QReg)
      (hk : readQ (writeQ s d r) k ≠ readQ s k) : pointDestination i = some k := eq_of_readQ_writeQ_ne hk ▸ hd
  obtain ⟨d, v, hd, e⟩ | ⟨d, r, hd, e | ⟨_, e⟩⟩ | ⟨c, ⟨hc, _⟩, e | ⟨_, e⟩⟩ := exec_ends i s
  all_goals cases e.symm.trans h
  · exact { f := fun k hk => eq_of_readF_writeF_ne hk ▸ hd, ends := .inl ⟨rfl, rfl, rfl, rfl⟩ }
  · exact { q := commits hd, ends := .inl ⟨rfl, rfl, rfl, rfl⟩ }
  · exact { q := commits hd, ends := .inl ⟨rfl, rfl, rfl, rfl⟩ }
  · exact { ends := .inr ⟨rfl, rfl, rfl, rfl, rfl, faultNumber_mem_of_ne hc⟩ }
  · exact { ends := .inr ⟨rfl, rfl, rfl, rfl, rfl, faultNumber_mem_of_ne hc⟩ }

/-- Only `SMUL` touches the hidden loop registers (R42). -/
theorem exec_loop {i : Instr} {s t : State} (h : exec i s = .next t) :
    (∃ qd qa fk, i = .smul qd qa fk) ∨ (t.loop = s.loop ∧ t.fresh = s.fresh) := by
  obtain ⟨d, v, _, e⟩ | ⟨d, r, _, e | ⟨⟨qa, fk, hi⟩, _⟩⟩ | ⟨c, _, e | ⟨hi, _⟩⟩ := exec_ends i s
  · cases e.symm.trans h; exact .inr ⟨rfl, rfl⟩
  · cases e.symm.trans h; exact .inr ⟨rfl, rfl⟩
  · exact .inl ⟨d, qa, fk, hi⟩
  · cases e.symm.trans h; exact .inr ⟨rfl, rfl⟩
  · exact .inl hi

/-- The frame of whatever word is in flight: its destination is that of the command it decodes to, if any (R96, R208). -/
theorem engineComplete_completionFrame {s t : State} (h : engineComplete s = .next t) :
    CompletionFrame (fun d => ∃ i, decode s.cmdr = .ok i ∧ fieldDestination i = some d)
      (fun j => ∃ i, decode s.cmdr = .ok i ∧ pointDestination i = some j) s t := by
  obtain ⟨i, hi, e⟩ | ⟨_, _, e⟩ := engineComplete_cases s
  · have frame := exec_frame (e.symm.trans h)
    exact { frame with f := fun d hd => ⟨i, hi, frame.f d hd⟩, q := fun j hj => ⟨i, hi, frame.q j hj⟩ }
  · cases e.symm.trans h
    exact { ends := .inr ⟨rfl, rfl, rfl, rfl, rfl, faultNumber_mem_of_ne (c := .illegalCommand) nofun⟩ }

section Frame

variable {writesF : FReg → Prop} {writesQ : QReg → Prop} {s t : State}

theorem CompletionFrame.readF_eq (h : CompletionFrame writesF writesQ s t) {d : FReg} (hd : ¬writesF d) : readF t d = readF s d :=
  not_not.mp (mt (h.f d) hd)

theorem CompletionFrame.readQ_eq (h : CompletionFrame writesF writesQ s t) {j : QReg} (hj : ¬writesQ j) : readQ t j = readQ s j :=
  not_not.mp (mt (h.q j) hj)

theorem CompletionFrame.f_eq (h : CompletionFrame writesF writesQ s t) (hf : ∀ d, ¬writesF d) : t.f = s.f :=
  Vector.ext fun d hd => h.readF_eq (hf ⟨d, hd⟩)

theorem CompletionFrame.q_eq (h : CompletionFrame writesF writesQ s t) (hq : ∀ j, ¬writesQ j) : t.q = s.q :=
  Vector.ext fun j hj => h.readQ_eq (hq ⟨j, hj⟩)

theorem CompletionFrame.commits (h : CompletionFrame writesF writesQ s t) (hs : t.st = .idle) :
    t.done = true ∧ t.err = s.err ∧ t.errcmd = s.errcmd := by
  obtain ⟨_, hc⟩ | ⟨hf, _⟩ := h.ends
  · exact hc
  · exact absurd (hf.symm.trans hs) nofun

theorem CompletionFrame.faults (h : CompletionFrame writesF writesQ s t) (hs : t.st ≠ .idle) :
    t.st = .fault ∧ t.f = s.f ∧ t.q = s.q ∧ t.done = s.done := by
  obtain ⟨hi, _⟩ | ⟨hst, hf, hq, hd, _⟩ := h.ends
  · exact absurd hi hs
  · exact ⟨hst, hf, hq, hd⟩

/-- The words outside `STATUS`, `ERR`, `ERRCMD` and the destination's own bytes read as before a completion (R62, R63). -/
theorem CompletionFrame.memRead_eq (h : CompletionFrame writesF writesQ s t) {a : Addr}
    (hstatus : a ≠ 0x004) (herr : a ≠ 0x008) (herrcmd : a ≠ 0x00C)
    (hf : ∀ d, writesF d → a.toNat < 0x100 + 0x20 * d.val ∨ 0x120 + 0x20 * d.val ≤ a.toNat)
    (hq : ∀ j, writesQ j → a.toNat < 0x200 + 0x100 * j.val ∨ 0x300 + 0x100 * j.val ≤ a.toNat) :
    memRead t a = memRead s a := by
  have readF_inside (d : FReg) (lower : 0x100 + 0x20 * d.val ≤ a.toNat) (upper : a.toNat < 0x120 + 0x20 * d.val) :
      readF t d = readF s d := h.readF_eq fun hd => by have := hf d hd; omega
  have readQ_inside (j : QReg) (lower : 0x200 + 0x100 * j.val ≤ a.toNat) (upper : a.toNat < 0x300 + 0x100 * j.val) :
      readQ t j = readQ s j := h.readQ_eq fun hj => by have := hq j hj; omega
  have hs := stands a.toNat
  unfold memRead
  cases hpl : placeOf a.toNat with
  | status => exact absurd (addr_eq (hpl ▸ hs : Stands a.toNat .status)) hstatus
  | err => exact absurd (addr_eq (hpl ▸ hs : Stands a.toNat .err)) herr
  | errcmd => exact absurd (addr_eq (hpl ▸ hs : Stands a.toNat .errcmd)) herrcmd
  | ctrl => simp [readPlace, ctrlWord, h.ieDone, h.ieFault]
  | cmd => exact h.cmdr
  | curveP | curveA | curveB => simp [readPlace, h.curve]
  | reserved => rfl
  | f d k =>
    simp only [hpl, Stands] at hs
    simp only [readPlace]
    rw [readF_inside d (by omega) (by omega)]
  | tag j =>
    simp only [hpl, Stands] at hs
    simp only [readPlace]
    rw [readQ_inside j (by omega) (by omega)]
  | qX j k | qY j k | qCA j k | qCB j k | qCP j k =>
    simp only [hpl, Stands] at hs
    simp only [readPlace]
    rw [readQ_inside j (by omega) (by omega)]

end Frame

/-- No command has both an `F` and a `Q` destination. -/
theorem pointDestination_of_field {i : Instr} {d : FReg} (h : fieldDestination i = some d) : pointDestination i = none := by
  cases i with
  | fadd | fsub | fmul | fdiv | finv | fpow => rfl
  | pnew | pinf | padd | smul => cases h

theorem fieldDestination_of_point {i : Instr} {d : QReg} (h : pointDestination i = some d) : fieldDestination i = none := by
  cases i with
  | fadd | fsub | fmul | fdiv | finv | fpow => cases h
  | pnew | pinf | padd | smul => rfl

/-- Settles O36: `exec_frame`, for a command with no `Q` destination and one `F` destination. -/
theorem fieldCommandFrame : Obligations.FieldCommandFrame := by
  intro i d s t hd h
  have frame := exec_frame h
  have noQ (j : QReg) : pointDestination i ≠ some j := by rw [pointDestination_of_field hd]; nofun
  have only (k : FReg) (hk : fieldDestination i = some k) : k = d := Option.some.inj (hk.symm.trans hd)
  obtain ⟨qd, qa, fk, rfl⟩ | ⟨hloop, hfresh⟩ := exec_loop h
  · cases hd
  refine ⟨frame.curve, frame.q_eq noQ, fun k hk => frame.readF_eq (mt (only k) hk), frame.ieDone, frame.ieFault, frame.cmdr,
    hloop, frame.left, frame.lats, hfresh, frame.host, frame.got, frame.commits, fun hs => ?_, fun a h1 h2 h3 outside => ?_⟩
  · obtain ⟨hst, hf, _, hdone⟩ := frame.faults hs
    exact ⟨hst, hf, hdone⟩
  · exact frame.memRead_eq h1 h2 h3 (fun k hk => only k hk ▸ outside) fun j hj => absurd hj (noQ j)

/-- Settles O48: `exec_frame`, for a command with no `F` destination and one `Q` destination. -/
theorem pointCommandFrame : Obligations.PointCommandFrame := by
  intro i d s t hd h
  have frame := exec_frame h
  have noF (k : FReg) : fieldDestination i ≠ some k := by rw [fieldDestination_of_point hd]; nofun
  have only (j : QReg) (hj : pointDestination i = some j) : j = d := Option.some.inj (hj.symm.trans hd)
  refine ⟨frame.curve, frame.f_eq noF, fun j hj => frame.readQ_eq (mt (only j) hj), frame.ieDone, frame.ieFault, frame.cmdr,
    frame.left, frame.lats, frame.host, frame.got, exec_loop h, frame.commits, fun hs => ?_, fun a h1 h2 h3 outside => ?_⟩
  · obtain ⟨hst, _, hq, hdone⟩ := frame.faults hs
    exact ⟨hst, hq, hdone⟩
  · exact frame.memRead_eq h1 h2 h3 (fun k hk => absurd hk (noF k)) fun j hj => only j hj ▸ outside

end Sys2Proof.Proofs
end

section
/-! What a reset leaves, and what a command does from there (`10_state.md` R48, R49). -/

namespace Sys2Proof.Proofs

open Sys2Proof.Machine Sys2Proof.Safety Sys2Proof.Laws

theorem sameRegisters_resetBlock (s : State) : SameRegisters (resetBlock s) State.reset := by
  constructor <;> rfl

theorem readF_of_reset {s : State} (h : s.f = State.reset.f) (i : FReg) : readF s i = 0 := by
  rw [readF, h]
  fin_cases i <;> rfl

theorem readQ_of_reset {s : State} (h : s.q = State.reset.q) (j : QReg) : readQ s j = emptyPoint := by
  rw [readQ, h]
  fin_cases j <;> rfl

theorem wordOf_zero (k : Fin 8) : wordOf 0 k = 0 := BitVec.extractLsb'_zero ..

/-- Every word of the register space reads 0 after a reset (R48). -/
theorem memRead_of_cleanReset {s : State} (h : CleanReset s) (a : Addr) : memRead s a = 0 := by
  rw [memRead_congr h, memRead]
  cases placeOf a.toNat with
  | f i k => rw [readPlace, readF_of_reset rfl, wordOf_zero]
  | tag j => rw [readPlace, readQ_of_reset rfl]; rfl
  | qX j k | qY j k | qCA j k | qCB j k | qCP j k => rw [readPlace, readQ_of_reset rfl]; exact wordOf_zero k
  | curveP k | curveA k | curveB k => exact wordOf_zero k
  | _ => rfl

/-- Settles O17: both resets leave the registers of `State.reset`, whose words are all 0. -/
theorem resetClearsEveryRegister : Obligations.ResetClearsEveryRegister := by
  intro t ht
  have clean : CleanReset t := by
    obtain rfl | ⟨s, p, hp, rfl⟩ := ht
    · constructor <;> rfl
    · rw [portEdge_of_reset s hp]
      exact sameRegisters_resetBlock s
  have hirq : irq t = false := by simp [irq, faultFlag, clean.done, clean.st, State.reset]
  exact ⟨congrArg Curve.p clean.curve, congrArg Curve.a clean.curve, congrArg Curve.b clean.curve, readF_of_reset clean.f,
    readQ_of_reset clean.q, clean.ieDone, clean.ieFault, clean.st, clean.done, clean.err, clean.errcmd, clean.cmdr,
    memRead_of_cleanReset clean, hirq⟩

theorem withFieldPre_badModulus {α : Type} {p : Nat} (hp : p < 2) (vs : List Nat) (r : Except FaultCode α) :
    withFieldPre p vs r = .error .badModulus := if_pos hp

theorem withPoints_uninit {α : Type} {P : PointRec} (hP : P.v = false) (rs : List PointRec) (r : Except FaultCode α) :
    withPoints (P :: rs) r = .error .uninitPoint := by
  simp [withPoints, hP]

/-- The fault that a command takes from reset (R49). -/
def faultFromReset : Instr → FaultCode
  | .padd _ _ _ | .smul _ _ _ => .uninitPoint
  | .fadd _ _ _ | .fsub _ _ _ | .fmul _ _ _ | .fdiv _ _ _ | .finv _ _ | .fpow _ _ _ | .pnew _ _ _ | .pinf _ => .badModulus

/-- With no modulus loaded and no point in any register, every command faults (R49). -/
theorem exec_fromReset {i : Instr} {s : State} (hp : modulus s < 2) (hq : ∀ j, (readQ s j).v = false) :
    exec i s = .next (faultEntry (faultFromReset i) s) := by
  cases i with
  | fadd | fsub | fmul | fdiv | finv | fpow => exact congrArg (finishF _ · s) (withFieldPre_badModulus hp _ _)
  | pnew | pinf => exact congrArg (finishQ _ · s) (withFieldPre_badModulus hp _ _)
  | padd d a b => exact congrArg (finishQ d · s) (withPoints_uninit (hq a) _ _)
  | smul d a k => exact if_neg (by rw [hq a]; nofun)

/-- Settles O19: a fault writes nothing but `ST`, `ERR` and `ERRCMD`. -/
theorem noCommandSucceedsFromReset : Obligations.NoCommandSucceedsFromReset := by
  intro i s h
  have hp : modulus s < 2 := by simp [modulus, h.curve, State.reset]
  have hq (j : QReg) : (readQ s j).v = false := by rw [readQ_of_reset h.q]; rfl
  refine ⟨_, exec_fromReset hp hq, rfl, rfl, rfl, ?_⟩
  cases i <;> rfl

/-- The registers of a clean reset meet the invariant. -/
theorem inv_of_cleanReset {s : State} (h : CleanReset s) : Inv s := by
  refine ⟨fun j => .inl (readQ_of_reset h.q j), fun _ => h.done, fun _ => ⟨h.err, h.errcmd⟩, fun hf => ?_⟩
  exact nomatch h.st.symm.trans hf

end Sys2Proof.Proofs
end

section
/-! The invariant: `Add` and the loop of `SMUL` answer valid points (`10_state.md` R28), and the status registers agree with `ST`
(R36, R37, R41). -/

namespace Sys2Proof.Proofs

open Sys2Proof.Machine Sys2Proof.Safety Sys2Proof.Laws

theorem toNat_ofNat_wide {n p : Nat} (hn : n < p) (hp : p < 2 ^ 256) : (BitVec.ofNat 256 n).toNat = n := by
  rw [BitVec.toNat_ofNat, Nat.mod_eq_of_lt (hn.trans hp)]

/-- The identity on a curve whose coefficients are residues is valid (R29). -/
theorem pointValid_infPoint {a b p : Nat} (hp : 2 ≤ p) (hw : p < 2 ^ 256) (ha : a < p) (hb : b < p) :
    PointValid (infPoint a b p) := by
  have ep : (BitVec.ofNat 256 p).toNat = p := by rw [BitVec.toNat_ofNat, Nat.mod_eq_of_lt hw]
  simp only [PointValid, infPoint, ep, toNat_ofNat_wide ha hw, toNat_ofNat_wide hb hw]
  exact ⟨trivial, hp, ha, hb, fun _ => ⟨trivial, trivial⟩, nofun⟩

/-- A finite point that passes the on-curve check with residues for coordinates is valid (R150, R151). -/
theorem pointValid_affPoint {x y a b p : Nat} (hp : 2 ≤ p) (hw : p < 2 ^ 256) (ha : a < p) (hb : b < p) (hx : x < p) (hy : y < p)
    (hon : onCurve x y a b p = true) : PointValid (affPoint x y a b p) := by
  have ep : (BitVec.ofNat 256 p).toNat = p := by rw [BitVec.toNat_ofNat, Nat.mod_eq_of_lt hw]
  simp only [PointValid, affPoint, ep, toNat_ofNat_wide ha hw, toNat_ofNat_wide hb hw, toNat_ofNat_wide hx hw,
    toNat_ofNat_wide hy hw]
  exact ⟨trivial, hp, ha, hb, nofun, fun _ => ⟨hx, hy, of_decide_eq_true hon⟩⟩

theorem pointValid_infOn {P : PointRec} (h : PointValid P) : PointValid (infOn P) := by
  obtain ⟨_, hp, ha, hb, _⟩ := h
  exact pointValid_infPoint hp P.cp.isLt ha hb

/-- `Add` answers a valid point to two valid points, over any modulus (R155, R160, R162). -/
theorem pointValid_of_addPoints {A B R : PointRec} (hA : PointValid A) (hB : PointValid B) (h : addPoints A B = .ok R) :
    PointValid R := by
  obtain ⟨_, e⟩ | ⟨hc, ⟨_, _, e⟩ | ⟨_, _, e⟩ | ⟨_, _, e⟩ | ⟨hAf, hBf, _, e⟩ | ⟨hAf, _, _, _, e⟩ | ⟨_, _, _, _, e⟩⟩ :=
    addPoints_cases A B
  all_goals rw [e] at h
  · cases h
  · cases h; exact pointValid_infOn hA
  · cases h; exact hB
  · cases h; exact hA
  · obtain ⟨_, hp, ha, hb, _, hfinite⟩ := hA
    obtain ⟨_, _, _, _, _, hfinite'⟩ := hB
    obtain ⟨hx, hy, _⟩ := hfinite hAf
    obtain ⟨hx', _, _⟩ := hfinite' hBf
    rw [← ((sameCurve_iff A B).mp hc).2.2] at hx'
    obtain ⟨x, y, hlx, hly, hon, e'⟩ | e' | e' :=
      chord_cases (y2 := B.y.toNat) (a := A.ca.toNat) (b := A.cb.toNat) hx hx' hy
    all_goals cases e'.symm.trans h
    exact pointValid_affPoint hp A.cp.isLt ha hb hlx hly hon
  · obtain ⟨_, hp, ha, hb, _, hfinite⟩ := hA
    obtain ⟨hx, hy, _⟩ := hfinite hAf
    obtain ⟨_, e'⟩ | ⟨x, y, hlx, hly, hon, e'⟩ | e' | e' := tangent_cases (a := A.ca.toNat) (b := A.cb.toNat) hx hy
    all_goals cases e'.symm.trans h
    · exact pointValid_infPoint hp A.cp.isLt ha hb
    · exact pointValid_affPoint hp A.cp.isLt ha hb hlx hly hon
  · cases h; exact pointValid_infOn hA

/-- The loop of `SMUL` answers a valid point where it starts with valid points (R188). -/
theorem pointValid_of_loopRun {n : Nat} {l r : LoopRegs} (hacc : PointValid l.acc) (hcur : PointValid l.cur)
    (h : loopRun n l = .ok r) : PointValid r.acc := by
  induction n generalizing l with
  | zero => cases h; exact hacc
  | succ n ih =>
    by_cases hk : l.ksh = 0
    · rw [loopRun_zero_ksh _ hk] at h; cases h; exact hacc
    · rw [loopRun_succ n hk] at h
      obtain ⟨acc, cur, e1, e2, e⟩ | ⟨_, _, e⟩ | ⟨_, _, _, _, e⟩ := loopIterate_cases l
      all_goals rw [e] at h
      · refine ih (l := ⟨acc, cur, _⟩) ?_ (pointValid_of_addPoints hcur hcur e2) h
        split at e1
        · exact pointValid_of_addPoints hacc hcur e1
        · cases e1; exact hacc
      · cases h
      · cases h

/-- `PNEW` and `PINF` answer valid points: `FieldPre` tests the residues, `PointNew` the equation (R152, R153). -/
theorem pointValid_of_pointNew {s : State} {k : Coords} {vs : List Nat} {R : PointRec}
    (tested : ∀ x y, k = .affine x y → x ∈ vs ∧ y ∈ vs)
    (h : withFieldPre (modulus s) (s.curve.a.toNat :: s.curve.b.toNat :: vs)
      (pointNew k s.curve.a.toNat s.curve.b.toNat (modulus s)) = .ok R) : PointValid R := by
  obtain ⟨_, e⟩ | ⟨_, _, e⟩ | ⟨hp, hlt, e⟩ := withFieldPre_cases (modulus s) (s.curve.a.toNat :: s.curve.b.toNat :: vs)
    (pointNew k s.curve.a.toNat s.curve.b.toNat (modulus s))
  all_goals rw [e] at h
  · cases h
  · cases h
  · have ha : s.curve.a.toNat < modulus s := hlt _ (by simp)
    have hb : s.curve.b.toNat < modulus s := hlt _ (by simp)
    cases k with
    | identity => cases h; exact pointValid_infPoint hp s.curve.p.isLt ha hb
    | affine x y =>
      obtain ⟨hx, hy⟩ := tested x y rfl
      obtain ⟨hon, e'⟩ | ⟨_, e'⟩ := pointNew_affine_cases x y s.curve.a.toNat s.curve.b.toNat (modulus s)
      all_goals cases e'.symm.trans h
      exact pointValid_affPoint hp s.curve.p.isLt ha hb (hlt x (by simp [hx])) (hlt y (by simp [hy])) hon

/-- Every point register of `s` meets R28. -/
def PointsOk (s : State) : Prop := ∀ j : QReg, PointOk (readQ s j)

theorem pointsOk_of_q {s t : State} (h : PointsOk s) (hq : t.q = s.q) : PointsOk t := by
  unfold PointsOk readQ at *
  rwa [hq]

/-- A register that holds a point holds a valid one. -/
theorem PointsOk.valid {s : State} (h : PointsOk s) {j : QReg} (hv : (readQ s j).v = true) : PointValid (readQ s j) := by
  obtain e | hvalid := h j
  · rw [e] at hv; cases hv
  · exact hvalid

theorem pointsOk_writeQ {s : State} {d : QReg} {r : PointRec} (h : PointsOk s) (hr : PointValid r) : PointsOk (writeQ s d r) := by
  intro j
  rw [readQ_writeQ]
  split
  · exact .inr hr
  · exact h j

theorem PointsOk.finishQ {s t : State} {d : QReg} {r : Except FaultCode PointRec} (h : PointsOk s)
    (hr : ∀ R, r = .ok R → PointValid R) (ht : finishQ d r s = .next t) : PointsOk t := by
  obtain ⟨R, hR, e⟩ | ⟨c, _, e⟩ := finishQ_cases d r s
  all_goals cases e.symm.trans ht
  · exact pointsOk_writeQ h (hr R hR)
  · exact h

/-- A completion writes no point register but with a valid point. -/
theorem PointsOk.exec {i : Instr} {s t : State} (h : PointsOk s) (ht : exec i s = .next t) : PointsOk t := by
  cases i with
  | fadd | fsub | fmul | fdiv | finv | fpow => exact pointsOk_of_q h ((exec_frame ht).q_eq nofun)
  | pnew d x y =>
    have tested (x' y' : Nat) (e : Coords.affine (operandF s x) (operandF s y) = .affine x' y') :
        x' ∈ [operandF s x, operandF s y] ∧ y' ∈ [operandF s x, operandF s y] := by cases e; simp
    exact h.finishQ (fun _ => pointValid_of_pointNew tested) ht
  | pinf d => exact h.finishQ (fun _ => pointValid_of_pointNew (k := .identity) (vs := []) nofun) ht
  | padd d a b =>
    refine h.finishQ (fun R hR => ?_) ht
    obtain ⟨_, e⟩ | ⟨hv, e⟩ := withPoints_cases [readQ s a, readQ s b] (addPoints (readQ s a) (readQ s b))
    all_goals rw [e] at hR
    · cases hR
    · exact pointValid_of_addPoints (h.valid (hv _ (by simp))) (h.valid (hv _ (by simp))) hR
  | smul d a k =>
    obtain ⟨_, e⟩ | ⟨hv, ⟨c, _, e⟩ | ⟨l, hl, e⟩⟩ := execSmul_cases d a k s
    all_goals cases e.symm.trans ht
    · exact h
    · exact h
    · have hP := h.valid hv
      exact pointsOk_writeQ h (pointValid_of_loopRun (pointValid_infOn hP) hP hl)

theorem PointsOk.engineComplete {s t : State} (h : PointsOk s) (ht : engineComplete s = .next t) : PointsOk t := by
  obtain ⟨i, _, e⟩ | ⟨_, _, e⟩ := engineComplete_cases s
  · exact h.exec (e.symm.trans ht)
  · cases e.symm.trans ht
    exact h

/-- A completion of a command in flight keeps the invariant: a commit ends in `IDLE` with no fault recorded, a fault with `DONE = 0`
(R40, R214). -/
theorem inv_engineComplete {s t : State} (h : Inv s) (busy : s.st = .busy) (ht : engineComplete s = .next t) : Inv t := by
  have frame := engineComplete_completionFrame ht
  have points : PointsOk t := PointsOk.engineComplete h.points ht
  have noFault : s.err = 0 ∧ s.errcmd = 0 := h.no_fault (by rw [busy]; nofun)
  have done : s.done = false := h.done_idle (by rw [busy]; nofun)
  obtain ⟨hst, _, herr, herrcmd⟩ | ⟨hst, _, _, hdone, herrcmd, herr⟩ := frame.ends
  · exact ⟨points, absurd hst, fun _ => ⟨herr.trans noFault.1, herrcmd.trans noFault.2⟩, fun hf => nomatch hst.symm.trans hf⟩
  · exact ⟨points, fun _ => hdone.trans done, absurd hst, fun _ => ⟨herr, herrcmd.trans frame.cmdr.symm⟩⟩

/-- The port's part of an edge in `IDLE` keeps the invariant: an issue and a write to `STATUS` clear `DONE`, and no write reaches a point
register or a recorded fault (R38, R67, R70). -/
theorem inv_portEdge_idle {p : PortIn} {s : State} (h : Inv s) (hr : ResetInputs p = false) (hs : s.st = .idle) :
    Inv (portEdge p s) := by
  obtain ⟨_, e⟩ | ⟨_, e | ⟨_, _, _, e⟩ | ⟨_, _, e⟩ | ⟨_, _, e⟩ | ⟨_, _, e⟩ | ⟨_, _, e⟩ | ⟨_, _, _, e⟩⟩ := portEdge_idle hr hs
  all_goals rw [e]
  · exact ⟨h.points, fun _ => rfl, fun _ => h.no_fault (by rw [hs]; nofun), nofun⟩
  · exact h
  · exact ⟨h.points, h.done_idle, h.no_fault, h.fault⟩
  · exact ⟨h.points, fun _ => rfl, h.no_fault, h.fault⟩
  all_goals exact ⟨h.points, h.done_idle, h.no_fault, h.fault⟩

/-- Settles O20: the registers of a clean reset meet the invariant. -/
theorem resetMeetsTheInvariant : Obligations.ResetMeetsTheInvariant :=
  inv_of_cleanReset (by constructor <;> rfl)

/-- Settles O21: a reset gives the registers of a clean reset, a completion writes only valid points, and no other part of a step writes a
point register. -/
theorem everyStepKeepsTheInvariant : Obligations.EveryStepKeepsTheInvariant := by
  intro s t h hstep
  obtain ⟨_, rfl, hcases⟩ := step_cases hstep
  obtain ⟨host, got, hu⟩ := hostAdvance_eq (rdata s (hostInputs s)) s
  rw [hu] at hcases
  have h' (d e : Bool) (n : Nat) : Inv { s with host := host, got := got, ieDone := d, ieFault := e, left := n } :=
    ⟨h.points, h.done_idle, h.no_fault, h.fault⟩
  obtain ⟨_, rfl⟩ | ⟨hr, ⟨hs, rfl⟩ | ⟨_, _, _, _, rfl⟩ | ⟨hs, _, _, _, ⟨_, _, rfl⟩ | ⟨_, he⟩⟩⟩ := hcases
  · exact inv_of_cleanReset (sameRegisters_resetBlock _)
  · exact inv_portEdge_idle (h' _ _ _) hr hs
  · exact h' _ _ _
  · exact h' _ _ _
  · exact inv_engineComplete (h' _ _ _) hs he

end Sys2Proof.Proofs
end

section
/-! One step: the rows of R39, the one writer of each register, and the command in flight (`10_state.md` R38 to R41; `20_memory.md` R67,
R69, R76, R79). -/

namespace Sys2Proof.Proofs

open Sys2Proof.Machine Sys2Proof.Safety Sys2Proof.Laws

/-- In `IDLE`, only an issue changes `ST` (R39). -/
theorem portEdge_idle_st {p : PortIn} {s : State} (hr : ResetInputs p = false) (hs : s.st = .idle) :
    (portEdge p s).st = if IssueInputs p then .busy else .idle := by
  obtain ⟨hi, e⟩ | ⟨hi, e | ⟨_, _, _, e⟩ | ⟨_, _, e⟩ | ⟨_, _, e⟩ | ⟨_, _, e⟩ | ⟨_, _, e⟩ | ⟨_, _, _, e⟩⟩ := portEdge_idle hr hs
  all_goals rw [hi, e]
  · rfl
  all_goals exact hs

/-- A completion leaves `BUSY` by a commit or by a fault (R39, R40). -/
theorem engineComplete_st {s t : State} (h : engineComplete s = .next t) : (t.st = .idle ∧ t.done = true) ∨ t.st = .fault := by
  obtain ⟨hst, hdone, _⟩ | ⟨hst, _⟩ := (engineComplete_completionFrame h).ends
  · exact .inl ⟨hst, hdone⟩
  · exact .inr hst

/-- Settles O10: the cases of a step, one for each row of R39. -/
theorem engineStateTransitions : Obligations.EngineStateTransitions := by
  intro s t h
  obtain ⟨u, hu, hcases⟩ := step_cases h
  have hst : u.st = s.st := by simp [hu]
  obtain ⟨hr, rfl⟩ | ⟨hr, ⟨hs, rfl⟩ | ⟨hs, _, _, _, rfl⟩ | ⟨hs, _, _, _, ⟨n, hl, rfl⟩ | ⟨hl, he⟩⟩⟩ := hcases
  · exact ⟨fun _ => rfl, fun h0 => nomatch hr.symm.trans h0⟩
  all_goals refine ⟨fun h1 => (nomatch hr.symm.trans h1), fun _ => ?_⟩
  all_goals rw [hs]
  · exact ⟨fun _ => portEdge_idle_st hr (hst.trans hs), nofun, nofun, nofun⟩
  · exact ⟨nofun, nofun, nofun, fun _ => hst.trans hs⟩
  · exact ⟨nofun, fun _ _ => hst.trans hs, fun _ h0 => (nomatch hl.symm.trans h0), nofun⟩
  · exact ⟨nofun, fun _ h0 => absurd hl h0.ne', fun _ _ => engineComplete_st he, nofun⟩

/-- Settles O55: of the cases of a step, only the one that counts the latency down applies. -/
theorem nothingMovesWhileACommandIsInFlight : Obligations.NothingMovesWhileACommandIsInFlight := by
  intro s t n busy latency noReset h
  obtain ⟨_, rfl, hcases⟩ := step_cases h
  obtain ⟨host, got, hu⟩ := hostAdvance_eq (rdata s (hostInputs s)) s
  rw [hu] at hcases
  obtain ⟨hr, _⟩ | ⟨_, ⟨hs, _⟩ | ⟨hs, _⟩ | ⟨_, _, _, _, ⟨m, hl, rfl⟩ | ⟨hl, _⟩⟩⟩ := hcases
  · exact nomatch hr.symm.trans noReset
  · exact nomatch hs.symm.trans busy
  · exact nomatch hs.symm.trans busy
  · cases hl.symm.trans latency
    rfl
  · exact nomatch hl.symm.trans latency

/-- Each register that differs between `s` and `t`, the state a step without a reset leads to, has had its one writer. A register that is
the same by definition needs no proof. -/
structure ChangedByWriters (s t : State) : Prop where
  q : ∀ j, readQ t j ≠ readQ s j →
      s.st = .busy ∧ s.left = 0 ∧ ∃ i, decode s.cmdr = .ok i ∧ pointDestination i = some j := by
    exact fun _ h => absurd rfl h
  f : ∀ d, readF t d ≠ readF s d →
      (s.st = .busy ∧ s.left = 0 ∧ ∃ i, decode s.cmdr = .ok i ∧ fieldDestination i = some d) ∨
      (s.st = .idle ∧ WideWriteInputs (hostInputs s) (0x100 + 0x20 * d.val)) := by
    exact fun _ h => absurd rfl h
  curveP : t.curve.p ≠ s.curve.p → s.st = .idle ∧ WideWriteInputs (hostInputs s) 0x040 := by exact fun h => absurd rfl h
  curveA : t.curve.a ≠ s.curve.a → s.st = .idle ∧ WideWriteInputs (hostInputs s) 0x060 := by exact fun h => absurd rfl h
  curveB : t.curve.b ≠ s.curve.b → s.st = .idle ∧ WideWriteInputs (hostInputs s) 0x080 := by exact fun h => absurd rfl h
  cmdr : t.cmdr ≠ s.cmdr → s.st = .idle ∧ IssueInputs (hostInputs s) = true := by exact fun h => absurd rfl h
  enables : t.ieDone ≠ s.ieDone ∨ t.ieFault ≠ s.ieFault → WriteInputs (hostInputs s) 0x000 = true := by
    exact fun h => h.elim (absurd rfl ·) (absurd rfl ·)
  doneSet : t.done = true → s.done = false → s.st = .busy ∧ s.left = 0 ∧ t.st = .idle := by
    exact fun h h' => nomatch h.symm.trans h'
  doneCleared : t.done = false → s.done = true → s.st = .idle ∧ (IssueInputs (hostInputs s) = true ∨
      (WriteInputs (hostInputs s) 0x004 = true ∧ (hostInputs s).wdata.getLsbD 1 = true)) := by
    exact fun h h' => nomatch h.symm.trans h'

/-- In `IDLE`, the writers are the host's writes, each at its own addresses (R67). -/
theorem portEdge_changedByWriters {s : State} (host : List HostLine) (got : List Word)
    (hr : ResetInputs (hostInputs s) = false) (hs : s.st = .idle) :
    ChangedByWriters s (portEdge (hostInputs s) { s with host := host, got := got }) := by
  obtain ⟨hi, e⟩ | ⟨_, e | ⟨hw, _, _, e⟩ | ⟨hw, hbit, e⟩ | ⟨hw, _, e⟩ | ⟨hw, _, e⟩ | ⟨hw, _, e⟩ | ⟨i, hw, _, e⟩⟩ :=
    portEdge_idle (s := { s with host := host, got := got }) hr hs
  all_goals rw [e]
  · exact { cmdr := fun _ => ⟨hs, hi⟩, doneSet := nofun, doneCleared := fun _ _ => ⟨hs, .inl hi⟩ }
  · exact {}
  · exact { enables := fun _ => hw }
  · exact { doneSet := nofun, doneCleared := fun _ _ => ⟨hs, .inr ⟨hw, hbit⟩⟩ }
  · exact { curveP := fun _ => ⟨hs, hw⟩ }
  · exact { curveA := fun _ => ⟨hs, hw⟩ }
  · exact { curveB := fun _ => ⟨hs, hw⟩ }
  · exact { f := fun d hd => eq_of_readF_writeF_ne hd ▸ .inr ⟨hs, hw⟩ }

/-- At the completion of a command, the writer is that command (R40), beside a write to `CTRL` at the same edge (R76). -/
theorem engineComplete_changedByWriters {s t : State} {host : List HostLine} {got : List Word} {d e : Bool} (hs : s.st = .busy)
    (hl : s.left = 0) (hw : d ≠ s.ieDone ∨ e ≠ s.ieFault → WriteInputs (hostInputs s) 0 = true)
    (h : engineComplete { s with host := host, got := got, ieDone := d, ieFault := e } = .next t) : ChangedByWriters s t := by
  have frame := engineComplete_completionFrame h
  refine {
    q := fun j hj => ⟨hs, hl, frame.q j hj⟩
    f := fun k hk => .inl ⟨hs, hl, frame.f k hk⟩
    curveP := fun hp => absurd (congrArg Curve.p frame.curve) hp
    curveA := fun ha => absurd (congrArg Curve.a frame.curve) ha
    curveB := fun hb => absurd (congrArg Curve.b frame.curve) hb
    cmdr := fun hc => absurd frame.cmdr hc
    enables := fun hi => hw (by rwa [frame.ieDone, frame.ieFault] at hi)
    doneSet := fun h1 h0 => ?_
    doneCleared := fun h0 h1 => ?_ }
  all_goals obtain ⟨hst, hdone, _⟩ | ⟨_, _, _, hdone, _⟩ := frame.ends
  · exact ⟨hs, hl, hst⟩
  · exact nomatch h1.symm.trans (hdone.trans h0)
  · exact nomatch h0.symm.trans hdone
  · exact nomatch h0.symm.trans (hdone.trans h1)

/-- Settles O24, by the cases of a step. -/
theorem registersChangeOnlyByTheirWriters : Obligations.RegistersChangeOnlyByTheirWriters := by
  intro s t h hr
  suffices changed : ChangedByWriters s t from
    ⟨changed.q, changed.f, changed.curveP, changed.curveA, changed.curveB, changed.cmdr, changed.enables, changed.doneSet,
      changed.doneCleared⟩
  obtain ⟨_, rfl, hcases⟩ := step_cases h
  obtain ⟨host, got, hu⟩ := hostAdvance_eq (rdata s (hostInputs s)) s
  rw [hu] at hcases
  obtain ⟨hr', _⟩ | ⟨_, ⟨hs, rfl⟩ | ⟨_, d, e, hw, rfl⟩ | ⟨hs, d, e, hw, ⟨_, _, rfl⟩ | ⟨hl, he⟩⟩⟩ := hcases
  · exact nomatch hr'.symm.trans hr
  · exact portEdge_changedByWriters host got hr hs
  · exact { enables := hw }
  · exact { enables := hw }
  · exact engineComplete_changedByWriters hs hl hw he

/-- Settles O8: the write is `issue`, or is dropped; `CMD` reads as `CMDR`. -/
theorem cmdWriteIssuesInIdle : Obligations.CmdWriteIssuesInIdle := by
  intro s w
  refine ⟨fun hs => ⟨(issue w s).left, (issue w s).lats, (issue w s).fresh, ?_⟩, fun hs => memWrite_not_idle w hs (by decide), rfl⟩
  exact if_pos hs

theorem engineComplete_of_decode {s : State} {i : Instr} (h : decode s.cmdr = .ok i) : engineComplete s = exec i s := by
  rw [engineComplete, h]

/-- An edge at which the latency is over and that does not reset the block is `exec` after the port's part (R76). -/
theorem clockEdge_of_decode {p : PortIn} {s : State} {i : Instr} (hs : s.st = .busy) (hl : s.left = 0)
    (hi : decode s.cmdr = .ok i) (hr : ResetInputs p = false) : clockEdge p s = exec i (portEdge p s) := by
  obtain ⟨d, e, _, hp⟩ := portEdge_not_idle hr (s := s) (by rw [hs]; nofun)
  rw [clockEdge_completes hs (by rw [hp]; exact hs) (by rw [hp]; exact hl)]
  exact engineComplete_of_decode (by rw [hp]; exact hi)

theorem step_of_decode {s : State} {i : Instr} (hs : s.st = .busy) (hl : s.left = 0) (hi : decode s.cmdr = .ok i)
    (hr : ResetInputs (hostInputs s) = false) :
    step s = exec i (portEdge (hostInputs s) (hostAdvance (rdata s (hostInputs s)) s)) :=
  clockEdge_of_decode (by rwa [hostAdvance_st]) (by rwa [hostAdvance_left]) (by rwa [hostAdvance_cmdr]) hr

theorem flagWord_bit0 (b2 b1 b0 : Bool) : (flagWord b2 b1 b0).getLsbD 0 = b0 := by decide +revert

/-- A `WAIT` line stays while a command is in flight (R104). -/
theorem hostAdvance_wait_busy {s : State} {rest : List HostLine} (hs : s.st = .busy) (hh : s.host = .wait :: rest) :
    hostAdvance (memRead s 0x004) s = s := by
  have hbit : (memRead s 0x004).getLsbD 0 = true := by
    rw [show memRead s 0x004 = statusWord s from rfl, statusWord, flagWord_bit0, busyFlag, hs]
    rfl
  rw [hostAdvance, hh]
  exact if_pos hbit

/-- A cycle's line is gone after its edge, and the word it read is kept (R104; log 6). -/
theorem hostAdvance_cycle {s : State} {p : PortIn} {rest : List HostLine} (hh : s.host = .cycle p :: rest) :
    hostAdvance (rdata s p) s =
      { s with host := rest, got := if p.sel && !p.we then s.got ++ [memRead s p.addr] else s.got } := by
  have hgot : (if isRead p then s.got ++ [rdata s p] else s.got) = if isRead p then s.got ++ [memRead s p.addr] else s.got :=
    ite_congr rfl (fun h => by rw [rdata, if_pos h]) fun _ => rfl
  rw [hostAdvance, hh]
  exact congrArg (fun got => { s with host := rest, got := got }) hgot

/-- Settles O5: `step_of_decode`, with the host's own part written out. -/
theorem stepCompletesTheCommandInFlight : Obligations.StepCompletesTheCommandInFlight := by
  intro s i hs hl hi
  refine ⟨fun hh => ?_, fun rest hh => ?_, fun p rest hh hr => ?_⟩
  · have hin : hostInputs s = idleCycle := by rw [hostInputs, hh]
    have hadv : hostAdvance (rdata s idleCycle) s = s := by rw [hostAdvance, hh]
    rw [step_of_decode hs hl hi (by rw [hin]; rfl), hin, hadv]
    rfl
  · have hin : hostInputs s = readCycle 0x004 := by rw [hostInputs, hh]
    rw [step_of_decode hs hl hi (by rw [hin]; rfl), hin]
    exact congrArg (exec i) (hostAdvance_wait_busy hs hh)
  · have hin : hostInputs s = p := by rw [hostInputs, hh]
    rw [step_of_decode hs hl hi (hin ▸ hr), hin, hostAdvance_cycle hh]

end Sys2Proof.Proofs
end

section
/-! The host port: what a read returns and what a write does, by the place of the map an address stands for (`20_memory.md` R62 to R71). -/

namespace Sys2Proof.Proofs

open Sys2Proof.Machine Sys2Proof.Safety Sys2Proof.Laws

/-- The map of R62 read the other way: the address of a register word maps to that word. -/
theorem placeOf_of_stands {n : Nat} {pl : Place} (h : Stands n pl) (hr : pl ≠ .reserved) : placeOf n = pl := by
  cases pl with
  | reserved => exact absurd rfl hr
  | _ => cases h; decide +revert

/-- The map ends inside the 11-bit address space (R60, R62). -/
theorem lt_of_stands {n : Nat} {pl : Place} (h : Stands n pl) (hr : pl ≠ .reserved) : n < 2 ^ 11 := by
  cases pl with
  | reserved => exact absurd rfl hr
  | _ => simp only [Stands] at h; omega

theorem placeOf_ofNat {n : Nat} {pl : Place} (h : Stands n pl) (hr : pl ≠ .reserved) :
    placeOf (BitVec.ofNat 11 n).toNat = pl := by
  rw [BitVec.toNat_ofNat, Nat.mod_eq_of_lt (lt_of_stands h hr)]
  exact placeOf_of_stands h hr

/-- An address at which no register word stands is reserved (R65, R68). -/
theorem placeOf_reserved {n : Nat} (h : ∀ pl, pl ≠ .reserved → ¬Stands n pl) : placeOf n = .reserved := by
  by_contra hr
  exact h _ hr (stands n)

/-- A read at the address of a register word returns that word (R66). -/
theorem memRead_at (s : State) {n : Nat} (pl : Place) (h : Stands n pl) (hr : pl ≠ .reserved) :
    memRead s (BitVec.ofNat 11 n) = readPlace s pl := by
  rw [memRead, placeOf_ofNat h hr]

/-- A write in `IDLE` at the address of a register word other than `CTRL` is the write of that word (R67 items 3 to 6). -/
theorem memWrite_at {s : State} {n : Nat} (pl : Place) (w : Word) (hs : s.st = .idle) (h : Stands n pl) (hr : pl ≠ .reserved)
    (hc : pl ≠ .ctrl) : memWrite s (BitVec.ofNat 11 n) w = writeIdle pl w s := by
  rw [memWrite, placeOf_ofNat h hr, if_neg hc, if_pos hs]

/-- The ranges the map leaves out, and the misaligned addresses, hold no register word (R62, R65, R68). -/
theorem placeOf_of_unmapped {n : Nat}
    (h : n % 4 ≠ 0 ∨ (0x014 ≤ n ∧ n < 0x040) ∨ (0x0A0 ≤ n ∧ n < 0x100) ∨
      (0x200 ≤ n ∧ n < 0x600 ∧ ((0x04 ≤ n % 0x100 ∧ n % 0x100 < 0x20) ∨ 0xC0 ≤ n % 0x100)) ∨ 0x600 ≤ n) :
    placeOf n = .reserved :=
  placeOf_reserved fun pl hr hs => by
    cases pl with
    | reserved => exact hr rfl
    | _ => simp only [Stands] at hs; omega

/-- The tag word has `V` in bit 0 and `INF` in bit 1 (R31). -/
theorem tagWord_eq (r : PointRec) : tagWord r = 0#30 ++ BitVec.ofBool r.inf ++ BitVec.ofBool r.v := by
  simp [tagWord, flagWord]

/-- Settles O11: `memRead_at` at each row of the map, and `placeOf_of_unmapped` outside it. -/
theorem readReturnsTheMappedWord : Obligations.ReadReturnsTheMappedWord := by
  intro s
  refine ⟨memRead_at s .ctrl rfl nofun, memRead_at s .status rfl nofun, memRead_at s .err rfl nofun,
    memRead_at s .errcmd rfl nofun, memRead_at s .cmd rfl nofun, fun k => ⟨?_, ?_, ?_, fun i => ?_, fun j => ⟨?_, ?_, ?_, ?_, ?_⟩⟩,
    fun j => ?_, fun a ha => ?_, fun _ => rfl⟩
  · exact memRead_at s (.curveP k) rfl nofun
  · exact memRead_at s (.curveA k) rfl nofun
  · exact memRead_at s (.curveB k) rfl nofun
  · exact memRead_at s (.f i k) rfl nofun
  · exact memRead_at s (.qX j k) rfl nofun
  · exact memRead_at s (.qY j k) rfl nofun
  · exact memRead_at s (.qCA j k) rfl nofun
  · exact memRead_at s (.qCB j k) rfl nofun
  · exact memRead_at s (.qCP j k) rfl nofun
  · exact (memRead_at s (.tag j) rfl nofun).trans (tagWord_eq (readQ s j))
  · rw [memRead, placeOf_of_unmapped ha]
    rfl

/-- A write to none of `CTRL`, `STATUS`, `CMD`, `CURVE` and `F` changes nothing, in any engine state (R67 item 6, R69, R70). -/
theorem memWrite_not_writable {s : State} {a : Addr} (w : Word) (hctrl : a ≠ 0) (hstatus : a ≠ 0x004) (hcmd : a ≠ 0x010)
    (hwide : ¬(a.toNat % 4 = 0 ∧ ((0x040 ≤ a.toNat ∧ a.toNat < 0x0A0) ∨ (0x100 ≤ a.toNat ∧ a.toNat < 0x200)))) :
    memWrite s a w = s := by
  obtain ⟨h0, _⟩ | ⟨h0, _⟩ | ⟨_, _, e⟩ | ⟨_, _, e⟩ := memWrite_cases s a w
  · exact absurd h0 hctrl
  · exact absurd h0 hctrl
  · exact e
  rw [e]
  obtain e | ⟨ha, _⟩ | ⟨ha, _⟩ | ⟨k, _, rfl, _⟩ | ⟨k, _, rfl, _⟩ | ⟨k, _, rfl, _⟩ | ⟨i, k, _, rfl, _⟩ := writeIdle_cases s a w
  · exact e
  · exact absurd ha hstatus
  · exact absurd ha hcmd
  all_goals rw [BitVec.toNat_ofNat] at hwide; omega

/-- Word `k` of a 256-bit value replaced: the new word, and the seven others as they were (R67 item 5). -/
theorem words_setWord (v : Wide) (k : Fin 8) (w : Word) :
    wordOf (setWord v k w) k = w ∧ ∀ j : Fin 8, j ≠ k → wordOf (setWord v k w) j = wordOf v j :=
  ⟨wordOf_setWord_self v k w, fun _ hj => wordOf_setWord_ne v w hj⟩

/-- A write to `STATUS` clears `DONE` where its bit 1 is set (R35). -/
theorem writeStatus_eq (w : Word) (s : State) : writeStatus w s = { s with done := s.done && !w.getLsbD 1 } := by
  unfold writeStatus
  cases w.getLsbD 1 <;> simp

theorem memWrite_ctrl_reset (s : State) {w : Word} (h : w.getLsbD 0 = true) : memWrite s 0 w = resetBlock s := by
  rw [memWrite_ctrl, writeCtrl, if_pos h]

theorem memWrite_ctrl_enables (s : State) {w : Word} (h : w.getLsbD 0 = false) :
    memWrite s 0 w = { s with ieDone := w.getLsbD 1, ieFault := w.getLsbD 2 } := by
  rw [memWrite_ctrl, writeCtrl, h]
  rfl

/-- Settles O12: `memWrite_at` at each register a host can write, and `memWrite_not_writable` everywhere else. -/
theorem writeDoesTheFirstThatApplies : Obligations.WriteDoesTheFirstThatApplies := by
  intro s w
  refine ⟨fun h => ?_, memWrite_ctrl_enables s, fun hs a ha => memWrite_not_idle w hs ha, fun hs => ⟨?_, ?_, fun k => ⟨?_, ?_, ?_, ?_⟩,
    fun a => memWrite_not_writable w⟩⟩
  · rw [memWrite_ctrl_reset s h]
    exact sameRegisters_resetBlock s
  · exact (memWrite_at .status w hs rfl nofun nofun).trans (writeStatus_eq w s)
  · exact ⟨_, _, _, memWrite_at .cmd w hs rfl nofun nofun⟩
  · exact ⟨_, memWrite_at (.curveP k) w hs rfl nofun nofun, words_setWord s.curve.p k w⟩
  · exact ⟨_, memWrite_at (.curveA k) w hs rfl nofun nofun, words_setWord s.curve.a k w⟩
  · exact ⟨_, memWrite_at (.curveB k) w hs rfl nofun nofun, words_setWord s.curve.b k w⟩
  · exact fun i => ⟨_, memWrite_at (.f i k) w hs rfl nofun nofun, words_setWord (readF s i) k w⟩

/-- A 256-bit value is its eight words (R63). -/
theorem eq_of_wordOf_eq {x y : Wide} (h : ∀ k, wordOf x k = wordOf y k) : x = y := by
  apply BitVec.eq_of_getLsbD_eq
  intro n hn
  have bit : ∀ v : Wide, (wordOf v ⟨n / 32, by omega⟩).getLsbD (n % 32) = v.getLsbD n := fun v => by
    rw [wordOf, BitVec.getLsbD_extractLsb', Nat.div_add_mod, decide_eq_true (Nat.mod_lt n (by decide)), Bool.true_and]
  rw [← bit x, ← bit y, h]

/-- `x` with the words `ks` of `v` put in, one after the other. -/
def putWords (v x : Wide) (ks : List (Fin 8)) : Wide := ks.foldl (fun x k => setWord x k (wordOf v k)) x

theorem wordOf_putWords (v x : Wide) (ks : List (Fin 8)) (j : Fin 8) :
    wordOf (putWords v x ks) j = if j ∈ ks then wordOf v j else wordOf x j := by
  induction ks generalizing x with
  | nil => rfl
  | cons k ks ih =>
    rw [show putWords v x (k :: ks) = putWords v (setWord x k (wordOf v k)) ks from rfl, ih]
    by_cases hj : j = k
    · subst hj
      simp
    · simp [hj, wordOf_setWord_ne x _ hj]

/-- All eight words make the value, whatever was there before (R63). -/
theorem putWords_all (v x : Wide) : putWords v x (List.finRange 8) = v :=
  eq_of_wordOf_eq fun k => by rw [wordOf_putWords, if_pos (List.mem_finRange k)]

/-- Where one word write to the register at `base` replaces one word of its value `x` in `put x`, the eight writes of a value `v` leave
`put v` (R63, R71). -/
theorem foldl_memWrite (v x : Wide) {base : Nat} {put : Wide → State}
    (h : ∀ x (k : Fin 8) w, memWrite (put x) (BitVec.ofNat 11 (base + 4 * k.val)) w = put (setWord x k w)) :
    (List.finRange 8).foldl (fun t k => memWrite t (BitVec.ofNat 11 (base + 4 * k.val)) (v.extractLsb' (32 * k.val) 32)) (put x)
      = put v :=
  calc
    _ = put (putWords v x (List.finRange 8)) := List.foldl_hom put fun x k => h x k (wordOf v k)
    _ = put v := by rw [putWords_all]

theorem writeF_writeF (s : State) (i : FReg) (x y : Wide) : writeF (writeF s i x) i y = writeF s i y := by
  simp [writeF]

theorem writeF_readF (s : State) (i : FReg) : writeF s i (readF s i) = s := by
  simp [writeF, readF]

/-- Settles O16: `foldl_memWrite` at each of the four kinds of register. -/
theorem eightWordWritesStoreTheValue : Obligations.EightWordWritesStoreTheValue := by
  intro s v hs
  refine ⟨?_, ?_, ?_, fun i => ?_⟩
  · exact foldl_memWrite v s.curve.p (put := fun x => { s with curve := { s.curve with p := x } })
      fun _ k w => memWrite_at (.curveP k) w hs rfl nofun nofun
  · exact foldl_memWrite v s.curve.a (put := fun x => { s with curve := { s.curve with a := x } })
      fun _ k w => memWrite_at (.curveA k) w hs rfl nofun nofun
  · exact foldl_memWrite v s.curve.b (put := fun x => { s with curve := { s.curve with b := x } })
      fun _ k w => memWrite_at (.curveB k) w hs rfl nofun nofun
  · have h := foldl_memWrite v (readF s i) (put := writeF s i) (base := 0x100 + 0x20 * i.val) fun x k w => by
      rw [memWrite_at (.f i k) w (s := writeF s i x) hs rfl nofun nofun, writeIdle, writeF_writeF, readF_writeF, if_pos rfl]
    rwa [writeF_readF] at h

end Sys2Proof.Proofs
end

section
/-! The host's transaction at one edge of the clock: alone, or with the command in flight (`20_memory.md` R66, R69, R70, R75, R76;
`30_encoding.md` R104). -/

namespace Sys2Proof.Proofs

open Sys2Proof.Machine Sys2Proof.Safety Sys2Proof.Laws

section Cycle

variable {s : State} {rest : List HostLine}

/-- A cycle's line is one edge with its inputs, from the state whose host has gone on and kept the word it read. -/
theorem step_cycle {p : PortIn} (h : s.host = .cycle p :: rest) :
    step s = clockEdge p
      { s with host := rest, got := if p.sel && !p.we then s.got ++ [memRead s p.addr] else s.got } := by
  have hin : hostInputs s = p := by rw [hostInputs, h]
  rw [step_eq, hin, hostAdvance_cycle h]

theorem step_write {a : Addr} {v : Word} (h : s.host = .cycle ⟨true, true, true, a, v⟩ :: rest) :
    step s = clockEdge (writeCycle a v) { s with host := rest } := step_cycle h

theorem step_read {a : Addr} {v : Word} (h : s.host = .cycle ⟨true, true, false, a, v⟩ :: rest) :
    step s = clockEdge ⟨true, true, false, a, v⟩ { s with host := rest, got := s.got ++ [memRead s a] } := step_cycle h

theorem step_unselected {we : Bool} {a : Addr} {v : Word} (h : s.host = .cycle ⟨true, false, we, a, v⟩ :: rest) :
    step s = clockEdge ⟨true, false, we, a, v⟩ { s with host := rest } := step_cycle h

theorem step_no_line (h : s.host = []) : step s = clockEdge idleCycle s := by
  have hin : hostInputs s = idleCycle := by rw [hostInputs, h]
  rw [step_eq, hin, hostAdvance, h]

theorem hostInputs_wait (h : s.host = .wait :: rest) : hostInputs s = readCycle 0x004 := by rw [hostInputs, h]

/-- `WAIT` stays where a command is in flight (R104). -/
theorem step_wait_busy (hs : s.st = .busy) (h : s.host = .wait :: rest) : step s = clockEdge (readCycle 0x004) s := by
  rw [step_eq, hostInputs_wait h]
  exact congrArg (clockEdge (readCycle 0x004)) (hostAdvance_wait_busy hs h)

/-- `WAIT` ends with the `STATUS` word it read where no command is in flight (R104). -/
theorem step_wait_not_busy (hs : s.st ≠ .busy) (h : s.host = .wait :: rest) :
    step s = clockEdge (readCycle 0x004) { s with host := rest, got := s.got ++ [memRead s 0x004] } := by
  have hbit : (memRead s 0x004).getLsbD 0 = false := by
    rw [show memRead s 0x004 = statusWord s from rfl, statusWord, flagWord_bit0, busyFlag]
    exact decide_eq_false hs
  have hadv : hostAdvance (memRead s 0x004) s = { s with host := rest, got := s.got ++ [memRead s 0x004] } := by
    rw [hostAdvance, h]
    exact if_neg (by rw [hbit]; nofun)
  rw [step_eq, hostInputs_wait h]
  exact congrArg (clockEdge (readCycle 0x004)) hadv

end Cycle

/-- An edge depends on its inputs only through what they do to the registers. -/
theorem clockEdge_congr {p p' : PortIn} {s : State} (h : portEdge p s = portEdge p' s) : clockEdge p s = clockEdge p' s := by
  rw [clockEdge, clockEdge, h]

/-- Where no command is in flight, the edge is the port's part. -/
theorem clockEdge_not_busy (p : PortIn) {s : State} (hs : s.st ≠ .busy) : clockEdge p s = .next (portEdge p s) :=
  clockEdge_port_only fun h => hs h.1

/-- Where latency is left and the inputs do nothing to the registers, the edge counts the latency down (R257; log 3). -/
theorem clockEdge_counts_down {p : PortIn} {s : State} {n : Nat} (hs : s.st = .busy) (hl : s.left = n + 1) (hp : portEdge p s = s) :
    clockEdge p s = .next { s with left := n } := by
  rw [clockEdge, hp, if_pos ⟨hs, hs⟩, engineEdge, hl]

/-- Settles O54: each line of the host is one edge, and an edge is the port's part or counts the latency down. -/
theorem stepMakesTheHostsTransaction : Obligations.StepMakesTheHostsTransaction := by
  refine fun s => ⟨fun hs => ⟨fun h => ?_, fun rest h => ?_, fun a v rest h => ?_, fun a v rest h => ?_, fun we a v rest h => ?_⟩,
    fun hs => ⟨fun n hl h => ?_, fun n rest hl h => ?_, fun n a v rest hl h => ?_, fun n we a v rest hl h => ?_⟩⟩
  · exact (step_no_line h).trans (clockEdge_not_busy _ hs)
  · exact (step_wait_not_busy hs h).trans (clockEdge_not_busy _ hs)
  · exact (step_write h).trans (clockEdge_not_busy _ hs)
  · exact (step_read h).trans (clockEdge_not_busy _ hs)
  · exact (step_unselected h).trans (clockEdge_not_busy _ hs)
  · exact (step_no_line h).trans (clockEdge_counts_down hs hl rfl)
  · exact (step_wait_busy hs h).trans (clockEdge_counts_down hs hl rfl)
  · exact (step_read h).trans (clockEdge_counts_down hs hl rfl)
  · exact (step_unselected h).trans (clockEdge_counts_down hs hl rfl)

/-- Settles O13: outside `IDLE` such a write and no transaction do the same to the registers. -/
theorem writesAreDroppedUnlessIdle : Obligations.WritesAreDroppedUnlessIdle := by
  intro s a v rest hs ha
  rw [step_write rfl, step_unselected rfl]
  exact clockEdge_congr (memWrite_not_idle v hs ha)

/-- Inputs that do not reset the block leave what only the engine writes (R70). -/
theorem portEdge_engine_registers {p : PortIn} (s : State) (hr : ResetInputs p = false) :
    (portEdge p s).q = s.q ∧ (portEdge p s).err = s.err ∧ (portEdge p s).errcmd = s.errcmd := by
  by_cases hs : s.st = .idle
  · obtain ⟨_, e⟩ | ⟨_, e | ⟨_, _, _, e⟩ | ⟨_, _, e⟩ | ⟨_, _, e⟩ | ⟨_, _, e⟩ | ⟨_, _, e⟩ | ⟨_, _, _, e⟩⟩ := portEdge_idle hr hs
    all_goals rw [e]; exact ⟨rfl, rfl, rfl⟩
  · obtain ⟨_, _, _, e⟩ := portEdge_not_idle hr hs
    rw [e]
    exact ⟨rfl, rfl, rfl⟩

/-- Settles O14: no such address is writable; and of the cases of a step only a reset and a completion write those registers. -/
theorem engineRegistersAreReadOnlyToTheHost : Obligations.EngineRegistersAreReadOnlyToTheHost := by
  refine ⟨fun s a w ha => ?_, fun s t h hr hnot => ?_⟩
  · have unwritable : a.toNat = 0x008 ∨ a.toNat = 0x00C ∨ 0x200 ≤ a.toNat := by
      obtain rfl | rfl | ⟨h, _⟩ := ha
      · exact .inl rfl
      · exact .inr (.inl rfl)
      · exact .inr (.inr h)
    apply memWrite_not_writable w
    case hwide => omega
    all_goals rintro rfl; exact absurd unwritable (by decide)
  · obtain ⟨_, rfl, hcases⟩ := step_cases h
    obtain ⟨host, got, hu⟩ := hostAdvance_eq (rdata s (hostInputs s)) s
    rw [hu] at hcases
    obtain ⟨hr', _⟩ | ⟨_, ⟨_, rfl⟩ | ⟨_, _, _, _, rfl⟩ | ⟨hs, _, _, _, ⟨_, _, rfl⟩ | ⟨hl, _⟩⟩⟩ := hcases
    · exact nomatch hr'.symm.trans hr
    · exact portEdge_engine_registers { s with host := host, got := got } hr
    · exact ⟨rfl, rfl, rfl⟩
    · exact ⟨rfl, rfl, rfl⟩
    · exact absurd ⟨hs, hl⟩ hnot

/-- A reset at an edge wins over everything else at it (R76, R244). -/
theorem clockEdge_of_reset {p : PortIn} (s : State) (h : ResetInputs p = true) : clockEdge p s = .next (resetBlock s) := by
  have hp := portEdge_of_reset s h
  rw [clockEdge_port_only (by rw [hp]; nofun), hp]

theorem step_cycle_of_reset {s : State} {p : PortIn} {rest : List HostLine} (hh : s.host = .cycle p :: rest)
    (h : ResetInputs p = true) : ∃ t, step s = .next t ∧ SameRegisters t State.reset :=
  ⟨_, (step_cycle hh).trans (clockEdge_of_reset _ h), sameRegisters_resetBlock _⟩

/-- Where the port's part of an edge leaves the command in flight and its latency is over, the completion follows (R76). -/
theorem clockEdge_completes_after {p : PortIn} {s u : State} (hp : portEdge p s = u) (hs : s.st = .busy) (hu : u.st = .busy)
    (hl : u.left = 0) : clockEdge p s = engineComplete u := by
  subst hp
  exact clockEdge_completes hs hu hl

/-- Settles O15: the port's part of each transaction, and then the completion, unless the port's part is a reset. -/
theorem completionAndTransactionAtOneEdge : Obligations.CompletionAndTransactionAtOneEdge := by
  intro s rest hs hl
  refine ⟨fun a => ?_, fun a v ha => ?_, fun v hv => ?_, fun v hv => ?_, fun p hp => ?_⟩
  · exact (step_read rfl).trans (clockEdge_completes_after rfl hs hs hl)
  · have dropped : memWrite { s with host := rest } a v = { s with host := rest } := memWrite_not_idle v (by simp [hs]) ha
    exact (step_write (a := a) (v := v) rfl).trans (clockEdge_completes_after dropped hs hs hl)
  · have enables := memWrite_ctrl_enables { s with host := rest } hv
    exact (step_write (a := 0) (v := v) rfl).trans (clockEdge_completes_after enables hs hs hl)
  · exact step_cycle_of_reset rfl ((resetInputs_iff _).mpr (.inr ⟨rfl, rfl, rfl, hv⟩))
  · exact step_cycle_of_reset rfl ((resetInputs_iff _).mpr (.inl hp))

end Sys2Proof.Proofs
end

section
/-! The command word as numbers: its five fields, the word made of them, and the words the encoder and the decoder agree on
(`30_encoding.md` R90 to R94, R102). -/

namespace Sys2Proof.Proofs

open Sys2Proof.Machine Sys2Proof.Safety Sys2Proof.Laws

@[simp] theorem toNat_opField (w : Word) : (opField w).toNat = w.toNat % 2 ^ 8 := by
  rw [opField, BitVec.extractLsb'_toNat, Nat.shiftRight_zero]

@[simp] theorem toNat_rdField (w : Word) : (rdField w).toNat = w.toNat / 2 ^ 8 % 16 := by
  rw [rdField, BitVec.extractLsb'_toNat, Nat.shiftRight_eq_div_pow]

@[simp] theorem toNat_rs1Field (w : Word) : (rs1Field w).toNat = w.toNat / 2 ^ 12 % 16 := by
  rw [rs1Field, BitVec.extractLsb'_toNat, Nat.shiftRight_eq_div_pow]

@[simp] theorem toNat_rs2Field (w : Word) : (rs2Field w).toNat = w.toNat / 2 ^ 16 % 16 := by
  rw [rs2Field, BitVec.extractLsb'_toNat, Nat.shiftRight_eq_div_pow]

@[simp] theorem toNat_zeroField (w : Word) : (zeroField w).toNat = w.toNat / 2 ^ 20 := by
  rw [zeroField, BitVec.extractLsb'_toNat, Nat.shiftRight_eq_div_pow]
  omega

theorem zeroField_eq_zero_iff (w : Word) : zeroField w = 0 ↔ w.toNat / 2 ^ 20 = 0 := by
  rw [← BitVec.toNat_inj, toNat_zeroField]
  rfl

/-- A field put in above the bits of a word adds its value at that place. -/
theorem toNat_or_field {low : Word} {v k : Nat} (hlow : low.toNat < 2 ^ k) (hv : v * 2 ^ k < 2 ^ 32) :
    (low ||| BitVec.ofNat 32 v <<< k).toNat = low.toNat + v * 2 ^ k := by
  have hv' : v < 2 ^ 32 := (Nat.le_mul_of_pos_right v (Nat.two_pow_pos k)).trans_lt hv
  rw [BitVec.toNat_or, BitVec.toNat_shiftLeft, BitVec.toNat_ofNat, Nat.mod_eq_of_lt hv', Nat.shiftLeft_eq, Nat.mod_eq_of_lt hv,
    Nat.or_comm, Nat.mul_comm, ← Nat.two_pow_add_eq_or_of_lt hlow, Nat.add_comm]

theorem toNat_packWord {op rd rs1 rs2 : Nat} (hop : op < 2 ^ 8) (hrd : rd < 16) (hrs1 : rs1 < 16) (hrs2 : rs2 < 16) :
    (packWord op rd rs1 rs2).toNat = op + rd * 2 ^ 8 + rs1 * 2 ^ 12 + rs2 * 2 ^ 16 := by
  have e₀ : (BitVec.ofNat 32 op).toNat = op := Nat.mod_eq_of_lt (by omega)
  have e₁ := toNat_or_field (low := BitVec.ofNat 32 op) (v := rd) (k := 8) (by omega) (by omega)
  have e₂ := toNat_or_field (low := _ ||| _) (v := rs1) (k := 12) (e₁.trans_lt (by omega)) (by omega)
  have e₃ := toNat_or_field (low := _ ||| _) (v := rs2) (k := 16) (e₂.trans_lt (by omega)) (by omega)
  rw [packWord, e₃, e₂, e₁, e₀]

/-- What the fields of a command word hold as numbers, but for `zero`. -/
structure CommandFields where
  op : Nat
  rd : Nat
  rs1 : Nat
  rs2 : Nat

/-- The fields of a word (R94). -/
def wordFields (w : Word) : CommandFields :=
  ⟨(opField w).toNat, (rdField w).toNat, (rs1Field w).toNat, (rs2Field w).toNat⟩

/-- The fields of a command: its opcode (R92), its operands, and 0 where its format uses none (R93). -/
def instrFields : Instr → CommandFields
  | .fadd d a b => ⟨0x10, d, a, b⟩
  | .fsub d a b => ⟨0x11, d, a, b⟩
  | .fmul d a b => ⟨0x12, d, a, b⟩
  | .fdiv d a b => ⟨0x13, d, a, b⟩
  | .finv d a => ⟨0x14, d, a, 0⟩
  | .fpow d a e => ⟨0x15, d, a, e⟩
  | .pnew d x y => ⟨0x20, d, x, y⟩
  | .pinf d => ⟨0x21, d, 0, 0⟩
  | .padd d a b => ⟨0x22, d, a, b⟩
  | .smul d a k => ⟨0x30, d, a, k⟩

theorem encode_eq_packWord (i : Instr) :
    encode i = packWord (instrFields i).op (instrFields i).rd (instrFields i).rs1 (instrFields i).rs2 := by
  cases i <;> rfl

theorem instrFields_lt (i : Instr) :
    (instrFields i).op < 2 ^ 8 ∧ (instrFields i).rd < 16 ∧ (instrFields i).rs1 < 16 ∧ (instrFields i).rs2 < 16 := by
  cases i <;> simp only [instrFields] <;> omega

/-- A packed word is `w` exactly where `zero` is 0 in `w` and its fields are the packed ones. -/
theorem packWord_eq_iff {f : CommandFields} (hop : f.op < 2 ^ 8) (hrd : f.rd < 16) (hrs1 : f.rs1 < 16) (hrs2 : f.rs2 < 16)
    (w : Word) : packWord f.op f.rd f.rs1 f.rs2 = w ↔ zeroField w = 0 ∧ wordFields w = f := by
  rw [← BitVec.toNat_inj, toNat_packWord hop hrd hrs1 hrs2, zeroField_eq_zero_iff]
  obtain ⟨op, rd, rs1, rs2⟩ := f
  simp only [wordFields, CommandFields.mk.injEq, toNat_opField, toNat_rdField, toNat_rs1Field, toNat_rs2Field] at *
  omega

theorem encode_eq_iff (w : Word) (i : Instr) : encode i = w ↔ zeroField w = 0 ∧ wordFields w = instrFields i := by
  obtain ⟨hop, hrd, hrs1, hrs2⟩ := instrFields_lt i
  rw [encode_eq_packWord, packWord_eq_iff hop hrd hrs1 hrs2]

/-! ### The decoder -/

/-- A format's decoder answers exactly where each of its three fields does. -/
theorem operands_eq_ok_iff {α β γ : Type} {x : Except Illegal α} {y : Except Illegal β} {z : Except Illegal γ}
    {mk : α → β → γ → Instr} {i : Instr} :
    (do let d ← x; let a ← y; let b ← z; return mk d a b) = Except.ok i ↔
      ∃ d a b, mk d a b = i ∧ x = .ok d ∧ y = .ok a ∧ z = .ok b := by
  cases x with
  | error e => simp [bind, Except.bind]
  | ok d => cases y with
    | error e => simp [bind, Except.bind]
    | ok a => cases z with
      | error e => simp [bind, Except.bind]
      | ok b => simp [bind, Except.bind, pure, Except.pure]

theorem fIndexOf_eq_ok_iff {x : BitVec 4} {i : FReg} : fIndexOf x = .ok i ↔ x.toNat = i.val := by
  unfold fIndexOf
  split
  · simp [Fin.ext_iff]
  · simp; omega

theorem qIndexOf_eq_ok_iff {x : BitVec 4} {i : QReg} : qIndexOf x = .ok i ↔ x.toNat = i.val := by
  unfold qIndexOf
  split
  · simp [Fin.ext_iff]
  · simp; omega

theorem unusedOf_eq_ok_iff {x : BitVec 4} {u : Unit} : unusedOf x = .ok u ↔ x.toNat = 0 := by
  unfold unusedOf
  split
  · simp [*]
  · simp only [reduceCtorEq, false_iff]
    exact fun h => ‹x ≠ 0› (BitVec.eq_of_toNat_eq h)

theorem decodeF3_eq_ok_iff {mk : FReg → FReg → FReg → Instr} {w : Word} {i : Instr} {op : Nat} (hop : (opField w).toNat = op) :
    decodeF3 mk w = .ok i ↔ ∃ (d : FReg) (a : FReg) (b : FReg), mk d a b = i ∧ wordFields w = ⟨op, d, a, b⟩ := by
  subst hop
  simp only [decodeF3, operands_eq_ok_iff, fIndexOf_eq_ok_iff, wordFields, CommandFields.mk.injEq,
    true_and]

theorem decodeF2_eq_ok_iff {mk : FReg → FReg → Instr} {w : Word} {i : Instr} {op : Nat} (hop : (opField w).toNat = op) :
    decodeF2 mk w = .ok i ↔ ∃ (d : FReg) (a : FReg), mk d a = i ∧ wordFields w = ⟨op, d, a, 0⟩ := by
  subst hop
  simp only [decodeF2, operands_eq_ok_iff, fIndexOf_eq_ok_iff, unusedOf_eq_ok_iff, wordFields, CommandFields.mk.injEq,
    true_and, exists_const]

theorem decodePN_eq_ok_iff {mk : QReg → FReg → FReg → Instr} {w : Word} {i : Instr} {op : Nat} (hop : (opField w).toNat = op) :
    decodePN mk w = .ok i ↔ ∃ (d : QReg) (x : FReg) (y : FReg), mk d x y = i ∧ wordFields w = ⟨op, d, x, y⟩ := by
  subst hop
  simp only [decodePN, operands_eq_ok_iff, fIndexOf_eq_ok_iff, qIndexOf_eq_ok_iff, wordFields, CommandFields.mk.injEq,
    true_and]

theorem decodeP1_eq_ok_iff {mk : QReg → Instr} {w : Word} {i : Instr} {op : Nat} (hop : (opField w).toNat = op) :
    decodeP1 mk w = .ok i ↔ ∃ (d : QReg), mk d = i ∧ wordFields w = ⟨op, d, 0, 0⟩ := by
  subst hop
  simp only [decodeP1, operands_eq_ok_iff, qIndexOf_eq_ok_iff, unusedOf_eq_ok_iff, wordFields, CommandFields.mk.injEq,
    true_and, exists_const]

theorem decodeP3_eq_ok_iff {mk : QReg → QReg → QReg → Instr} {w : Word} {i : Instr} {op : Nat} (hop : (opField w).toNat = op) :
    decodeP3 mk w = .ok i ↔ ∃ (d : QReg) (a : QReg) (b : QReg), mk d a b = i ∧ wordFields w = ⟨op, d, a, b⟩ := by
  subst hop
  simp only [decodeP3, operands_eq_ok_iff, qIndexOf_eq_ok_iff, wordFields, CommandFields.mk.injEq,
    true_and]

theorem decodePS_eq_ok_iff {mk : QReg → QReg → FReg → Instr} {w : Word} {i : Instr} {op : Nat} (hop : (opField w).toNat = op) :
    decodePS mk w = .ok i ↔ ∃ (d : QReg) (a : QReg) (k : FReg), mk d a k = i ∧ wordFields w = ⟨op, d, a, k⟩ := by
  subst hop
  simp only [decodePS, operands_eq_ok_iff, fIndexOf_eq_ok_iff, qIndexOf_eq_ok_iff, wordFields, CommandFields.mk.injEq,
    true_and]

theorem wordFields_of_decode {w : Word} {i : Instr} (h : decode w = .ok i) : zeroField w = 0 ∧ wordFields w = instrFields i := by
  unfold decode at h
  split at h
  · cases h
  · refine ⟨not_not.mp ‹_›, ?_⟩
    split at h
    case h_1 hop | h_2 hop | h_3 hop | h_4 hop | h_6 hop =>
      obtain ⟨d, a, b, rfl, hf⟩ := (decodeF3_eq_ok_iff hop).mp h
      exact hf
    case h_5 hop =>
      obtain ⟨d, a, rfl, hf⟩ := (decodeF2_eq_ok_iff hop).mp h
      exact hf
    case h_7 hop =>
      obtain ⟨d, x, y, rfl, hf⟩ := (decodePN_eq_ok_iff hop).mp h
      exact hf
    case h_8 hop =>
      obtain ⟨d, rfl, hf⟩ := (decodeP1_eq_ok_iff hop).mp h
      exact hf
    case h_9 hop =>
      obtain ⟨d, a, b, rfl, hf⟩ := (decodeP3_eq_ok_iff hop).mp h
      exact hf
    case h_10 hop =>
      obtain ⟨d, a, k, rfl, hf⟩ := (decodePS_eq_ok_iff hop).mp h
      exact hf
    case h_11 => cases h

theorem decode_of_fields {w : Word} {i : Instr} (hz : zeroField w = 0) (h : wordFields w = instrFields i) : decode w = .ok i := by
  have hop : (opField w).toNat = (instrFields i).op := congrArg CommandFields.op h
  cases i with
  | fadd d a b | fsub d a b | fmul d a b | fdiv d a b | fpow d a b =>
    simp only [decode, hz, hop]
    exact (decodeF3_eq_ok_iff hop).mpr ⟨d, a, b, rfl, h⟩
  | finv d a =>
    simp only [decode, hz, hop]
    exact (decodeF2_eq_ok_iff hop).mpr ⟨d, a, rfl, h⟩
  | pnew d x y =>
    simp only [decode, hz, hop]
    exact (decodePN_eq_ok_iff hop).mpr ⟨d, x, y, rfl, h⟩
  | pinf d =>
    simp only [decode, hz, hop]
    exact (decodeP1_eq_ok_iff hop).mpr ⟨d, rfl, h⟩
  | padd d a b =>
    simp only [decode, hz, hop]
    exact (decodeP3_eq_ok_iff hop).mpr ⟨d, a, b, rfl, h⟩
  | smul d a k =>
    simp only [decode, hz, hop]
    exact (decodePS_eq_ok_iff hop).mpr ⟨d, a, k, rfl, h⟩

/-- Settles O1: the decoder and the encoder both say that `zero` is 0 and the word's fields are the command's. -/
theorem decodeEncodeAgree : Obligations.DecodeEncodeAgree := fun w i =>
  ⟨fun h => (encode_eq_iff w i).mpr (wordFields_of_decode h),
    fun h => let ⟨hz, hf⟩ := (encode_eq_iff w i).mp h; decode_of_fields hz hf⟩

/-- Settles O2: the encoder writes these words of these commands. -/
theorem specWordsDecodeAsWritten : Obligations.SpecWordsDecodeAsWritten := by
  unfold Obligations.SpecWordsDecodeAsWritten
  simp only [decodeEncodeAgree _ _]
  decide

end Sys2Proof.Proofs
end

section
/-! The `match` and `mask` columns of the opcode table against the decoder, and the words both refuse (`30_encoding.md` R92, R95 to R97). -/

namespace Sys2Proof.Proofs

open Sys2Proof.Machine Sys2Proof.Safety Sys2Proof.Laws

theorem encode_wellFormed (i : Instr) : EncodeWellFormed.Statement i :=
  match i with
  | .fadd d a b => EncodeWellFormed.fadd d a b
  | .fsub d a b => EncodeWellFormed.fsub d a b
  | .fmul d a b => EncodeWellFormed.fmul d a b
  | .fdiv d a b => EncodeWellFormed.fdiv d a b
  | .finv d a => EncodeWellFormed.finv d a
  | .fpow d a e => EncodeWellFormed.fpow d a e
  | .pnew d x y => EncodeWellFormed.pnew d x y
  | .pinf d => EncodeWellFormed.pinf d
  | .padd d a b => EncodeWellFormed.padd d a b
  | .smul d a k => EncodeWellFormed.smul d a k

/-- A decoded command's own row takes its word. -/
theorem exists_row_of_decode {w : Word} {i : Instr} (h : decode w = .ok i) :
    ∃ r ∈ opcodeRows, r.takes w = true ∧ r.mnemonic = i.mnemonic := by
  obtain rfl := (decodeEncodeAgree w i).mp h
  have own : i.mnemonic ∈ (opcodeRows.filter (·.takes (encode i))).map (·.mnemonic) := by
    rw [encode_wellFormed i]
    exact List.mem_singleton_self _
  obtain ⟨r, hr, hm⟩ := List.mem_map.mp own
  obtain ⟨hr, ht⟩ := List.mem_filter.mp hr
  exact ⟨r, hr, ht, hm⟩

/-- Two rows that take one word have its opcode, and no two rows of the table have one opcode. -/
theorem row_unique {r r' : Row} (hr : r ∈ opcodeRows) (hr' : r' ∈ opcodeRows) {w : Word} (h : r.takes w = true)
    (h' : r'.takes w = true) : r = r' :=
  (by decide : ∀ r ∈ opcodeRows, ∀ r' ∈ opcodeRows, r.pattern = r'.pattern → r = r') r hr r' hr'
    ((EncodeWellFormed.takes_opcode hr h).symm.trans (EncodeWellFormed.takes_opcode hr' h'))

theorem word_eq_of_fields {w v : Word} (hz : zeroField w = zeroField v) (hop : opField w = opField v) (hrd : rdField w = rdField v)
    (hrs1 : rs1Field w = rs1Field v) (hrs2 : rs2Field w = rs2Field v) : w = v := by
  simp only [← BitVec.toNat_inj, toNat_zeroField, toNat_opField, toNat_rdField, toNat_rs1Field, toNat_rs2Field] at *
  omega

/-- A row takes a word field by field. -/
theorem takes_iff_fields (r : Row) (w : Word) : r.takes w = true ↔
    zeroField w &&& zeroField r.mask = zeroField r.pattern ∧ opField w &&& opField r.mask = opField r.pattern ∧
    rdField w &&& rdField r.mask = rdField r.pattern ∧ rs1Field w &&& rs1Field r.mask = rs1Field r.pattern ∧
    rs2Field w &&& rs2Field r.mask = rs2Field r.pattern := by
  have fields : ∀ n k, (w &&& r.mask).extractLsb' n k = w.extractLsb' n k &&& r.mask.extractLsb' n k := fun _ _ => BitVec.extractLsb'_and
  simp only [Row.takes, decide_eq_true_eq, zeroField, opField, rdField, rs1Field, rs2Field, ← fields]
  exact ⟨fun h => by simp only [h, and_self], fun ⟨hz, hop, hrd, hrs1, hrs2⟩ => word_eq_of_fields hz hop hrd hrs1 hrs2⟩

/-- How many values a nibble of a mask leaves to its field: 8 for an `F` index, 4 for a `Q` index, 1 for an unused field (R91). -/
def legalValues (mask : BitVec 4) : Nat := 16 - mask.toNat

theorem and_mask_eq_zero_iff {m : BitVec 4} (hm : m ∈ [8#4, 12#4, 15#4]) (x : BitVec 4) :
    x &&& m = 0 ↔ x.toNat < legalValues m :=
  (by decide : ∀ m ∈ [8#4, 12#4, 15#4], ∀ x : BitVec 4, x &&& m = 0 ↔ x.toNat < legalValues m) m hm x

/-- Every row asks for its opcode and for `zero = 0`, and leaves to each other field as many values as its mask's nibble says. -/
theorem takes_iff_legal {r : Row} (hr : r ∈ opcodeRows) (w : Word) : r.takes w = true ↔
    zeroField w = 0 ∧ opField w = opField r.pattern ∧ (rdField w).toNat < legalValues (rdField r.mask) ∧
    (rs1Field w).toNat < legalValues (rs1Field r.mask) ∧ (rs2Field w).toNat < legalValues (rs2Field r.mask) := by
  obtain ⟨hzm, hz, hop, hrd, hrdm, hrs1, hrs1m, hrs2, hrs2m⟩ := (by decide : ∀ r ∈ opcodeRows,
    zeroField r.mask = BitVec.allOnes 12 ∧ zeroField r.pattern = 0 ∧ opField r.mask = BitVec.allOnes 8 ∧
    rdField r.pattern = 0 ∧ rdField r.mask ∈ [8#4, 12#4, 15#4] ∧
    rs1Field r.pattern = 0 ∧ rs1Field r.mask ∈ [8#4, 12#4, 15#4] ∧
    rs2Field r.pattern = 0 ∧ rs2Field r.mask ∈ [8#4, 12#4, 15#4]) r hr
  rw [takes_iff_fields, hzm, hz, hop, hrd, hrs1, hrs2, BitVec.and_allOnes, BitVec.and_allOnes, and_mask_eq_zero_iff hrdm,
    and_mask_eq_zero_iff hrs1m, and_mask_eq_zero_iff hrs2m]

/-- A word with the opcode of `p`, `zero = 0` and the operands of `i` decodes to `i`. -/
theorem decode_of_opcode {w p : Word} {i : Instr} (hz : zeroField w = 0) (hop : opField w = opField p)
    (hi : ⟨(opField p).toNat, (rdField w).toNat, (rs1Field w).toNat, (rs2Field w).toNat⟩ = instrFields i) : decode w = .ok i :=
  decode_of_fields hz (by rw [wordFields, hop, hi])

theorem exists_decode_of_takes {r : Row} (hr : r ∈ opcodeRows) {w : Word} (h : r.takes w = true) :
    ∃ i, decode w = .ok i ∧ i.mnemonic = r.mnemonic := by
  obtain ⟨hz, hop, hd, ha, hb⟩ := (takes_iff_legal hr w).mp h
  simp only [opcodeRows, List.mem_cons, List.not_mem_nil, or_false] at hr
  rcases hr with rfl | rfl | rfl | rfl | rfl | rfl | rfl | rfl | rfl | rfl
  · exact ⟨.fadd ⟨_, hd⟩ ⟨_, ha⟩ ⟨_, hb⟩, decode_of_opcode hz hop rfl, rfl⟩
  · exact ⟨.fsub ⟨_, hd⟩ ⟨_, ha⟩ ⟨_, hb⟩, decode_of_opcode hz hop rfl, rfl⟩
  · exact ⟨.fmul ⟨_, hd⟩ ⟨_, ha⟩ ⟨_, hb⟩, decode_of_opcode hz hop rfl, rfl⟩
  · exact ⟨.fdiv ⟨_, hd⟩ ⟨_, ha⟩ ⟨_, hb⟩, decode_of_opcode hz hop rfl, rfl⟩
  · exact ⟨.finv ⟨_, hd⟩ ⟨_, ha⟩, decode_of_opcode hz hop (by rw [Nat.lt_one_iff.mp hb]; rfl), rfl⟩
  · exact ⟨.fpow ⟨_, hd⟩ ⟨_, ha⟩ ⟨_, hb⟩, decode_of_opcode hz hop rfl, rfl⟩
  · exact ⟨.pnew ⟨_, hd⟩ ⟨_, ha⟩ ⟨_, hb⟩, decode_of_opcode hz hop rfl, rfl⟩
  · exact ⟨.pinf ⟨_, hd⟩, decode_of_opcode hz hop (by rw [Nat.lt_one_iff.mp ha, Nat.lt_one_iff.mp hb]; rfl), rfl⟩
  · exact ⟨.padd ⟨_, hd⟩ ⟨_, ha⟩ ⟨_, hb⟩, decode_of_opcode hz hop rfl, rfl⟩
  · exact ⟨.smul ⟨_, hd⟩ ⟨_, ha⟩ ⟨_, hb⟩, decode_of_opcode hz hop rfl, rfl⟩

/-- Settles O3: a command's own row takes its word, the fields a row leaves free are operands, and one opcode is one row. -/
theorem commandWordsAreTheTableRows : Obligations.CommandWordsAreTheTableRows := fun _ =>
  ⟨fun _ h => exists_row_of_decode h, fun _ hr h => exists_decode_of_takes hr h, fun _ hr _ hr' h h' => row_unique hr hr' h h'⟩

/-- The decoder refuses a word exactly where no row takes it (R95, R96). -/
theorem decode_error_iff (w : Word) : (∃ e, decode w = .error e) ↔ ¬∃ r ∈ opcodeRows, r.takes w = true := by
  cases h : decode w with
  | ok i =>
    obtain ⟨r, hr, ht, _⟩ := exists_row_of_decode h
    simpa using ⟨r, hr, ht⟩
  | error e =>
    refine iff_of_true ⟨e, rfl⟩ fun ⟨r, hr, ht⟩ => ?_
    obtain ⟨i, hi, _⟩ := exists_decode_of_takes hr ht
    exact nomatch h.symm.trans hi

/-- What a row asks of a word with `zero = 0`, in numbers: the opcode, and below what each other field must be. -/
def rowLimits (r : Row) : CommandFields :=
  ⟨r.pattern.toNat % 2 ^ 8, legalValues (rdField r.mask), legalValues (rs1Field r.mask), legalValues (rs2Field r.mask)⟩

theorem map_rowLimits : opcodeRows.map rowLimits =
    [⟨0x10, 8, 8, 8⟩, ⟨0x11, 8, 8, 8⟩, ⟨0x12, 8, 8, 8⟩, ⟨0x13, 8, 8, 8⟩, ⟨0x14, 8, 8, 1⟩, ⟨0x15, 8, 8, 8⟩,
     ⟨0x20, 4, 8, 8⟩, ⟨0x21, 4, 1, 1⟩, ⟨0x22, 4, 4, 4⟩, ⟨0x30, 4, 4, 8⟩] := rfl

/-- The refused words are those within no row's limits. -/
theorem decode_error_iff_limits (w : Word) : (∃ e, decode w = .error e) ↔
    ¬∃ l ∈ opcodeRows.map rowLimits, w.toNat / 2 ^ 20 = 0 ∧ w.toNat % 2 ^ 8 = l.op ∧ w.toNat / 2 ^ 8 % 16 < l.rd ∧
      w.toNat / 2 ^ 12 % 16 < l.rs1 ∧ w.toNat / 2 ^ 16 % 16 < l.rs2 := by
  simp only [decode_error_iff, List.mem_map, exists_exists_and_eq_and]
  refine not_congr (exists_congr fun r => and_congr_right fun hr => ?_)
  rw [takes_iff_legal hr, zeroField_eq_zero_iff, ← BitVec.toNat_inj, toNat_opField, toNat_opField, toNat_rdField, toNat_rs1Field,
    toNat_rs2Field, rowLimits]

/-- Settles O4: for each opcode of the table the classes (b) to (e) are what its one row refuses, and every other opcode is of class (a). -/
theorem illegalWordsAreTheFiveClasses : Obligations.IllegalWordsAreTheFiveClasses := by
  intro w
  constructor
  · rw [decode_error_iff_limits, map_rowLimits]
    generalize w.toNat / 2 ^ 20 = z, w.toNat % 2 ^ 8 = op, w.toNat / 2 ^ 8 % 16 = rd, w.toNat / 2 ^ 12 % 16 = rs1,
      w.toNat / 2 ^ 16 % 16 = rs2
    by_cases hop : op ∈ [0x10, 0x11, 0x12, 0x13, 0x14, 0x15, 0x20, 0x21, 0x22, 0x30]
    · fin_cases hop
      all_goals
        simp
        omega
    · refine iff_of_true ?_ (.inl hop)
      simp only [List.mem_cons, List.not_mem_nil, or_false, not_or] at hop
      simp [hop]
  · rintro s rfl ⟨e, he⟩
    obtain ⟨i, hi, _⟩ | ⟨_, _, faults⟩ := engineComplete_cases s
    · exact nomatch he.symm.trans hi
    · exact faults

end Sys2Proof.Proofs
end

section
/-! The inverse, the quotient and the power of the field unit: Euclid's algorithm and square-and-multiply against the equations
that define their results (`40_field.md` R126 to R128). -/

namespace Sys2Proof.Proofs

open Sys2Proof.Machine Sys2Proof.Safety Sys2Proof.Laws

theorem mod_eq_of_cast_eq {n r p : Nat} (hr : r < p) (h : (n : ZMod p) = (r : ZMod p)) : n % p = r :=
  ((ZMod.natCast_eq_natCast_iff' n r p).mp h).trans (Nat.mod_eq_of_lt hr)

theorem lt_two_pow_bitlen (k : Nat) : k < 2 ^ bitlen k := by
  unfold bitlen
  split
  · simp [*]
  · exact Nat.lt_log2_self

theorem euclid_zero_right (p n r0 t0 t1 : Nat) : euclid p n r0 t0 0 t1 = (r0, t0) := by
  cases n <;> rfl

theorem euclid_succ (n t0 t1 : Nat) {p r0 r1 : Nat} (h : r1 ≠ 0) :
    euclid p (n + 1) r0 t0 r1 t1 = euclid p n r1 t1 (r0 % r1) (fsub t0 (fmul (r0 / r1) t1 p) p) := if_neg h

/-- A division more than halves the product of the two remainders. -/
theorem two_mul_mul_mod_lt {r0 r1 : Nat} (hpos : 0 < r1) (hle : r1 ≤ r0) : 2 * (r1 * (r0 % r1)) < r0 * r1 := by
  have hmod : r0 % r1 < r1 := Nat.mod_lt r0 hpos
  have hsum : r1 + r0 % r1 ≤ r0 := by
    have hdiv : r1 * 1 ≤ r1 * (r0 / r1) := Nat.mul_le_mul_left r1 (Nat.div_pos hle hpos)
    have := Nat.div_add_mod r0 r1
    omega
  calc 2 * (r1 * (r0 % r1)) = 2 * (r0 % r1) * r1 := by ring
    _ < r0 * r1 := Nat.mul_lt_mul_of_pos_right (by omega) hpos

/-- With divisions enough for the product of the remainders, the last non-zero remainder is the greatest common divisor. -/
theorem euclid_fst (p : Nat) {n r0 r1 : Nat} (t0 t1 : Nat) (hle : r1 ≤ r0) (hn : r0 * r1 < 2 ^ n) :
    (euclid p n r0 t0 r1 t1).1 = Nat.gcd r0 r1 := by
  induction n generalizing r0 t0 r1 t1 with
  | zero =>
    obtain rfl : r1 = 0 := by
      by_contra h
      have := Nat.mul_pos (by omega : 0 < r0) (Nat.pos_of_ne_zero h)
      omega
    exact (Nat.gcd_zero_right r0).symm
  | succ n ih =>
    by_cases h : r1 = 0
    · rw [h, euclid_zero_right, Nat.gcd_zero_right]
    · have hpos := Nat.pos_of_ne_zero h
      have half := two_mul_mul_mod_lt hpos hle
      rw [euclid_succ n t0 t1 h, ih _ _ (Nat.mod_lt r0 hpos).le (by omega), Nat.gcd_comm, ← Nat.gcd_rec, Nat.gcd_comm]

/-- Each remainder stays the product of the divisor `b` with its own factor, modulo `p`. -/
theorem euclid_snd {p n r0 r1 t0 t1 b : Nat} (h0 : t0 < p) (h1 : t1 < p)
    (e0 : (b : ZMod p) * t0 = r0) (e1 : (b : ZMod p) * t1 = r1) :
    (euclid p n r0 t0 r1 t1).2 < p ∧ (b : ZMod p) * (euclid p n r0 t0 r1 t1).2 = (euclid p n r0 t0 r1 t1).1 := by
  induction n generalizing r0 t0 r1 t1 with
  | zero => exact ⟨h0, e0⟩
  | succ n ih =>
    by_cases h : r1 = 0
    · rw [h, euclid_zero_right]
      exact ⟨h0, e0⟩
    · have hmul : fmul (r0 / r1) t1 p < p := fmul_lt (by omega)
      have hdiv : (r1 : ZMod p) * (r0 / r1 : Nat) + (r0 % r1 : Nat) = r0 := by
        rw [← Nat.cast_mul, ← Nat.cast_add, Nat.div_add_mod]
      rw [euclid_succ n t0 t1 h]
      refine ih h1 (fsub_lt h0 hmul) e1 ?_
      rw [fsub_cast hmul, fmul_cast, mul_sub, e0, mul_left_comm, e1, ← hdiv]
      ring

/-- The number of divisions that `finv` allows is enough for its first two remainders. -/
theorem mul_lt_two_pow_divisions {b p : Nat} (hb : b < p) : p * b < 2 ^ (2 * bitlen p) := by
  have hp := lt_two_pow_bitlen p
  calc p * b < 2 ^ bitlen p * 2 ^ bitlen p := Nat.mul_lt_mul'' hp (hb.trans hp)
    _ = 2 ^ (2 * bitlen p) := by rw [← pow_add, two_mul]

/-- `finv` answers an inverse where the gcd is 1 and the fault otherwise (R127). -/
theorem finv_cases {b p : Nat} (hp : 2 ≤ p) (hb : b < p) :
    (Nat.gcd b p = 1 ∧ ∃ v, v < p ∧ b * v % p = 1 ∧ finv b p = .ok v) ∨
    (Nat.gcd b p ≠ 1 ∧ finv b p = .error .nonInvertibleDivisor) := by
  have hgcd := (euclid_fst p 0 1 hb.le (mul_lt_two_pow_divisions hb)).trans (Nat.gcd_comm p b)
  obtain ⟨hlt, hinv⟩ := euclid_snd (n := 2 * bitlen p) (b := b) (r0 := p) (r1 := b) (by omega : 0 < p) (by omega : 1 < p)
    (by simp) (by simp)
  simp only [finv]
  generalize euclid p (2 * bitlen p) p 0 b 1 = result at hgcd hlt hinv
  obtain ⟨g, v⟩ := result
  subst hgcd
  by_cases h : Nat.gcd b p = 1
  · exact .inl ⟨h, v, hlt, mod_eq_of_cast_eq (by omega) (by rw [Nat.cast_mul, hinv, h]), if_pos h⟩
  · exact .inr ⟨h, if_neg h⟩

theorem gcd_eq_one_of_inverse {b v p : Nat} (hp : 2 ≤ p) (h : b * v % p = 1) : Nat.gcd b p = 1 :=
  Nat.coprime_of_mul_modEq_one v (h.trans (Nat.mod_eq_of_lt hp).symm)

theorem inverse_unique {b v w p : Nat} (hp : 2 ≤ p) (hv : v < p) (hw : w < p) (ev : b * v % p = 1) (ew : b * w % p = 1) : v = w :=
  have hgcd : Nat.gcd p b = 1 := (Nat.gcd_comm p b).trans (gcd_eq_one_of_inverse hp ev)
  (Nat.ModEq.cancel_left_of_coprime hgcd (ev.trans ew.symm)).eq_of_lt_of_lt hv hw

/-- Settles O28, from the two cases of `finv_cases`. -/
theorem inverseIsTheUniqueInverse : Obligations.InverseIsTheUniqueInverse := by
  intro b p hp hb
  obtain ⟨hgcd, v, hv, hinv, hok⟩ | ⟨hgcd, hfault⟩ := finv_cases hp hb
  · refine ⟨fun w hw hw' => ?_, fun w hw => ?_, ⟨fun _ => hgcd, fun _ => ⟨v, hok⟩⟩, fun h => absurd hgcd h,
      fun hprime => ?_⟩
    · rw [hok, inverse_unique hp hv hw hinv hw']
    · cases hok.symm.trans hw
      exact ⟨hv, hinv⟩
    · refine iff_of_false (by rw [hok]; nofun) ?_
      rintro rfl
      exact hprime.ne_one ((Nat.gcd_zero_left p).symm.trans hgcd)
  · have no_inverse (w : Nat) : finv b p ≠ .ok w := by rw [hfault]; nofun
    refine ⟨fun w _ hw => absurd (gcd_eq_one_of_inverse hp hw) hgcd, fun w hw => absurd hw (no_inverse w),
      iff_of_false (fun ⟨w, hw⟩ => no_inverse w hw) hgcd, fun _ => hfault, fun hprime => iff_of_true hfault ?_⟩
    by_contra hb0
    exact hgcd (Nat.coprime_of_lt_prime hb0 hb hprime).symm

/-- `fdiv` answers the quotient where the divisor has an inverse and the fault otherwise (R126). -/
theorem fdiv_quotient_cases {a b p : Nat} (hp : 2 ≤ p) (ha : a < p) (hb : b < p) :
    (Nat.gcd b p = 1 ∧ ∃ q, q < p ∧ b * q % p = a ∧ fdiv a b p = .ok q) ∨
    (Nat.gcd b p ≠ 1 ∧ fdiv a b p = .error .nonInvertibleDivisor) := by
  obtain ⟨hgcd, v, _, hinv, hok⟩ | ⟨hgcd, hfault⟩ := finv_cases hp hb
  · refine .inl ⟨hgcd, fmul a v p, fmul_lt (by omega), ?_, by rw [fdiv, hok]⟩
    calc b * (a * v % p) % p = a * (b * v % p) % p := by rw [Nat.mul_mod_mod, Nat.mul_mod_mod, Nat.mul_left_comm]
      _ = a := by rw [hinv, Nat.mul_one, Nat.mod_eq_of_lt ha]
  · exact .inr ⟨hgcd, by rw [fdiv, hfault]⟩

/-! ### The power -/

/-- Square and multiply: what is still to be multiplied in is the base to the bits of the exponent still left. -/
theorem powLoop_spec {p n acc base e : Nat} (hacc : acc < p) (he : e < 2 ^ n) :
    powLoop p n acc base e < p ∧ (powLoop p n acc base e : ZMod p) = (acc : ZMod p) * (base : ZMod p) ^ e := by
  induction n generalizing acc base e with
  | zero =>
    obtain rfl := Nat.lt_one_iff.mp he
    exact ⟨hacc, by rw [powLoop, pow_zero, mul_one]⟩
  | succ n ih =>
    have hhalf : e / 2 < 2 ^ n := by omega
    have hsquare : ((fmul base base p : Nat) : ZMod p) ^ (e / 2) = (base : ZMod p) ^ (2 * (e / 2)) := by
      rw [fmul_cast, ← pow_two, ← pow_mul]
    rw [powLoop]
    split_ifs with hzero hodd
    · exact ⟨hacc, by rw [hzero, pow_zero, mul_one]⟩
    · obtain ⟨hlt, hcast⟩ := ih (acc := fmul acc base p) (base := fmul base base p) (fmul_lt (by omega)) hhalf
      refine ⟨hlt, ?_⟩
      rw [hcast, hsquare, fmul_cast, mul_assoc, ← pow_succ', (by omega : 2 * (e / 2) + 1 = e)]
    · obtain ⟨hlt, hcast⟩ := ih (base := fmul base base p) hacc hhalf
      exact ⟨hlt, by rw [hcast, hsquare, (by omega : 2 * (e / 2) = e)]⟩

theorem fpow_eq_pow_mod {a e p : Nat} (hp : 2 ≤ p) : fpow a e p = a ^ e % p := by
  obtain ⟨hlt, hcast⟩ := powLoop_spec (base := a) (by omega : 1 < p) (lt_two_pow_bitlen e)
  refine (mod_eq_of_cast_eq hlt ?_).symm
  rw [hcast, Nat.cast_one, one_mul, Nat.cast_pow]

/-- Settles O29: the power `fpow` answers obeys the law of powers. -/
theorem powerIsTheRepeatedProduct : Obligations.PowerIsTheRepeatedProduct := by
  intro a p hp
  refine ⟨rfl, fun e => ⟨?_, fpow_eq_pow_mod hp⟩⟩
  rw [fpow_eq_pow_mod hp, fpow_eq_pow_mod hp, pow_succ, Nat.mod_mul_mod]

end Sys2Proof.Proofs
end

section
/-! The six commands of the field unit: the word of each, its result, and its faults in their order (`30_encoding.md` R92, R93;
`40_field.md` R121, R130 to R135). -/

namespace Sys2Proof.Proofs

open Sys2Proof.Machine Sys2Proof.Safety Sys2Proof.Laws

/-- The word with a command's fields, added up at their places, decodes to that command. -/
theorem decode_instrFields (i : Instr) : decode (BitVec.ofNat 32
    ((instrFields i).op + (instrFields i).rd * 2 ^ 8 + (instrFields i).rs1 * 2 ^ 12 + (instrFields i).rs2 * 2 ^ 16)) = .ok i := by
  obtain ⟨hop, hrd, hrs1, hrs2⟩ := instrFields_lt i
  rw [decodeEncodeAgree, encode_eq_packWord, ← toNat_packWord hop hrd hrs1 hrs2, BitVec.ofNat_toNat, BitVec.setWidth_eq]

theorem withFieldPre_operandRange {α : Type} {p : Nat} {vs : List Nat} (hp : 2 ≤ p) (hv : ∃ v ∈ vs, p ≤ v)
    (r : Except FaultCode α) : withFieldPre p vs r = .error .operandRange := by
  obtain ⟨hlt, _⟩ | ⟨_, _, h⟩ | ⟨_, hall, _⟩ := withFieldPre_cases p vs r
  · omega
  · exact h
  · obtain ⟨v, hmem, hle⟩ := hv
    exact absurd (hall v hmem) (by omega)

theorem withFieldPre_in_range {α : Type} {p : Nat} {vs : List Nat} (hp : 2 ≤ p) (hv : ∀ v ∈ vs, v < p) (r : Except FaultCode α) :
    withFieldPre p vs r = r := by
  obtain ⟨hlt, _⟩ | ⟨_, ⟨v, hmem, hle⟩, _⟩ | ⟨_, _, h⟩ := withFieldPre_cases p vs r
  · omega
  · exact absurd (hv v hmem) (by omega)
  · exact h

/-! ### The clauses of a field command, whose result `r` counts where `FieldPre` raises nothing (R121) -/

section FieldCommand

variable {i : Instr} {d : FReg} {s : State} {vs : List Nat} {r : Except FaultCode Nat}
  (hi : exec i s = finishF d (withFieldPre (modulus s) vs r) s)
include hi

theorem exec_badModulus (hp : modulus s < 2) : exec i s = .next (faultEntry .badModulus s) := by
  rw [hi, withFieldPre_badModulus hp, finishF]

theorem exec_operandRange (hp : 2 ≤ modulus s) (hv : ∃ v ∈ vs, modulus s ≤ v) : exec i s = .next (faultEntry .operandRange s) := by
  rw [hi, withFieldPre_operandRange hp hv, finishF]

theorem exec_commits {v : Nat} (hr : r = .ok v) (hp : 2 ≤ modulus s) (hv : ∀ v ∈ vs, v < modulus s) :
    exec i s = .next (commit (writeF s d (BitVec.ofNat 256 v))) := by
  rw [hi, withFieldPre_in_range hp hv, hr, finishF]

theorem exec_faults {c : FaultCode} (hr : r = .error c) (hp : 2 ≤ modulus s) (hv : ∀ v ∈ vs, v < modulus s) :
    exec i s = .next (faultEntry c s) := by
  rw [hi, withFieldPre_in_range hp hv, hr, finishF]

end FieldCommand

theorem exists_operand_out_of_range {x y p : Nat} (h : p ≤ x ∨ p ≤ y) : ∃ v ∈ [x, y], p ≤ v := by simpa using h

theorem operands_in_range {x y p : Nat} (hx : x < p) (hy : y < p) : ∀ v ∈ [x, y], v < p := by simpa using ⟨hx, hy⟩

/-- Settles O30: the clauses of a field command, with the sum. -/
theorem faddAddsModuloP : Obligations.FaddAddsModuloP := fun d a b _ =>
  ⟨decode_instrFields (.fadd d a b), exec_badModulus rfl, fun hp =>
    ⟨fun h => exec_operandRange rfl hp (exists_operand_out_of_range h),
      fun ha hb => exec_commits rfl rfl hp (operands_in_range ha hb)⟩⟩

/-- Settles O31: the clauses of a field command, with the remainder of the integer difference by `fsub_eq_emod`. -/
theorem fsubSubtractsModuloP : Obligations.FsubSubtractsModuloP := by
  intro d a b s
  refine ⟨decode_instrFields (.fsub d a b), exec_badModulus rfl, fun hp =>
    ⟨fun h => exec_operandRange rfl hp (exists_operand_out_of_range h), fun ha hb => ?_⟩⟩
  rw [← fsub_eq_emod ha hb, BitVec.ofInt_natCast]
  exact exec_commits rfl rfl hp (operands_in_range ha hb)

/-- Settles O32: the clauses of a field command, with the product. -/
theorem fmulMultipliesModuloP : Obligations.FmulMultipliesModuloP := fun d a b _ =>
  ⟨decode_instrFields (.fmul d a b), exec_badModulus rfl, fun hp =>
    ⟨fun h => exec_operandRange rfl hp (exists_operand_out_of_range h),
      fun ha hb => exec_commits rfl rfl hp (operands_in_range ha hb)⟩⟩

/-- Settles O33, from the two cases of `fdiv_quotient_cases`. -/
theorem fdivDividesModuloP : Obligations.FdivDividesModuloP := by
  intro d a b s
  refine ⟨decode_instrFields (.fdiv d a b), exec_badModulus rfl, fun hp =>
    ⟨fun h => exec_operandRange rfl hp (exists_operand_out_of_range h), fun ha hb => ?_⟩⟩
  obtain ⟨hgcd, q, hq, hquot, hok⟩ | ⟨hgcd, hfault⟩ := fdiv_quotient_cases hp ha hb
  · exact ⟨fun h => absurd hgcd h, fun _ => ⟨q, hq, hquot, exec_commits rfl hok hp (operands_in_range ha hb)⟩⟩
  · exact ⟨fun _ => exec_faults rfl hfault hp (operands_in_range ha hb), fun h => absurd h hgcd⟩

/-- Settles O34, from the two cases of `finv_cases`. -/
theorem finvInvertsModuloP : Obligations.FinvInvertsModuloP := by
  intro d a s
  refine ⟨by simpa [instrFields] using decode_instrFields (.finv d a), exec_badModulus rfl, fun hp =>
    ⟨fun h => exec_operandRange rfl hp ⟨_, List.mem_singleton_self _, h⟩, fun ha => ?_⟩⟩
  obtain ⟨hgcd, v, hv, hinv, hok⟩ | ⟨hgcd, hfault⟩ := finv_cases hp ha
  · exact ⟨fun h => absurd hgcd h, fun _ => ⟨v, hv, hinv, exec_commits rfl hok hp (List.forall_mem_singleton.mpr ha)⟩⟩
  · exact ⟨fun _ => exec_faults rfl hfault hp (List.forall_mem_singleton.mpr ha), fun h => absurd h hgcd⟩

/-- Settles O35: the exponent is not among the range-checked operands. -/
theorem fpowRaisesModuloP : Obligations.FpowRaisesModuloP := fun d a e _ =>
  ⟨decode_instrFields (.fpow d a e), exec_badModulus rfl, fun hp =>
    ⟨fun h => exec_operandRange rfl hp ⟨_, List.mem_singleton_self _, h⟩, fun ha =>
      exec_commits rfl (congrArg Except.ok (fpow_eq_pow_mod hp)) hp (List.forall_mem_singleton.mpr ha)⟩⟩

end Sys2Proof.Proofs
end

section
/-! Which parts of `CURVE` a command reads: a point command that takes its curve from its operands none, a field command only `CURVE.P`
(`40_field.md` section 2 and R121; `41_point.md` R161; `42_scalar.md` R181). -/

namespace Sys2Proof.Proofs

open Sys2Proof.Machine Sys2Proof.Safety Sys2Proof.Laws

theorem finishF_curve {d : FReg} {r : Except FaultCode Nat} {s t : State} (c : Curve) (h : finishF d r s = .next t) :
    finishF d r { s with curve := c } = .next { t with curve := c } := by
  cases r <;> cases h <;> rfl

theorem finishQ_curve {d : QReg} {r : Except FaultCode PointRec} {s t : State} (c : Curve) (h : finishQ d r s = .next t) :
    finishQ d r { s with curve := c } = .next { t with curve := c } := by
  cases r <;> cases h <;> rfl

/-- How `SMUL` ends after its loop: a commit of `ACC`, or the loop's fault; the loop registers are dead (R186, R188, R42). -/
def endSmul (d : QReg) (r : Except FaultCode LoopRegs) (s : State) : Host.Outcome State Fault Refusal :=
  match r with
  | .ok l => .next (dropLoop (commit (writeQ s d l.acc)))
  | .error c => .next (dropLoop (faultEntry c s))

theorem execSmul_eq (d a : QReg) (k : FReg) (s : State) : execSmul d a k s =
    if (readQ s a).v then endSmul d (loopRun 256 (loopStart (readQ s a) (readF s k))) s
    else .next (faultEntry .uninitPoint s) := by
  obtain ⟨hv, e⟩ | ⟨hv, ⟨c, hl, e⟩ | ⟨l, hl, e⟩⟩ := execSmul_cases d a k s
  · rw [e, hv]
    rfl
  · rw [e, hv, hl]
    rfl
  · rw [e, hv, hl]
    rfl

theorem endSmul_curve {d : QReg} {r : Except FaultCode LoopRegs} {s t : State} (c : Curve) (h : endSmul d r s = .next t) :
    endSmul d r { s with curve := c } = .next { t with curve := c } := by
  cases r <;> cases h <;> rfl

/-- `SMUL` looks at its two source registers, which another `CURVE` leaves as they are. -/
theorem execSmul_curve {d a : QReg} {k : FReg} {s t : State} (c : Curve) (h : execSmul d a k s = .next t) :
    execSmul d a k { s with curve := c } = .next { t with curve := c } := by
  rw [execSmul_eq] at h ⊢
  by_cases hv : (readQ s a).v = true
  · exact (if_pos hv).trans (endSmul_curve c ((if_pos hv).symm.trans h))
  · cases (if_neg hv).symm.trans h
    exact if_neg hv

/-- Settles O27: `CURVE.P` is all that the operand tests and results of a field command take from `CURVE`. -/
theorem operandsCarryTheirCurve : Obligations.OperandsCarryTheirCurve := by
  refine ⟨fun _ _ _ _ _ c h => finishQ_curve c h, fun _ _ _ _ _ c h => execSmul_curve c h, fun i s t a b hi h => ?_⟩
  cases i with
  | fadd | fsub | fmul | fdiv | finv | fpow => exact finishF_curve _ h
  | pnew | pinf | padd | smul => cases hi

end Sys2Proof.Proofs
end

section
/-! The point commands apart from the arithmetic of the group law: `PNEW`, `PINF`, what `PADD` tests first, and the cases of `Add` that
need no division (`41_point.md` R150 to R156, R158, R159, R161). -/

namespace Sys2Proof.Proofs

open Sys2Proof.Machine Sys2Proof.Safety Sys2Proof.Laws

theorem finishQ_ok {d : QReg} {r : Except FaultCode PointRec} {R : PointRec} (s : State) (h : r = .ok R) :
    finishQ d r s = .next (commit (writeQ s d R)) := by
  rw [h, finishQ]

theorem finishQ_error {d : QReg} {r : Except FaultCode PointRec} {c : FaultCode} (s : State) (h : r = .error c) :
    finishQ d r s = .next (faultEntry c s) := by
  rw [h, finishQ]

/-- `OnCurve` is the curve's equation modulo `p` (R150). -/
theorem onCurve_iff_modEq (x y a b p : Nat) : onCurve x y a b p = true ↔ y * y ≡ x ^ 3 + a * x + b [MOD p] := by
  rw [onCurve, decide_eq_true_iff, Nat.ModEq, (by ring : x ^ 3 = x * x * x)]

theorem pointNew_on {x y a b p : Nat} (h : onCurve x y a b p = true) :
    pointNew (.affine x y) a b p = .ok (affPoint x y a b p) := by
  rw [pointNew, if_pos h]

theorem pointNew_off {x y a b p : Nat} (h : ¬onCurve x y a b p = true) :
    pointNew (.affine x y) a b p = .error .invalidPoint := by
  rw [pointNew, if_neg h]

/-- Settles O37: the clauses of `FieldPre` on the four operands, then the two cases of `PointNew`. -/
theorem pnewBuildsACheckedPoint : Obligations.PnewBuildsACheckedPoint := by
  intro d x y s
  refine ⟨decode_instrFields (.pnew d x y), fun hp => finishQ_error s (withFieldPre_badModulus hp _ _), fun hp =>
    ⟨fun h => finishQ_error s (withFieldPre_operandRange hp (by simpa [operandF, readF] using h) _), fun ha hb hx hy => ?_⟩⟩
  have operands_lt : ∀ v ∈ [s.curve.a.toNat, s.curve.b.toNat, operandF s x, operandF s y], v < modulus s := by
    simpa using ⟨ha, hb, hx, hy⟩
  have pre := withFieldPre_in_range hp operands_lt
    (pointNew (.affine (operandF s x) (operandF s y)) s.curve.a.toNat s.curve.b.toNat (modulus s))
  rw [← onCurve_iff_modEq]
  refine ⟨fun h => finishQ_error s (pre.trans (pointNew_off h)), fun h => ?_⟩
  refine (finishQ_ok s (pre.trans (pointNew_on h))).trans ?_
  simp [affPoint, operandF, modulus, commit, writeQ, readF]

/-- Settles O38: the clauses of `FieldPre` on `A` and `B`; `PointNew` tests nothing for the identity. -/
theorem pinfBuildsTheIdentity : Obligations.PinfBuildsTheIdentity := by
  intro d s
  refine ⟨by simpa [instrFields] using decode_instrFields (.pinf d), fun hp => finishQ_error s (withFieldPre_badModulus hp _ _),
    fun hp => ⟨fun h => finishQ_error s (withFieldPre_operandRange hp (exists_operand_out_of_range h) _), fun ha hb => ?_⟩⟩
  refine (finishQ_ok s (withFieldPre_in_range hp (operands_in_range ha hb) _)).trans ?_
  simp [infPoint, modulus, commit, writeQ]

/-! ### `PADD` -/

section Padd

variable {d a b : QReg} {s : State} (ha : s.q[a].v = true) (hb : s.q[b].v = true)
include ha hb

/-- Where both sources hold points, `PADD` ends as `Add` does (R161). -/
theorem exec_padd_eq : exec (.padd d a b) s = finishQ d (addPoints s.q[a] s.q[b]) s := by
  obtain ⟨⟨P, hP, hv⟩, _⟩ | ⟨_, e⟩ := withPoints_cases [readQ s a, readQ s b] (addPoints (readQ s a) (readQ s b))
  · obtain rfl | rfl : P = readQ s a ∨ P = readQ s b := by simpa using hP
    · exact absurd (ha.symm.trans hv) nofun
    · exact absurd (hb.symm.trans hv) nofun
  · exact congrArg (finishQ d · s) e

theorem exec_padd_commits {R : PointRec} (h : addPoints s.q[a] s.q[b] = .ok R) :
    exec (.padd d a b) s = .next { s with q := s.q.set d R, st := .idle, done := true } :=
  (exec_padd_eq ha hb).trans (finishQ_ok s h)

theorem exec_padd_faults {c : FaultCode} (h : addPoints s.q[a] s.q[b] = .error c) :
    exec (.padd d a b) s = .next (faultEntry c s) :=
  (exec_padd_eq ha hb).trans (finishQ_error s h)

end Padd

theorem withPoints_uninit_of_mem {α : Type} {rs : List PointRec} {P : PointRec} (hP : P ∈ rs) (hv : P.v = false)
    (r : Except FaultCode α) : withPoints rs r = .error .uninitPoint := by
  obtain ⟨_, e⟩ | ⟨hall, _⟩ := withPoints_cases rs r
  · exact e
  · exact absurd ((hall P hP).symm.trans hv) nofun

/-! ### The cases of `Add` without a division -/

section Add

variable {A B : PointRec}

theorem addPoints_curveMismatch (h : ¬OneCurve A B) : addPoints A B = .error .curveMismatch := by
  have hc : sameCurve A B = false := Bool.eq_false_iff.mpr fun e => h ((sameCurve_iff A B).mp e)
  simp [addPoints, hc]

variable (hAB : OneCurve A B)
include hAB

theorem addPoints_identities (hA : A.inf = true) (hB : B.inf = true) : addPoints A B = .ok (infOn A) := by
  simp [addPoints, (sameCurve_iff A B).mpr hAB, hA, hB]

theorem addPoints_identity_left (hA : A.inf = true) (hB : B.inf = false) : addPoints A B = .ok B := by
  simp [addPoints, (sameCurve_iff A B).mpr hAB, hA, hB]

theorem addPoints_identity_right (hA : A.inf = false) (hB : B.inf = true) : addPoints A B = .ok A := by
  simp [addPoints, (sameCurve_iff A B).mpr hAB, hA, hB]

theorem addPoints_chord (hA : A.inf = false) (hB : B.inf = false) (hx : A.x ≠ B.x) : addPoints A B =
    chord A.x.toNat A.y.toNat B.x.toNat B.y.toNat A.ca.toNat A.cb.toNat A.cp.toNat := by
  simp [addPoints, (sameCurve_iff A B).mpr hAB, hA, hB, hx]

end Add

theorem addPoints_self {A : PointRec} (hA : A.inf = false) :
    addPoints A A = tangent A.x.toNat A.y.toNat A.ca.toNat A.cb.toNat A.cp.toNat := by
  simp [addPoints, (sameCurve_iff A A).mpr ⟨rfl, rfl, rfl⟩, hA]

/-- Two finite points whose sum is the identity for their coordinates alone: an inverse pair (R159), or one point with `y = 0` twice
(R158). -/
structure Opposite (A B : PointRec) : Prop where
  left_finite : A.inf = false
  right_finite : B.inf = false
  x_eq : A.x = B.x
  y_opposite : A.y ≠ B.y ∨ (A.y = B.y ∧ A.y = 0)

theorem Opposite.symm {A B : PointRec} (h : Opposite A B) : Opposite B A :=
  ⟨h.right_finite, h.left_finite, h.x_eq.symm, h.y_opposite.imp Ne.symm fun ⟨e, h0⟩ => ⟨e.symm, e.symm.trans h0⟩⟩

theorem addPoints_opposite {A B : PointRec} (hAB : OneCurve A B) (h : Opposite A B) : addPoints A B = .ok (infOn A) := by
  obtain ⟨hA, hB, hx, hy | ⟨hy, h0⟩⟩ := h
  · simp [addPoints, (sameCurve_iff A B).mpr hAB, hA, hB, hx, hy]
  · simp [addPoints, (sameCurve_iff A B).mpr hAB, hA, hB, hx, ← hy, h0, tangent, infOn]

/-- Settles O39: `withPoints` looks for points that are not there before `Add` is begun, and `Add` compares the curves first. -/
theorem paddChecksPointsThenCurves : Obligations.PaddChecksPointsThenCurves := by
  intro d a b s
  refine ⟨fun h => ?_, fun ha hb h => exec_padd_faults ha hb (addPoints_curveMismatch h)⟩
  obtain ⟨P, hP, hv⟩ : ∃ P ∈ [readQ s a, readQ s b], P.v = false := by simpa [readQ] using h
  exact finishQ_error s (withPoints_uninit_of_mem hP hv _)

/-- Settles O40, from the three cases of `Add` with an identity. -/
theorem paddIdentityIsNeutral : Obligations.PaddIdentityIsNeutral := fun _ _ _ _ ha hb hAB =>
  ⟨fun hA hB => exec_padd_commits ha hb ((addPoints_identities hAB hA hB).trans (congrArg _ (infOn_eq _))),
    fun hA hB => exec_padd_commits ha hb (addPoints_identity_left hAB hA hB),
    fun hA hB => exec_padd_commits ha hb (addPoints_identity_right hAB hA hB)⟩

/-- Settles O41: the sources are opposite, and then `Add` answers the identity. -/
theorem paddInverseAndVerticalGiveIdentity : Obligations.PaddInverseAndVerticalGiveIdentity :=
  fun _ _ _ _ ha hb hAB hA hB hx hy =>
    exec_padd_commits ha hb ((addPoints_opposite hAB ⟨hA, hB, hx, hy⟩).trans (congrArg _ (infOn_eq _)))

end Sys2Proof.Proofs
end

section
/-! The chord and the tangent of the group law in `ZMod p`, over any modulus `p`: where the slope's denominator is a unit, the third point
of the line is on the curve (`41_point.md` R157, R158, R160). -/

namespace Sys2Proof.Proofs

open Sys2Proof.Machine Sys2Proof.Safety Sys2Proof.Laws

/-- `OnCurve` is the curve's equation in `ZMod p` (R150). -/
theorem onCurve_iff (x y a b p : Nat) : onCurve x y a b p = true ↔ (y : ZMod p) ^ 2 = (x : ZMod p) ^ 3 + a * x + b := by
  rw [onCurve_iff_modEq, ← ZMod.natCast_eq_natCast_iff]
  push_cast
  rw [sq]

/-- `fdiv` answers a quotient exactly where the divisor is a unit modulo `p` (R126). -/
theorem fdiv_unit_cases {n d p : Nat} (hp : 2 ≤ p) (hn : n < p) (hd : d < p) :
    (IsUnit (d : ZMod p) ∧ ∃ q : Nat, (q : ZMod p) * d = n ∧ fdiv n d p = .ok q) ∨
    (¬IsUnit (d : ZMod p) ∧ fdiv n d p = .error .nonInvertibleDivisor) := by
  rw [ZMod.isUnit_iff_coprime]
  obtain ⟨hgcd, q, _, hq, e⟩ | h := fdiv_quotient_cases hp hn hd
  · refine .inl ⟨hgcd, q, ?_, e⟩
    rw [← hq, ZMod.natCast_mod, Nat.cast_mul, mul_comm]
  · exact .inr h

/-- `(x3, y3)` is the point that R157 and R158 make from a line of slope `sl` through `(x1, y1)` and a point with first coordinate
`x2`. -/
structure ThirdPoint (p sl x1 y1 x2 x3 y3 : Nat) : Prop where
  x_lt : x3 < p
  y_lt : y3 < p
  x_eq : (x3 : ZMod p) = sl ^ 2 - x1 - x2
  y_eq : (y3 : ZMod p) = sl * (x1 - x3) - y1

theorem lineResult_eq {sl x1 y1 x2 a b p : Nat} (h1 : x1 < p) (hy : y1 < p) (h2 : x2 < p) :
    ∃ x3 y3, ThirdPoint p sl x1 y1 x2 x3 y3 ∧ lineResult sl x1 y1 x2 a b p = pointNew (.affine x3 y3) a b p := by
  have hp : 0 < p := by omega
  have hx : fsub (fsub (fmul sl sl p) x1 p) x2 p < p := fsub_lt (fsub_lt (fmul_lt hp) h1) h2
  refine ⟨_, _, ⟨hx, fsub_lt (fmul_lt hp) hy, ?_, ?_⟩, rfl⟩
  · rw [fsub_cast h2, fsub_cast h1, fmul_cast, sq]
  · rw [fsub_cast hy, fmul_cast, fsub_cast hx]

/-- The line of slope `sl` through `(x1, y1)` meets the curve at `x2` besides `x1`: of the cubic that the line cuts out, this is the
cofactor of `x - x1`, at `x2`. -/
def MeetsAt {R : Type} [CommRing R] (a sl x1 y1 x2 : R) : Prop := x2 ^ 2 + x2 * x1 + x1 ^ 2 + a = sl * (2 * y1 + sl * (x2 - x1))

section Ring

variable {R : Type} [CommRing R] {a b sl x1 y1 x2 y2 x3 y3 : R}

/-- The chord through two points of the curve meets it at both: the difference of their equations, divided by `x2 - x1`. -/
theorem meetsAt_of_chord (hunit : IsUnit (x2 - x1)) (hslope : sl * (x2 - x1) = y2 - y1)
    (h1 : y1 ^ 2 = x1 ^ 3 + a * x1 + b) (h2 : y2 ^ 2 = x2 ^ 3 + a * x2 + b) : MeetsAt a sl x1 y1 x2 := by
  refine hunit.mul_left_cancel ?_
  linear_combination h1 - h2 - (y1 + y2 + sl * (x2 - x1)) * hslope

/-- The third point of a line that meets the curve twice is on the curve (R160). -/
theorem equation_of_meetsAt (hmeets : MeetsAt a sl x1 y1 x2) (h1 : y1 ^ 2 = x1 ^ 3 + a * x1 + b)
    (hx : x3 = sl ^ 2 - x1 - x2) (hy : y3 = sl * (x1 - x3) - y1) : y3 ^ 2 = x3 ^ 3 + a * x3 + b := by
  unfold MeetsAt at hmeets
  subst hy hx
  linear_combination h1 - (sl ^ 2 - x1 - x2 - x1) * hmeets

end Ring

/-- How a division that gives a slope, and the line with that slope, end: with the third point, which passes the re-validation, or with
`NonInvertibleDivisor` exactly where the denominator has no inverse (R157, R158, R160). -/
def LineEnds (p : Nat) (num den : ZMod p) (x1 y1 x2 a b : Nat) (r : Except FaultCode PointRec) : Prop :=
  (IsUnit den ∧ ∃ sl x3 y3 : Nat, (sl : ZMod p) * den = num ∧ ThirdPoint p sl x1 y1 x2 x3 y3 ∧ r = .ok (affPoint x3 y3 a b p)) ∨
  (¬IsUnit den ∧ r = .error .nonInvertibleDivisor)

/-- A finite point of the curve with the coefficients `a`, `b` modulo `p` (the last line of R28). -/
structure FinitePoint (p a b x y : Nat) : Prop where
  x_lt : x < p
  y_lt : y < p
  equation : (y : ZMod p) ^ 2 = (x : ZMod p) ^ 3 + a * x + b

theorem finitePoint_of_valid {A : PointRec} (h : PointValid A) (hA : A.inf = false) :
    FinitePoint A.cp.toNat A.ca.toNat A.cb.toNat A.x.toNat A.y.toNat := by
  obtain ⟨_, _, _, _, _, hfinite⟩ := h
  obtain ⟨hx, hy, heq⟩ := hfinite hA
  exact ⟨hx, hy, (onCurve_iff ..).mp (decide_eq_true heq)⟩

section Line

variable {p a b x1 y1 x2 y2 : Nat} (hp : 2 ≤ p) (P1 : FinitePoint p a b x1 y1)
include hp P1

/-- A command's line ends well where its slope, once computed, makes it meet the curve at `x2`. -/
theorem lineEnds_of_slope {n d : Nat} {r : Except FaultCode PointRec} (hn : n < p) (hd : d < p) (h2 : x2 < p)
    (hmeets : ∀ sl : ZMod p, IsUnit (d : ZMod p) → sl * d = n → MeetsAt (a : ZMod p) sl x1 y1 x2)
    (hok : ∀ sl, fdiv n d p = .ok sl → r = lineResult sl x1 y1 x2 a b p) (herror : ∀ c, fdiv n d p = .error c → r = .error c) :
    LineEnds p n d x1 y1 x2 a b r := by
  obtain ⟨hunit, sl, hslope, e⟩ | ⟨hunit, e⟩ := fdiv_unit_cases hp hn hd
  · obtain ⟨x3, y3, third, e'⟩ := lineResult_eq (sl := sl) (a := a) (b := b) P1.x_lt P1.y_lt h2
    have hon := equation_of_meetsAt (hmeets sl hunit hslope) P1.equation third.x_eq third.y_eq
    exact .inl ⟨hunit, sl, x3, y3, hslope, third, (hok sl e).trans (e'.trans (pointNew_on ((onCurve_iff ..).mpr hon)))⟩
  · exact .inr ⟨hunit, herror _ e⟩

/-- The chord (R157). -/
theorem chord_lineEnds (P2 : FinitePoint p a b x2 y2) :
    LineEnds p (y2 - y1) (x2 - x1) x1 y1 x2 a b (chord x1 y1 x2 y2 a b p) := by
  have hn := fsub_cast (a := y2) P1.y_lt
  have hd := fsub_cast (a := x2) P1.x_lt
  rw [← hn, ← hd]
  exact lineEnds_of_slope hp P1 (fsub_lt P2.y_lt P1.y_lt) (fsub_lt P2.x_lt P1.x_lt) P2.x_lt
    (fun sl hunit hslope => meetsAt_of_chord (hd ▸ hunit) (hn ▸ hd ▸ hslope) P1.equation P2.equation)
    (fun sl e => by rw [chord, e]) (fun c e => by rw [chord, e])

/-- The tangent at a point with `y` not 0 (R158). -/
theorem tangent_lineEnds (hy : y1 ≠ 0) :
    LineEnds p (3 * x1 ^ 2 + a) (2 * y1) x1 y1 x1 a b (tangent x1 y1 a b p) := by
  have hp0 : 0 < p := by omega
  have hn : (fadd (fmul (3 % p) (fmul x1 x1 p) p) a p : ZMod p) = 3 * x1 ^ 2 + a := by
    rw [fadd_cast, fmul_cast, fmul_cast, ZMod.natCast_mod, sq, Nat.cast_ofNat]
  have hd : (fmul (2 % p) y1 p : ZMod p) = 2 * y1 := by rw [fmul_cast, ZMod.natCast_mod, Nat.cast_ofNat]
  have hmeets (sl : ZMod p) (hslope : sl * (2 * y1) = 3 * x1 ^ 2 + a) : MeetsAt (a : ZMod p) sl x1 y1 x1 := by
    unfold MeetsAt
    linear_combination -hslope
  rw [← hn, ← hd]
  exact lineEnds_of_slope hp P1 (fadd_lt hp0) (fmul_lt hp0) P1.x_lt (fun sl _ hslope => hmeets sl (hd ▸ hn ▸ hslope))
    (fun sl e => by rw [tangent, if_neg hy, e]) (fun c e => by rw [tangent, if_neg hy, e])

end Line

end Sys2Proof.Proofs
end

section
/-! `Add` on two valid points: the cases that are left of R155, and in each the answer, which does not depend on the order of the two
points (`41_point.md` R155 to R160, R164, R165). -/

namespace Sys2Proof.Proofs

open Sys2Proof.Machine Sys2Proof.Safety Sys2Proof.Laws

theorem oneCurve_symm {A B : PointRec} (h : OneCurve A B) : OneCurve B A :=
  let ⟨ha, hb, hp⟩ := h; ⟨ha.symm, hb.symm, hp.symm⟩

theorem oneCurve_trans {A B C : PointRec} (h : OneCurve A B) (h' : OneCurve B C) : OneCurve A C :=
  let ⟨ha, hb, hp⟩ := h; let ⟨ha', hb', hp'⟩ := h'; ⟨ha.trans ha', hb.trans hb', hp.trans hp'⟩

/-- The modulus of a record is that of every record on its curve. -/
theorem oddPrime_of_oneCurve {A B : PointRec} (h : OneCurve A B) (hB : OddPrime B) : OddPrime A := by
  obtain ⟨_, _, hcp⟩ := h
  rwa [OddPrime, hcp]

theorem infOn_congr {A B : PointRec} (hAB : OneCurve A B) : infOn A = infOn B := by
  obtain ⟨ha, hb, hp⟩ := hAB
  rw [infOn, ha, hb, hp, infOn]

theorem pointRec_eq {A B : PointRec} (hv : A.v = B.v) (hinf : A.inf = B.inf) (hx : A.x = B.x) (hy : A.y = B.y)
    (hAB : OneCurve A B) : A = B := by
  obtain ⟨hca, hcb, hcp⟩ := hAB
  cases A
  cases B
  simp_all

/-- A curve has one valid identity record (R29). -/
theorem eq_infOn_of_valid {A : PointRec} (h : PointValid A) (hA : A.inf = true) : A = infOn A := by
  obtain ⟨hv, _, _, _, hxy, _⟩ := h
  obtain ⟨hx, hy⟩ := hxy hA
  rw [infOn_eq]
  exact pointRec_eq hv hA hx hy ⟨rfl, rfl, rfl⟩

/-! ### An identity is neutral for valid records, whether or not the other is an identity too (R156) -/

theorem addPoints_eq_right_of_valid {A B : PointRec} (hB : PointValid B) (hAB : OneCurve A B) (h : A.inf = true) :
    addPoints A B = .ok B := by
  cases hBf : B.inf with
  | true => rw [addPoints_identities hAB h hBf, infOn_congr hAB, ← eq_infOn_of_valid hB hBf]
  | false => exact addPoints_identity_left hAB h hBf

theorem addPoints_eq_left_of_valid {A B : PointRec} (hA : PointValid A) (hAB : OneCurve A B) (h : B.inf = true) :
    addPoints A B = .ok A := by
  cases hAf : A.inf with
  | true => rw [addPoints_identities hAB hAf h, ← eq_infOn_of_valid hA hAf]
  | false => exact addPoints_identity_right hAB hAf h

/-! ### Finite points -/

theorem eq_of_cast_eq {m n p : Nat} (hm : m < p) (hn : n < p) (h : (m : ZMod p) = n) : m = n :=
  ((ZMod.natCast_eq_natCast_iff m n p).mp h).eq_of_lt_of_lt hm hn

/-- A finite record satisfies the equation of the curve that another record carries too. -/
theorem finitePoint_of_oneCurve {A K : PointRec} (h : PointValid A) (hK : OneCurve A K) (hA : A.inf = false) :
    FinitePoint K.cp.toNat K.ca.toNat K.cb.toNat A.x.toNat A.y.toNat := by
  obtain ⟨ha, hb, hp⟩ := hK
  rw [← ha, ← hb, ← hp]
  exact finitePoint_of_valid h hA

section Pair

variable {A B : PointRec} (hA : PointValid A) (hB : PointValid B) (hAB : OneCurve A B)
include hA hB hAB

/-- Two valid points of one curve: an identity among them, two different `x`, one point twice, or opposite points (R155). -/
theorem pair_cases : A.inf = true ∨ B.inf = true ∨ (A.inf = false ∧ B.inf = false ∧ A.x ≠ B.x) ∨
    (A = B ∧ A.inf = false ∧ A.y ≠ 0) ∨ Opposite A B := by
  cases hAf : A.inf with
  | true => exact .inl rfl
  | false => cases hBf : B.inf with
    | true => exact .inr (.inl rfl)
    | false =>
      refine .inr (.inr ?_)
      by_cases hx : A.x = B.x
      · right
        by_cases hy : A.y = B.y
        · by_cases h0 : A.y = 0
          · exact .inr ⟨hAf, hBf, hx, .inr ⟨hy, h0⟩⟩
          · exact .inl ⟨pointRec_eq (hA.1.trans hB.1.symm) (hAf.trans hBf.symm) hx hy hAB, rfl, h0⟩
        · exact .inr ⟨hAf, hBf, hx, .inl hy⟩
      · exact .inl ⟨rfl, rfl, hx⟩

theorem addPoints_lineEnds_chord (hAf : A.inf = false) (hBf : B.inf = false) (hx : A.x ≠ B.x) :
    LineEnds A.cp.toNat (B.y.toNat - A.y.toNat) (B.x.toNat - A.x.toNat) A.x.toNat A.y.toNat B.x.toNat A.ca.toNat A.cb.toNat
      (addPoints A B) := by
  obtain ⟨_, hp, _⟩ := id hA
  rw [addPoints_chord hAB hAf hBf hx]
  exact chord_lineEnds hp (finitePoint_of_valid hA hAf) (finitePoint_of_oneCurve hB (oneCurve_symm hAB) hBf)

end Pair

theorem addPoints_lineEnds_tangent {A : PointRec} (hA : PointValid A) (hAf : A.inf = false) (hy : A.y ≠ 0) :
    LineEnds A.cp.toNat (3 * A.x.toNat ^ 2 + A.ca.toNat) (2 * A.y.toNat) A.x.toNat A.y.toNat A.x.toNat A.ca.toNat A.cb.toNat
      (addPoints A A) := by
  obtain ⟨_, hp, _⟩ := id hA
  rw [addPoints_self hAf]
  exact tangent_lineEnds hp (finitePoint_of_valid hA hAf) fun h => hy (BitVec.eq_of_toNat_eq h)

/-! ### Order and faults -/

theorem LineEnds.ne_invalidPoint {p : Nat} {num den : ZMod p} {x1 y1 x2 a b : Nat} {r : Except FaultCode PointRec}
    (h : LineEnds p num den x1 y1 x2 a b r) : r ≠ .error .invalidPoint := by
  obtain ⟨_, _, _, _, _, _, rfl⟩ | ⟨_, rfl⟩ := h
  · nofun
  · nofun

theorem LineEnds.ok {p : Nat} {num den : ZMod p} {x1 y1 x2 a b : Nat} {r : Except FaultCode PointRec}
    (h : LineEnds p num den x1 y1 x2 a b r) (hunit : IsUnit den) : ∃ R, r = .ok R := by
  obtain ⟨_, _, _, _, _, _, e⟩ | ⟨hn, _⟩ := h
  · exact ⟨_, e⟩
  · exact absurd hunit hn

/-- The chord is the same line from either of its points. -/
theorem LineEnds.chord_symm {p x1 y1 x2 y2 a b : Nat} {r r' : Except FaultCode PointRec}
    (h : LineEnds p (y2 - y1) (x2 - x1) x1 y1 x2 a b r) (h' : LineEnds p (y1 - y2) (x1 - x2) x2 y2 x1 a b r') : r = r' := by
  obtain ⟨hunit, sl, x3, y3, hslope, third, rfl⟩ | ⟨hunit, rfl⟩ := h
  · obtain ⟨_, sl', x3', y3', hslope', third', rfl⟩ | ⟨hunit', _⟩ := h'
    · have hsl : (sl : ZMod p) = sl' := hunit.mul_right_cancel (by linear_combination hslope + hslope')
      have hx : x3 = x3' := eq_of_cast_eq third.x_lt third'.x_lt (by rw [third.x_eq, third'.x_eq, hsl]; ring)
      subst hx
      have hy : y3 = y3' := eq_of_cast_eq third.y_lt third'.y_lt (by
        rw [third.y_eq, third'.y_eq, ← hsl]
        linear_combination -hslope)
      rw [hy]
    · exact absurd (IsUnit.sub_iff.mp hunit) hunit'
  · obtain ⟨hunit', _⟩ | ⟨_, rfl⟩ := h'
    · exact absurd (IsUnit.sub_iff.mp hunit') hunit
    · rfl

/-- `Add` commutes on valid points, over any modulus. -/
theorem addPoints_comm {A B : PointRec} (hA : PointValid A) (hB : PointValid B) : addPoints A B = addPoints B A := by
  by_cases hAB : OneCurve A B
  · have hBA := oneCurve_symm hAB
    obtain h | h | ⟨hAf, hBf, hx⟩ | ⟨rfl, _⟩ | h := pair_cases hA hB hAB
    · rw [addPoints_eq_right_of_valid hB hAB h, addPoints_eq_left_of_valid hB hBA h]
    · rw [addPoints_eq_left_of_valid hA hAB h, addPoints_eq_right_of_valid hA hBA h]
    · have line' := addPoints_lineEnds_chord hB hA hBA hBf hAf hx.symm
      obtain ⟨hca, hcb, hcp⟩ := hAB
      rw [← hca, ← hcb, ← hcp] at line'
      exact (addPoints_lineEnds_chord hA hB ⟨hca, hcb, hcp⟩ hAf hBf hx).chord_symm line'
    · rfl
    · rw [addPoints_opposite hAB h, addPoints_opposite hBA h.symm, infOn_congr hAB]
  · rw [addPoints_curveMismatch hAB, addPoints_curveMismatch fun h => hAB (oneCurve_symm h)]

/-- Settles O46, by `addPoints_comm`. -/
theorem addCommutes : Obligations.AddCommutes := fun _ _ hA hB =>
  ⟨fun _ => by rw [addPoints_comm hA hB], fun _ => addPoints_comm hA hB⟩

/-- Settles O44: only a line is re-validated, and its third point is on the curve. -/
theorem revalidationNeverFails : Obligations.RevalidationNeverFails := by
  intro A B hA hB
  by_cases hAB : OneCurve A B
  · obtain h | h | ⟨hAf, hBf, hx⟩ | ⟨rfl, hAf, hy⟩ | h := pair_cases hA hB hAB
    · rw [addPoints_eq_right_of_valid hB hAB h]; nofun
    · rw [addPoints_eq_left_of_valid hA hAB h]; nofun
    · exact (addPoints_lineEnds_chord hA hB hAB hAf hBf hx).ne_invalidPoint
    · exact (addPoints_lineEnds_tangent hA hAf hy).ne_invalidPoint
    · rw [addPoints_opposite hAB h]; nofun
  · rw [addPoints_curveMismatch hAB]; nofun

theorem cast_ne_zero {n p : Nat} (h0 : n ≠ 0) (hlt : n < p) : (n : ZMod p) ≠ 0 := fun h =>
  h0 (eq_of_cast_eq hlt (by omega) (h.trans Nat.cast_zero.symm))

/-- Settles O45: modulo a prime above 2 the denominators of the chord and of the tangent are not 0, and so have inverses. -/
theorem addNeverFaultsOnAnOddPrime : Obligations.AddNeverFaultsOnAnOddPrime := by
  intro A B hA hB hAB hprime
  obtain ⟨R, hR⟩ : ∃ R, addPoints A B = .ok R := by
    have : Fact A.cp.toNat.Prime := ⟨hprime.1⟩
    obtain h | h | ⟨hAf, hBf, hx⟩ | ⟨rfl, hAf, hy⟩ | h := pair_cases hA hB hAB
    · exact ⟨_, addPoints_eq_right_of_valid hB hAB h⟩
    · exact ⟨_, addPoints_eq_left_of_valid hA hAB h⟩
    · refine (addPoints_lineEnds_chord hA hB hAB hAf hBf hx).ok (sub_ne_zero.mpr fun h => hx ?_).isUnit
      have hAx := (finitePoint_of_valid hA hAf).x_lt
      have hBx := (finitePoint_of_oneCurve hB (oneCurve_symm hAB) hBf).x_lt
      exact BitVec.eq_of_toNat_eq (eq_of_cast_eq hAx hBx h.symm)
    · refine (addPoints_lineEnds_tangent hA hAf hy).ok (mul_ne_zero ?_ ?_).isUnit
      · exact_mod_cast cast_ne_zero two_ne_zero hprime.2
      · exact cast_ne_zero (fun h => hy (BitVec.eq_of_toNat_eq h)) (finitePoint_of_valid hA hAf).y_lt
    · exact ⟨_, addPoints_opposite hAB h⟩
  exact ⟨R, hR, pointValid_of_addPoints hA hB hR, (addPoints_curve hA.1 hB.1 hR).2⟩

/-! ### The chord and the tangent of `PADD` -/

theorem isUnit_intCast_iff (z : Int) (p : Nat) : IsUnit (z : ZMod p) ↔ Int.gcd z p = 1 := by
  rw [ZMod.coe_int_isUnit_iff_isCoprime, isCoprime_comm, Int.isCoprime_iff_gcd_eq_one]

/-- `PADD` of a line, with the slope's fraction and the coordinates as integers. -/
theorem exec_padd_of_lineEnds {d a b : QReg} {s : State} (ha : s.q[a].v = true) (hb : s.q[b].v = true) {num den : Int} {x1 y1 x2 : Nat}
    (h : LineEnds s.q[a].cp.toNat num den x1 y1 x2 s.q[a].ca.toNat s.q[a].cb.toNat (addPoints s.q[a] s.q[b])) :
    (Int.gcd den s.q[a].cp.toNat ≠ 1 →
      exec (.padd d a b) s = .next { s with err := 4, errcmd := s.cmdr, st := .fault }) ∧
    (Int.gcd den s.q[a].cp.toNat = 1 →
      ∃ (sl : Int) (x3 y3 : Nat), x3 < s.q[a].cp.toNat ∧ y3 < s.q[a].cp.toNat ∧ sl * den ≡ num [ZMOD s.q[a].cp.toNat] ∧
        (x3 : Int) ≡ sl ^ 2 - x1 - x2 [ZMOD s.q[a].cp.toNat] ∧ (y3 : Int) ≡ sl * (x1 - x3) - y1 [ZMOD s.q[a].cp.toNat] ∧
        exec (.padd d a b) s = .next { s with
          q := s.q.set d ⟨true, false, BitVec.ofNat 256 x3, BitVec.ofNat 256 y3, s.q[a].ca, s.q[a].cb, s.q[a].cp⟩,
          st := .idle, done := true }) := by
  have hgcd := isUnit_intCast_iff den s.q[a].cp.toNat
  obtain ⟨hunit, sl, x3, y3, hslope, third, e⟩ | ⟨hunit, e⟩ := h
  · refine ⟨absurd (hgcd.mp hunit), fun _ => ⟨sl, x3, y3, third.x_lt, third.y_lt, ?_, ?_, ?_, exec_padd_commits ha hb ?_⟩⟩
    · exact (ZMod.intCast_eq_intCast_iff ..).mp (by exact_mod_cast hslope)
    · exact (ZMod.intCast_eq_intCast_iff ..).mp (by exact_mod_cast third.x_eq)
    · exact (ZMod.intCast_eq_intCast_iff ..).mp (by exact_mod_cast third.y_eq)
    · rw [e]; simp [affPoint]
  · exact ⟨fun _ => exec_padd_faults ha hb e, fun h => absurd (hgcd.mpr h) hunit⟩

/-- Settles O42, from the two ends of the chord. -/
theorem paddChordIsTheThirdPoint : Obligations.PaddChordIsTheThirdPoint := by
  intro d a b s hA hB hAB hAf hBf hx
  exact exec_padd_of_lineEnds hA.1 hB.1 (by exact_mod_cast addPoints_lineEnds_chord hA hB hAB hAf hBf hx)

/-- Settles O43, from the two ends of the tangent. -/
theorem paddTangentIsTheThirdPoint : Obligations.PaddTangentIsTheThirdPoint := by
  intro d a b s hA hAB hAf hy
  have line := addPoints_lineEnds_tangent hA hAf hy
  rw [congrArg (addPoints s.q[a]) hAB] at line
  obtain ⟨faults, commits⟩ := exec_padd_of_lineEnds (d := d) (num := 3 * s.q[a].x.toNat ^ 2 + s.q[a].ca.toNat)
    (den := 2 * s.q[a].y.toNat) hA.1 (hAB ▸ hA.1) (by exact_mod_cast line)
  refine ⟨faults, fun h => ?_⟩
  obtain ⟨sl, x3, y3, hx3, hy3, hslope, ex, ey, e⟩ := commits h
  exact ⟨sl, x3, y3, hx3, hy3, hslope, by rwa [two_mul, ← sub_sub], ey, e⟩

end Sys2Proof.Proofs
end

section
/-! `Add` is the group law of an elliptic curve: the records of valid points denote the points of Mathlib's Weierstrass curve over `ZMod p`,
and `Add` answers a record of their sum (`41_point.md` R155 to R159, R164; `93_implementation_defined.md` U23). -/

namespace Sys2Proof.Proofs

open Sys2Proof.Machine Sys2Proof.Safety Sys2Proof.Laws

/-- The curve that the record `K` carries, over the integers modulo its modulus (R21, R26). -/
def curveOf (K : PointRec) : WeierstrassCurve.Affine (ZMod K.cp.toNat) := ⟨0, 0, 0, K.ca.toNat, K.cb.toNat⟩

theorem equation_curveOf {K : PointRec} {x y : ZMod K.cp.toNat} :
    (curveOf K).Equation x y ↔ y ^ 2 = x ^ 3 + K.ca.toNat * x + K.cb.toNat := by
  rw [WeierstrassCurve.Affine.equation_iff]
  simp [curveOf]

theorem negY_curveOf {K : PointRec} (x y : ZMod K.cp.toNat) : (curveOf K).negY x y = -y := by
  simp [curveOf]

/-- The record `r` is finite with the coordinates of the point, or an identity where the point is the identity. -/
def HasCoords (K r : PointRec) : (curveOf K).Point → Prop
  | .zero => r.inf = true
  | .some x y _ => r.inf = false ∧ (r.x.toNat : ZMod K.cp.toNat) = x ∧ (r.y.toNat : ZMod K.cp.toNat) = y

/-- The record `r` is the valid record of the point `P` on the curve of `K`. -/
structure Denotes (K r : PointRec) (P : (curveOf K).Point) : Prop where
  valid : PointValid r
  curve : OneCurve r K
  coords : HasCoords K r P

/-- A point has one record. -/
theorem Denotes.unique {K r r' : PointRec} {P : (curveOf K).Point} (h : Denotes K r P) (h' : Denotes K r' P) : r = r' := by
  have hcurve : OneCurve r r' := oneCurve_trans h.curve (oneCurve_symm h'.curve)
  match P, h.coords, h'.coords with
  | .zero, hr, hr' => rw [eq_infOn_of_valid h.valid hr, infOn_congr hcurve, ← eq_infOn_of_valid h'.valid hr']
  | .some .., ⟨hr, hx, hy⟩, ⟨hr', hx', hy'⟩ =>
    have hf := finitePoint_of_oneCurve h.valid h.curve hr
    have hf' := finitePoint_of_oneCurve h'.valid h'.curve hr'
    exact pointRec_eq (h.valid.1.trans h'.valid.1.symm) (hr.trans hr'.symm)
      (BitVec.eq_of_toNat_eq (eq_of_cast_eq hf.x_lt hf'.x_lt (hx.trans hx'.symm)))
      (BitVec.eq_of_toNat_eq (eq_of_cast_eq hf.y_lt hf'.y_lt (hy.trans hy'.symm))) hcurve

theorem two_ne_zero_of_oddPrime {K : PointRec} (h : OddPrime K) : (2 : ZMod K.cp.toNat) ≠ 0 := by
  exact_mod_cast cast_ne_zero two_ne_zero h.2

/-- U23's condition is that the discriminant of the curve is not 0, where 2 is not. -/
theorem discriminant_curveOf_ne_zero {K : PointRec} (h : OddPrime K) (hns : NonSingular K) : (curveOf K).Δ ≠ 0 := by
  have : Fact K.cp.toNat.Prime := ⟨h.1⟩
  have hΔ : (curveOf K).Δ = -2 ^ 4 * (4 * K.ca.toNat ^ 3 + 27 * K.cb.toNat ^ 2 : Nat) := by
    simp only [WeierstrassCurve.Δ, WeierstrassCurve.b₂, WeierstrassCurve.b₄, WeierstrassCurve.b₆, WeierstrassCurve.b₈, curveOf]
    push_cast
    ring
  rw [hΔ]
  refine mul_ne_zero (neg_ne_zero.mpr (pow_ne_zero 4 (two_ne_zero_of_oddPrime h))) fun h0 => hns ?_
  exact Nat.mod_eq_zero_of_dvd ((ZMod.natCast_eq_zero_iff _ _).mp h0)

/-- Every valid record on a curve that is not singular is the record of a point. -/
theorem exists_denotes {K r : PointRec} (h : OddPrime K) (hns : NonSingular K) (hr : PointValid r) (hK : OneCurve r K) :
    ∃ P, Denotes K r P := by
  cases hf : r.inf with
  | true => exact ⟨.zero, hr, hK, hf⟩
  | false =>
    have hon := ((curveOf K).equation_iff_nonsingular_of_Δ_ne_zero (discriminant_curveOf_ne_zero h hns)).mp
      (equation_curveOf.mpr (finitePoint_of_oneCurve hr hK hf).equation)
    exact ⟨.some _ _ hon, hr, hK, hf, rfl, rfl⟩

theorem Denotes.eq_zero {K r : PointRec} {P : (curveOf K).Point} (h : Denotes K r P) (hr : r.inf = true) : P = 0 :=
  match P, h.coords with
  | .zero, _ => rfl
  | .some .., ⟨hf, _⟩ => absurd (hr.symm.trans hf) nofun

theorem Denotes.eq_some {K r : PointRec} {P : (curveOf K).Point} (h : Denotes K r P) (hr : r.inf = false) :
    ∃ hon, P = .some (r.x.toNat : ZMod K.cp.toNat) (r.y.toNat : ZMod K.cp.toNat) hon :=
  match P, h.coords with
  | .zero, ht => absurd (hr.symm.trans ht) nofun
  | .some _ _ hon, ⟨_, hx, hy⟩ => by
    subst hx hy
    exact ⟨hon, rfl⟩

/-- A record denotes one point. -/
theorem Denotes.point_unique {K r : PointRec} {P Q : (curveOf K).Point} (h : Denotes K r P) (h' : Denotes K r Q) : P = Q := by
  cases hr : r.inf with
  | true => rw [h.eq_zero hr, h'.eq_zero hr]
  | false =>
    obtain ⟨_, rfl⟩ := h.eq_some hr
    obtain ⟨_, rfl⟩ := h'.eq_some hr
    rfl

/-- The third point of a line has the coordinates of the sum that the line's slope gives. -/
theorem hasCoords_thirdPoint {K : PointRec} {sl x1 y1 x2 x3 y3 a b p : Nat} {l : ZMod K.cp.toNat}
    (third : ThirdPoint K.cp.toNat sl x1 y1 x2 x3 y3) (hsl : l = sl)
    {hon : (curveOf K).Nonsingular ((curveOf K).addX x1 x2 l) ((curveOf K).addY x1 x2 y1 l)} :
    HasCoords K (affPoint x3 y3 a b p) (.some _ _ hon) := by
  subst hsl
  simp only [HasCoords, affPoint, toNat_ofNat_wide third.x_lt K.cp.isLt, toNat_ofNat_wide third.y_lt K.cp.isLt]
  refine ⟨trivial, ?_, ?_⟩
  · rw [third.x_eq]
    simp [curveOf]
  · rw [third.y_eq, third.x_eq]
    simp [curveOf, WeierstrassCurve.Affine.addY]
    ring

section Sum

variable {K A B R : PointRec} [Fact K.cp.toNat.Prime] {P Q : (curveOf K).Point}

/-- The chord of two points with different `x` gives their sum (R157). -/
theorem hasCoords_chord (hA : Denotes K A P) (hB : Denotes K B Q) (hAf : A.inf = false) (hBf : B.inf = false) (hx : A.x ≠ B.x)
    (hR : addPoints A B = .ok R) : HasCoords K R (P + Q) := by
  have line := addPoints_lineEnds_chord hA.valid hB.valid (oneCurve_trans hA.curve (oneCurve_symm hB.curve)) hAf hBf hx
  obtain ⟨_, _, hcp⟩ := hA.curve
  rw [hcp] at line
  have hx' : (A.x.toNat : ZMod K.cp.toNat) ≠ B.x.toNat := fun h => hx (BitVec.eq_of_toNat_eq
    (eq_of_cast_eq (finitePoint_of_oneCurve hA.valid hA.curve hAf).x_lt (finitePoint_of_oneCurve hB.valid hB.curve hBf).x_lt h))
  obtain ⟨hP, rfl⟩ := hA.eq_some hAf
  obtain ⟨hQ, rfl⟩ := hB.eq_some hBf
  obtain ⟨_, sl, x3, y3, hslope, third, e⟩ | ⟨_, e⟩ := line
  all_goals cases e.symm.trans hR
  rw [WeierstrassCurve.Affine.Point.add_of_X_ne hx']
  refine hasCoords_thirdPoint third ?_
  rw [WeierstrassCurve.Affine.slope_of_X_ne hx', div_eq_iff (sub_ne_zero.mpr hx')]
  linear_combination hslope

/-- The tangent at a point gives its double (R158). -/
theorem hasCoords_tangent (h : OddPrime K) (hA : Denotes K A P) (hAf : A.inf = false) (hy : A.y ≠ 0)
    (hR : addPoints A A = .ok R) : HasCoords K R (P + P) := by
  have line := addPoints_lineEnds_tangent hA.valid hAf hy
  obtain ⟨hca, _, hcp⟩ := hA.curve
  rw [hca, hcp] at line
  have hden : (2 : ZMod K.cp.toNat) * A.y.toNat ≠ 0 := mul_ne_zero (two_ne_zero_of_oddPrime h)
    (cast_ne_zero (fun h => hy (BitVec.eq_of_toNat_eq h)) (finitePoint_of_oneCurve hA.valid hA.curve hAf).y_lt)
  obtain ⟨hP, rfl⟩ := hA.eq_some hAf
  have hy' : (A.y.toNat : ZMod K.cp.toNat) ≠ (curveOf K).negY A.x.toNat A.y.toNat := fun h => hden (by
    rw [negY_curveOf] at h
    linear_combination h)
  obtain ⟨_, sl, x3, y3, hslope, third, e⟩ | ⟨_, e⟩ := line
  all_goals cases e.symm.trans hR
  rw [WeierstrassCurve.Affine.Point.add_self_of_Y_ne hy']
  refine hasCoords_thirdPoint third ?_
  rw [WeierstrassCurve.Affine.slope_of_Y_ne rfl hy', negY_curveOf, sub_neg_eq_add, ← two_mul, div_eq_iff hden, hslope]
  simp [curveOf]

/-- Opposite points sum to the identity (R158, R159). -/
theorem add_eq_zero_of_opposite (hA : Denotes K A P) (hB : Denotes K B Q) (h : Opposite A B) : P + Q = 0 := by
  obtain ⟨hAf, hBf, hx, hy⟩ := h
  have hx' : (A.x.toNat : ZMod K.cp.toNat) = B.x.toNat := by rw [hx]
  obtain ⟨hP, rfl⟩ := hA.eq_some hAf
  obtain ⟨hQ, rfl⟩ := hB.eq_some hBf
  refine WeierstrassCurve.Affine.Point.add_of_Y_eq hx' ?_
  obtain hy | ⟨hy, h0⟩ := hy
  · obtain h | h := WeierstrassCurve.Affine.Y_eq_of_X_eq hP.1 hQ.1 hx'
    · exact absurd (BitVec.eq_of_toNat_eq (eq_of_cast_eq (finitePoint_of_oneCurve hA.valid hA.curve hAf).y_lt
        (finitePoint_of_oneCurve hB.valid hB.curve hBf).y_lt h)) hy
    · exact h
  · rw [negY_curveOf, ← hy, h0]
    simp

/-- `Add` answers the record of the sum (R155). -/
theorem Denotes.addPoints (h : OddPrime K) (hA : Denotes K A P) (hB : Denotes K B Q) :
    ∃ R, addPoints A B = .ok R ∧ Denotes K R (P + Q) := by
  have hAB : OneCurve A B := oneCurve_trans hA.curve (oneCurve_symm hB.curve)
  obtain ⟨R, hR, hvalid, hcurve⟩ := addNeverFaultsOnAnOddPrime A B hA.valid hB.valid hAB (oddPrime_of_oneCurve hA.curve h)
  refine ⟨R, hR, hvalid, oneCurve_trans hcurve hA.curve, ?_⟩
  obtain h0 | h0 | ⟨hAf, hBf, hx⟩ | ⟨rfl, hAf, hy⟩ | h0 := pair_cases hA.valid hB.valid hAB
  · cases (addPoints_eq_right_of_valid hB.valid hAB h0).symm.trans hR
    rw [hA.eq_zero h0, zero_add]
    exact hB.coords
  · cases (addPoints_eq_left_of_valid hA.valid hAB h0).symm.trans hR
    rw [hB.eq_zero h0, add_zero]
    exact hA.coords
  · exact hasCoords_chord hA hB hAf hBf hx hR
  · rw [hB.point_unique hA]
    exact hasCoords_tangent h hA hAf hy hR
  · cases (addPoints_opposite hAB h0).symm.trans hR
    rw [add_eq_zero_of_opposite hA hB h0]
    exact rfl

end Sum

/-- Settles O47: both sums are records of one point, since Mathlib's group law is associative, and a point has one record. -/
theorem addIsAssociative : Obligations.AddIsAssociative := by
  intro A B C hA hB hC hAB hBC hprime hns
  have : Fact A.cp.toNat.Prime := ⟨hprime.1⟩
  have hBA := oneCurve_symm hAB
  have hCA := oneCurve_trans (oneCurve_symm hBC) hBA
  obtain ⟨P, hP⟩ := exists_denotes hprime hns hA ⟨rfl, rfl, rfl⟩
  obtain ⟨Q, hQ⟩ := exists_denotes hprime hns hB hBA
  obtain ⟨S, hS⟩ := exists_denotes hprime hns hC hCA
  obtain ⟨AB, eAB, hPQ⟩ := hP.addPoints hprime hQ
  obtain ⟨BC, eBC, hQS⟩ := hQ.addPoints hprime hS
  obtain ⟨R, eR, hR⟩ := hPQ.addPoints hprime hS
  obtain ⟨R', eR', hR'⟩ := hP.addPoints hprime hQS
  rw [add_assoc] at hR
  exact ⟨AB, BC, R, eAB, eBC, eR, hR'.unique hR ▸ eR'⟩

end Sys2Proof.Proofs
end

section
/-! Why `PADD` and `SMUL` fault in a run that loads only primes above 2: every point of the run is over a loaded modulus, and then `Add`
of two valid points of one curve, and so the loop of `SMUL`, cannot fault (`41_point.md` R165; `42_scalar.md` R188;
`70_reset_and_hazards.md` R247). -/

namespace Sys2Proof.Proofs

open Sys2Proof.Machine Sys2Proof.Safety Sys2Proof.Laws

/-! ### The moduli of a run are loaded -/

/-- What the program from `s` has loaded by `t`: the modulus of a command in flight, unless it is 0, and those of all points. -/
structure LoadedModuli (s t : State) : Prop where
  inFlight : t.st = .busy → t.curve.p ≠ 0 → LoadsModulus s t.curve.p
  points : ∀ j : QReg, (readQ t j).v = true → LoadsModulus s (readQ t j).cp

theorem LoadedModuli.of_modulusFrom {s t : State} {r : PointRec} (h : LoadedModuli s t) (busy : t.st = .busy)
    (hr : ModulusFrom t r) : LoadsModulus s r.cp := by
  obtain ⟨hp, e⟩ | ⟨k, hv, e⟩ := hr
  · rw [e]
    exact h.inFlight busy fun h0 => by simp [modulus, h0] at hp
  · rw [e]
    exact h.points k hv

theorem LoadedModuli.points_of_q {s t t' : State} (h : LoadedModuli s t) (hq : t'.q = t.q) (j : QReg) :
    (readQ t' j).v = true → LoadsModulus s (readQ t' j).cp := by
  rw [readQ, hq]
  exact h.points j

theorem LoadedModuli.step {s t t' : State} (written : t.curve.p ≠ 0 → ModulusWritten s t) (hstep : step t = .next t')
    (h : LoadedModuli s t) : LoadedModuli s t' := by
  cases step_moduliStep hstep with
  | reset _ hst hv => exact ⟨(absurd · hst), fun j hj => absurd hj (by simp [hv j])⟩
  | issue _ hs hi hp hq =>
    exact ⟨fun _ h0 => loadsModulus_iff.mpr ⟨t, written (hp ▸ h0), hs, hi, hp.symm⟩, h.points_of_q hq⟩
  | writeModulus _ _ _ hst hq => exact ⟨(absurd · hst), h.points_of_q hq⟩
  | complete _ hs hst _ hfrom => exact ⟨(absurd · hst), fun j hv => h.of_modulusFrom hs (hfrom j hv)⟩
  | other _ hst hp hq => exact ⟨fun hb h0 => hp ▸ h.inFlight (hst hb) (hp ▸ h0), h.points_of_q hq⟩

/-- Every point register of a run that loads only primes above 2 is empty or holds a valid point over such a prime (R28, R247). -/
def OddPrimePoints (s : State) : Prop := ∀ j : QReg, (readQ s j).v = true → PointValid (readQ s j) ∧ OddPrime (readQ s j)

theorem oddPrimePoints_of_after {s t : State} {n : Nat} (hclean : CleanReset s) (hprime : PrimeModulus s) (hlarge : LargeModulus s)
    (h : After s n t) : OddPrimePoints t := by
  have noPoint (j : QReg) : (readQ s j).v = false := by rw [readQ_of_reset hclean.q]; rfl
  have loaded : LoadedModuli s t := after_induction (P := LoadedModuli s)
    ⟨fun hb => absurd (hclean.st.symm.trans hb) nofun, fun j hj => absurd hj (by simp [noPoint j])⟩
    (fun _ _ _ hu hstep => .step (primeModuli_of_after hclean hprime hu).written hstep) h
  have inv : Inv t := after_induction (inv_of_cleanReset hclean)
    (fun _ u v _ hstep hu => everyStepKeepsTheInvariant u v hu hstep) h
  exact fun j hv => ⟨PointsOk.valid inv.points hv, hprime _ (loaded.points j hv), hlarge _ (loaded.points j hv)⟩

/-! ### The faults of `PADD` and `SMUL` over odd primes -/

/-- The loop registers of `SMUL` while it works on points of one curve over a prime above 2. -/
structure OddPrimeLoop (l : LoopRegs) : Prop where
  acc : PointValid l.acc
  cur : PointValid l.cur
  curve : OneCurve l.acc l.cur
  prime : OddPrime l.cur

theorem OddPrimeLoop.start {P : PointRec} (hP : PointValid P) (hprime : OddPrime P) (k : Wide) : OddPrimeLoop (loopStart P k) :=
  ⟨pointValid_infOn hP, hP, by rw [loopStart, infOn_eq]; exact ⟨rfl, rfl, rfl⟩, hprime⟩

/-- Neither `Add` of an iteration faults, and both keep the curve (R165, R188). -/
theorem OddPrimeLoop.iterate {l : LoopRegs} (h : OddPrimeLoop l) : ∃ l', loopIterate l = .ok l' ∧ OddPrimeLoop l' := by
  obtain ⟨hacc, hcur, hcurve, hprime⟩ := h
  obtain ⟨sum, esum, hsum, hsumcurve⟩ := addNeverFaultsOnAnOddPrime _ _ hacc hcur hcurve (oddPrime_of_oneCurve hcurve hprime)
  obtain ⟨cur, ecur, hcur', hcurcurve⟩ := addNeverFaultsOnAnOddPrime _ _ hcur hcur ⟨rfl, rfl, rfl⟩ hprime
  obtain ⟨acc, eacc, hacc', hacccurve⟩ : ∃ acc, (if l.ksh.getLsbD 0 then addPoints l.acc l.cur else .ok l.acc) = .ok acc ∧
      PointValid acc ∧ OneCurve acc l.acc := by
    split
    · exact ⟨sum, esum, hsum, hsumcurve⟩
    · exact ⟨l.acc, rfl, hacc, rfl, rfl, rfl⟩
  refine ⟨⟨acc, cur, l.ksh >>> 1⟩, by rw [loopIterate, eacc, ecur], hacc', hcur', ?_, oddPrime_of_oneCurve hcurcurve hprime⟩
  exact oneCurve_trans (oneCurve_trans hacccurve hcurve) (oneCurve_symm hcurcurve)

/-- Over a prime above 2 the loop of `SMUL` never faults (R188). -/
theorem OddPrimeLoop.run {l : LoopRegs} (n : Nat) (h : OddPrimeLoop l) : ∃ r, loopRun n l = .ok r := by
  induction n generalizing l with
  | zero => exact ⟨l, rfl⟩
  | succ n ih =>
    by_cases hk : l.ksh = 0
    · exact ⟨l, loopRun_zero_ksh _ hk⟩
    · obtain ⟨l', e, h'⟩ := h.iterate
      rw [loopRun_succ n hk, e]
      exact ih h'

theorem padd_err_of_oddPrimePoints {d a b : QReg} {s t : State} (h : OddPrimePoints s) (ht : exec (.padd d a b) s = .next t)
    (hf : t.st = .fault) : t.err = 7 ∨ t.err = 2 := by
  obtain ⟨_, _, e⟩ | ⟨c, hc, e⟩ := finishQ_cases d (withPoints [readQ s a, readQ s b] (addPoints (readQ s a) (readQ s b))) s
  all_goals cases e.symm.trans ht
  · cases hf
  obtain ⟨_, e'⟩ | ⟨hv, e'⟩ := withPoints_cases [readQ s a, readQ s b] (addPoints (readQ s a) (readQ s b))
  all_goals rw [e'] at hc
  · cases hc
    exact .inl rfl
  · obtain ⟨hA, hprime⟩ := h a (hv _ (by simp))
    obtain ⟨hB, _⟩ := h b (hv _ (by simp))
    by_cases hAB : OneCurve (readQ s a) (readQ s b)
    · obtain ⟨_, e'', _⟩ := addNeverFaultsOnAnOddPrime _ _ hA hB hAB hprime
      cases e''.symm.trans hc
    · cases (addPoints_curveMismatch hAB).symm.trans hc
      exact .inr rfl

theorem smul_err_of_oddPrimePoints {d a : QReg} {k : FReg} {s t : State} (h : OddPrimePoints s)
    (ht : exec (.smul d a k) s = .next t) (hf : t.st = .fault) : t.err = 7 := by
  obtain ⟨_, e⟩ | ⟨hv, ⟨c, hl, e⟩ | ⟨l, _, e⟩⟩ := execSmul_cases d a k s
  all_goals cases e.symm.trans ht
  · rfl
  · obtain ⟨hP, hprime⟩ := h a hv
    obtain ⟨_, hr⟩ := (OddPrimeLoop.start hP hprime (readF s k)).run 256
    cases hr.symm.trans hl
  · cases hf

/-! ### The fault of a run -/

/-- A fault is there before a step, with its code and its command, or a command in flight raises it (R214, R216). -/
theorem step_fault_cases {s t : State} (h : step s = .next t) (hf : t.st = .fault) :
    (s.st = .fault ∧ t.err = s.err ∧ t.errcmd = s.errcmd) ∨ ∃ u : State, u.q = s.q ∧ engineComplete u = .next t := by
  obtain ⟨u, hu, hcases⟩ := step_cases h
  have hst : u.st = s.st := by simp [hu]
  have hq : u.q = s.q := by simp [hu]
  obtain ⟨_, rfl⟩ | ⟨hr, ⟨hs, rfl⟩ | ⟨hs, _, _, _, rfl⟩ | ⟨hs, _, _, _, ⟨_, _, rfl⟩ | ⟨_, he⟩⟩⟩ := hcases
  · cases hf
  · rw [portEdge_idle_st hr (hst.trans hs)] at hf
    split at hf <;> cases hf
  · exact .inl ⟨hs, by simp [hu], by simp [hu]⟩
  · exact nomatch hf.symm.trans (hst.trans hs)
  · refine .inr ⟨_, ?_, he⟩
    exact hq

/-- The command that `ERRCMD` names is the one that raised the fault (R214). -/
theorem exec_of_errcmd {s t : State} {i : Instr} (h : engineComplete s = .next t) (hf : t.st = .fault)
    (hi : decode t.errcmd = .ok i) : exec i s = .next t := by
  obtain ⟨hidle, _⟩ | ⟨_, _, _, _, herrcmd, _⟩ := (engineComplete_completionFrame h).ends
  · exact nomatch hf.symm.trans hidle
  · rw [← h, engineComplete_of_decode (herrcmd ▸ hi)]

/-- Where `PADD` or `SMUL` has faulted, its operands did not allow it to start (R202, R207). -/
structure OperandFault (t : State) : Prop where
  padd : ∀ qd qa qb, decode t.errcmd = .ok (.padd qd qa qb) → t.err = 7 ∨ t.err = 2
  smul : ∀ qd qa fk, decode t.errcmd = .ok (.smul qd qa fk) → t.err = 7

theorem operandFault_step {s t : State} (hpoints : OddPrimePoints s) (hstep : step s = .next t)
    (h : s.st = .fault → OperandFault s) (hf : t.st = .fault) : OperandFault t := by
  obtain ⟨hs, herr, herrcmd⟩ | ⟨u, hq, he⟩ := step_fault_cases hstep hf
  · obtain ⟨padd, smul⟩ := h hs
    constructor
    all_goals rw [herr, herrcmd]
    · exact padd
    · exact smul
  · have hpoints' : OddPrimePoints u := by
      unfold OddPrimePoints readQ at *
      rwa [hq]
    exact ⟨fun _ _ _ hi => padd_err_of_oddPrimePoints hpoints' (exec_of_errcmd he hf hi) hf,
      fun _ _ _ hi => smul_err_of_oddPrimePoints hpoints' (exec_of_errcmd he hf hi) hf⟩

/-- Settles O58: every state of the run has valid points over primes above 2 only, and so every step keeps its fault one of the operands. -/
theorem pointArithmeticOfARunNeverFailsToDivide : Obligations.PointArithmeticOfARunNeverFailsToDivide := by
  intro s t n hclean hprime hlarge h hf
  have start : s.st = .fault → OperandFault s := fun hs => nomatch hclean.st.symm.trans hs
  have operandFault : t.st = .fault → OperandFault t := after_induction (P := fun t => t.st = .fault → OperandFault t) start
    (fun _ _ _ hu hstep => operandFault_step (oddPrimePoints_of_after hclean hprime hlarge hu) hstep) h
  obtain ⟨padd, smul⟩ := operandFault hf
  exact ⟨padd, smul⟩

end Sys2Proof.Proofs
end

section
/-! The loop of `SMUL`: what every iteration keeps, how many iterations there are, and the document's double-and-add as its value
(`42_scalar.md` R180, R182, R183, R186, R188). -/

namespace Sys2Proof.Proofs

open Sys2Proof.Machine Sys2Proof.Safety Sys2Proof.Laws

/-! ### One iteration -/

theorem getLsbD_zero_iff (k : Wide) : k.getLsbD 0 = true ↔ k.toNat % 2 = 1 := by
  rw [BitVec.getLsbD, Nat.testBit_zero, decide_eq_true_iff]

theorem toNat_ushiftRight_one (k : Wide) : (k >>> 1).toNat = k.toNat / 2 := by
  rw [BitVec.toNat_ushiftRight, Nat.shiftRight_eq_div_pow, pow_one]

theorem toNat_pos_of_ne_zero {k : Wide} (h : k ≠ 0) : 0 < k.toNat :=
  Nat.pos_of_ne_zero fun e => h (BitVec.eq_of_toNat_eq e)

/-- What one iteration puts into `ACC` (R180). -/
def accumulate (l : LoopRegs) : Except FaultCode PointRec := if l.ksh.getLsbD 0 then addPoints l.acc l.cur else .ok l.acc

theorem accumulate_of_odd {l : LoopRegs} (h : l.ksh.toNat % 2 = 1) : accumulate l = addPoints l.acc l.cur :=
  if_pos ((getLsbD_zero_iff _).mpr h)

theorem accumulate_of_even {l : LoopRegs} (h : l.ksh.toNat % 2 = 0) : accumulate l = .ok l.acc :=
  if_neg fun h' => absurd ((getLsbD_zero_iff _).mp h') (by omega)

theorem accumulate_cases (l : LoopRegs) : accumulate l = addPoints l.acc l.cur ∨ accumulate l = .ok l.acc := by
  rw [accumulate]
  split
  · exact .inl rfl
  · exact .inr rfl

section Iterate

variable {l : LoopRegs} {acc cur : PointRec} {c : FaultCode}

theorem loopIterate_of_accumulate_error (hacc : accumulate l = .error c) : loopIterate l = .error c := by
  rw [accumulate] at hacc
  rw [loopIterate, hacc]

theorem loopIterate_of_double_error (hacc : accumulate l = .ok acc) (hcur : addPoints l.cur l.cur = .error c) :
    loopIterate l = .error c := by
  rw [accumulate] at hacc
  rw [loopIterate, hacc, hcur]

theorem loopIterate_of_ok (hacc : accumulate l = .ok acc) (hcur : addPoints l.cur l.cur = .ok cur) :
    loopIterate l = .ok ⟨acc, cur, l.ksh >>> 1⟩ := by
  rw [accumulate] at hacc
  rw [loopIterate, hacc, hcur]

end Iterate

theorem loopIterate_ksh {l l' : LoopRegs} (h : loopIterate l = .ok l') : l'.ksh = l.ksh >>> 1 := by
  obtain ⟨_, _, _, _, e⟩ | ⟨_, _, e⟩ | ⟨_, _, _, _, e⟩ := loopIterate_cases l
  all_goals cases e.symm.trans h
  rfl

/-! ### Invariants -/

/-- What every iteration keeps without a fault holds after the loop, which then ends without one. -/
theorem loopRun_keeps {I : LoopRegs → Prop} (keeps : ∀ l, I l → ∃ l', loopIterate l = .ok l' ∧ I l') (n : Nat) {l : LoopRegs}
    (hl : I l) : ∃ r, loopRun n l = .ok r ∧ I r := by
  induction n generalizing l with
  | zero => exact ⟨l, rfl, hl⟩
  | succ n ih =>
    by_cases hk : l.ksh = 0
    · exact ⟨l, loopRun_zero_ksh _ hk, hl⟩
    · obtain ⟨l', e, hl'⟩ := keeps l hl
      rw [loopRun_succ n hk, e]
      exact ih hl'

/-! ### The number of iterations -/

theorem bitlen_le_iff (k n : Nat) : bitlen k ≤ n ↔ k < 2 ^ n := by
  rw [bitlen]
  split_ifs with hk
  · simp [hk]
  · exact Nat.log2_lt hk

theorem bitlen_div_two {k : Nat} (hk : k ≠ 0) : bitlen k = bitlen (k / 2) + 1 := by
  refine eq_of_forall_ge_iff fun n => ?_
  cases n with
  | zero => rw [bitlen_le_iff]; simpa using hk
  | succ n =>
    rw [Nat.add_le_add_iff_right, bitlen_le_iff, bitlen_le_iff, pow_succ]
    omega

theorem iterations_ksh {n : Nat} {l r : LoopRegs} (h : iterations n l = .ok r) : r.ksh = l.ksh >>> n := by
  induction n generalizing l with
  | zero =>
    cases h
    simp
  | succ n ih =>
    rw [iterations] at h
    cases e : loopIterate l with
    | error c => rw [e] at h; cases h
    | ok l' =>
      rw [e] at h
      rw [ih h, loopIterate_ksh e, ← BitVec.shiftRight_add, Nat.add_comm]

/-- The bound on the iterations is not reached where it is at least the length of the scalar. -/
theorem loopRun_eq_iterations {m : Nat} {l : LoopRegs} (h : bitlen l.ksh.toNat ≤ m) :
    loopRun m l = iterations (bitlen l.ksh.toNat) l := by
  induction m generalizing l with
  | zero => rw [Nat.le_zero.mp h, loopRun, iterations]
  | succ m ih =>
    by_cases hk : l.ksh = 0
    · rw [loopRun_zero_ksh _ hk, hk]
      rfl
    · have hlen := bitlen_div_two (toNat_pos_of_ne_zero hk).ne'
      rw [loopRun_succ m hk, hlen, iterations]
      cases e : loopIterate l with
      | error c => rfl
      | ok l' =>
        have hl' : l'.ksh.toNat = l.ksh.toNat / 2 := by rw [loopIterate_ksh e, toNat_ushiftRight_one]
        rw [← hl'] at hlen ⊢
        exact ih (by omega)

/-- `W` iterations are enough for every scalar (R183). -/
theorem bitlen_toNat_le (k : Wide) : bitlen k.toNat ≤ 256 := (bitlen_le_iff _ _).mpr k.isLt

theorem ksh_eq_zero_iff_of_iterations {n : Nat} {l r : LoopRegs} (h : iterations n l = .ok r) :
    r.ksh = 0 ↔ bitlen l.ksh.toNat ≤ n := by
  rw [iterations_ksh h, bitlen_le_iff, ← BitVec.toNat_inj, BitVec.toNat_ushiftRight, Nat.shiftRight_eq_div_pow]
  exact Nat.div_eq_zero_iff_lt (Nat.two_pow_pos n)

/-- The loop ends with `KSH = 0`. -/
theorem ksh_eq_zero_of_loopRun {l r : LoopRegs} (h : loopRun 256 l = .ok r) : r.ksh = 0 := by
  rw [loopRun_eq_iterations (bitlen_toNat_le _)] at h
  exact (ksh_eq_zero_iff_of_iterations h).mpr le_rfl

/-- Settles O51: the bound of 256 is not reached, and each iteration takes one bit off `KSH`. -/
theorem smulRunsBitlenIterations : Obligations.SmulRunsBitlenIterations := fun _ k =>
  ⟨loopRun_eq_iterations (bitlen_toNat_le k), bitlen_toNat_le k, fun _ _ h => ksh_eq_zero_iff_of_iterations h⟩

/-! ### The document's loop -/

/-- The outcome of the document's loop that begins with `result = ACC`, `current = CUR` and `k = KSH`. -/
abbrev DoubleAndAddFrom (l : LoopRegs) (out : Except FaultCode PointRec) : Prop := DoubleAndAdd l.ksh.toNat l.acc l.cur out

theorem doubleAndAddFrom_zero_iff {l : LoopRegs} {out : Except FaultCode PointRec} (hk : l.ksh = 0) :
    DoubleAndAddFrom l out ↔ out = .ok l.acc := by
  have h0 : l.ksh.toNat = 0 := by rw [hk]; rfl
  rw [DoubleAndAddFrom, h0]
  refine ⟨fun h => ?_, fun h => h ▸ .finished _ _⟩
  cases h with
  | finished => rfl
  | accumulateFaults h | accumulateThenDoubleFaults h | accumulateAndDouble h => cases h
  | doubleFaults h | double h => cases h

theorem doubleAndAddFrom_shift_iff {acc cur : PointRec} {k : Wide} {out : Except FaultCode PointRec} :
    DoubleAndAddFrom ⟨acc, cur, k >>> 1⟩ out ↔ DoubleAndAdd (k.toNat / 2) acc cur out := by
  rw [DoubleAndAddFrom, toNat_ushiftRight_one]

section Turn

variable {l : LoopRegs} {acc cur : PointRec} {c : FaultCode} {out : Except FaultCode PointRec}

-- The three ways one turn of the document's loop can go, for odd and even scalars alike (R188).

theorem doubleAndAddFrom_of_accumulate_error (hacc : accumulate l = .error c) : DoubleAndAddFrom l (.error c) := by
  obtain heven | hodd := Nat.mod_two_eq_zero_or_one l.ksh.toNat
  · cases (accumulate_of_even heven).symm.trans hacc
  · exact .accumulateFaults hodd ((accumulate_of_odd hodd).symm.trans hacc)

theorem doubleAndAddFrom_of_double_error (hk : l.ksh ≠ 0) (hacc : accumulate l = .ok acc)
    (hcur : addPoints l.cur l.cur = .error c) : DoubleAndAddFrom l (.error c) := by
  obtain heven | hodd := Nat.mod_two_eq_zero_or_one l.ksh.toNat
  · exact .doubleFaults (toNat_pos_of_ne_zero hk) heven hcur
  · exact .accumulateThenDoubleFaults hodd ((accumulate_of_odd hodd).symm.trans hacc) hcur

theorem doubleAndAddFrom_of_ok (hk : l.ksh ≠ 0) (hacc : accumulate l = .ok acc) (hcur : addPoints l.cur l.cur = .ok cur)
    (hout : DoubleAndAddFrom ⟨acc, cur, l.ksh >>> 1⟩ out) : DoubleAndAddFrom l out := by
  rw [doubleAndAddFrom_shift_iff] at hout
  obtain heven | hodd := Nat.mod_two_eq_zero_or_one l.ksh.toNat
  · cases (accumulate_of_even heven).symm.trans hacc
    exact .double (toNat_pos_of_ne_zero hk) heven hcur hout
  · exact .accumulateAndDouble hodd ((accumulate_of_odd hodd).symm.trans hacc) hcur hout

/-- A turn of the document's loop ends with the fault of the iteration of `SMUL`'s loop, or goes on from that iteration's answer. -/
theorem iterate_of_doubleAndAddFrom (hk : l.ksh ≠ 0) (h : DoubleAndAddFrom l out) :
    (∃ c, loopIterate l = .error c ∧ out = .error c) ∨ ∃ l', loopIterate l = .ok l' ∧ DoubleAndAddFrom l' out := by
  have hpos := toNat_pos_of_ne_zero hk
  have odd : l.ksh.toNat % 2 = 1 → accumulate l = addPoints l.acc l.cur := accumulate_of_odd
  have even : l.ksh.toNat % 2 = 0 → accumulate l = .ok l.acc := accumulate_of_even
  have rest (acc cur) : DoubleAndAdd (l.ksh.toNat / 2) acc cur out → DoubleAndAddFrom ⟨acc, cur, l.ksh >>> 1⟩ out :=
    doubleAndAddFrom_shift_iff.mpr
  rw [DoubleAndAddFrom] at h
  generalize l.ksh.toNat = n at h hpos odd even rest
  cases h with
  | finished => omega
  | accumulateFaults hodd hacc => exact .inl ⟨_, loopIterate_of_accumulate_error ((odd hodd).trans hacc), rfl⟩
  | accumulateThenDoubleFaults hodd hacc hcur =>
    exact .inl ⟨_, loopIterate_of_double_error ((odd hodd).trans hacc) hcur, rfl⟩
  | accumulateAndDouble hodd hacc hcur hout => exact .inr ⟨_, loopIterate_of_ok ((odd hodd).trans hacc) hcur, rest _ _ hout⟩
  | doubleFaults _ heven hcur => exact .inl ⟨_, loopIterate_of_double_error (even heven) hcur, rfl⟩
  | double _ heven hcur hout => exact .inr ⟨_, loopIterate_of_ok (even heven) hcur, rest _ _ hout⟩

theorem doubleAndAddFrom_iff_iterate (hk : l.ksh ≠ 0) : DoubleAndAddFrom l out ↔
    (∃ c, loopIterate l = .error c ∧ out = .error c) ∨ ∃ l', loopIterate l = .ok l' ∧ DoubleAndAddFrom l' out := by
  refine ⟨iterate_of_doubleAndAddFrom hk, fun h => ?_⟩
  obtain ⟨acc, cur, hacc, hcur, e⟩ | ⟨c, hacc, e⟩ | ⟨acc, c, hacc, hcur, e⟩ := loopIterate_cases l
  all_goals
    rw [e] at h
    obtain ⟨_, e', hout⟩ | ⟨_, e', hout⟩ := h
    all_goals cases e'
  · exact doubleAndAddFrom_of_ok hk hacc hcur hout
  · exact hout ▸ doubleAndAddFrom_of_accumulate_error hacc
  · exact hout ▸ doubleAndAddFrom_of_double_error hk hacc hcur

end Turn

/-- The loop of `SMUL` answers the outcome of the document's loop, and that has no other. -/
theorem doubleAndAddFrom_iff_loopRun {n : Nat} {l : LoopRegs} {out : Except FaultCode PointRec} (hk : l.ksh.toNat < 2 ^ n) :
    DoubleAndAddFrom l out ↔ out = (loopRun n l).map LoopRegs.acc := by
  induction n generalizing l with
  | zero => exact doubleAndAddFrom_zero_iff (BitVec.eq_of_toNat_eq (Nat.lt_one_iff.mp hk))
  | succ n ih =>
    by_cases h0 : l.ksh = 0
    · rw [loopRun_zero_ksh _ h0]
      exact doubleAndAddFrom_zero_iff h0
    · rw [doubleAndAddFrom_iff_iterate h0, loopRun_succ n h0]
      cases e : loopIterate l with
      | error c => simp [Except.map]
      | ok l' =>
        have hk' : l'.ksh.toNat < 2 ^ n := by
          rw [loopIterate_ksh e, toNat_ushiftRight_one]
          omega
        simp [ih hk']

/-! ### The command -/

theorem exec_smul_commits {d a : QReg} {k : FReg} {s : State} {r : LoopRegs} (hv : s.q[a].v = true)
    (h : loopRun 256 (loopStart s.q[a] s.f[k]) = .ok r) : ∃ l n, exec (.smul d a k) s = .next
      { s with q := s.q.set d r.acc, st := .idle, done := true, loop := l, fresh := n } := by
  obtain ⟨hv', _⟩ | ⟨_, ⟨c, hc, _⟩ | ⟨r', hr, e⟩⟩ := execSmul_cases d a k s
  · cases hv.symm.trans hv'
  · cases hc.symm.trans h
  · cases hr.symm.trans h
    exact ⟨_, _, e⟩

theorem exec_smul_faults {d a : QReg} {k : FReg} {s : State} {c : FaultCode} (hv : s.q[a].v = true)
    (h : loopRun 256 (loopStart s.q[a] s.f[k]) = .error c) : ∃ l n, exec (.smul d a k) s = .next
      { s with err := faultNumber c, errcmd := s.cmdr, st := .fault, loop := l, fresh := n } := by
  obtain ⟨hv', _⟩ | ⟨_, ⟨c', hc, e⟩ | ⟨r', hr, _⟩⟩ := execSmul_cases d a k s
  · cases hv.symm.trans hv'
  · cases hc.symm.trans h
    exact ⟨_, _, e⟩
  · cases hr.symm.trans h

theorem exec_smul_uninit {d a : QReg} {k : FReg} {s : State} (hv : s.q[a].v = false) :
    exec (.smul d a k) s = .next (faultEntry .uninitPoint s) := by
  obtain ⟨_, e⟩ | ⟨hv', _⟩ := execSmul_cases d a k s
  · exact e
  · cases hv.symm.trans hv'

/-- Settles O49: the outcome of the document's loop is that of `SMUL`'s, so there is one and no other. -/
theorem smulIsDoubleAndAdd : Obligations.SmulIsDoubleAndAdd := by
  intro d a k s
  have outcome_iff (out : Except FaultCode PointRec) := doubleAndAddFrom_iff_loopRun (out := out) (l := loopStart s.q[a] s.f[k])
    s.f[k].isLt
  rw [← infOn_eq]
  refine ⟨decode_instrFields (.smul d a k), exec_smul_uninit, fun hv out hout => ?_, _, (outcome_iff _).mpr rfl⟩
  rw [(outcome_iff out).mp hout]
  cases h : loopRun 256 (loopStart s.q[a] s.f[k]) with
  | ok r => exact exec_smul_commits hv h
  | error c => exact exec_smul_faults hv h

/-! ### An identity, and the scalar 1 (R182) -/

theorem oneCurve_infOn (P : PointRec) : OneCurve (infOn P) P := by
  rw [infOn_eq]
  exact ⟨rfl, rfl, rfl⟩

/-- The loop registers while `SMUL` works on an identity on the curve of `P`. -/
structure IdentityLoop (P : PointRec) (l : LoopRegs) : Prop where
  acc : l.acc = infOn P
  cur : l.cur.inf = true
  curve : OneCurve l.cur P

theorem IdentityLoop.iterate {P : PointRec} {l : LoopRegs} (h : IdentityLoop P l) :
    ∃ l', loopIterate l = .ok l' ∧ IdentityLoop P l' := by
  obtain ⟨hacc, hinf, hcurve⟩ := h
  have hcur : addPoints l.cur l.cur = .ok (infOn P) := by
    rw [addPoints_identities ⟨rfl, rfl, rfl⟩ hinf hinf, infOn_congr hcurve]
  have hsum : addPoints (infOn P) l.cur = .ok (infOn P) := by
    rw [addPoints_identities (oneCurve_trans (oneCurve_infOn P) (oneCurve_symm hcurve)) rfl hinf, infOn_congr (oneCurve_infOn P)]
  have hacc' : accumulate l = .ok (infOn P) := by
    obtain e | e := accumulate_cases l
    · rw [e, hacc, hsum]
    · rw [e, hacc]
  exact ⟨_, loopIterate_of_ok hacc' hcur, rfl, rfl, oneCurve_infOn P⟩

theorem loopRun_identity {P : PointRec} (hP : P.inf = true) (k : Wide) :
    ∃ r, loopRun 256 (loopStart P k) = .ok r ∧ r.acc = infOn P := by
  obtain ⟨r, hr, hacc, _⟩ := loopRun_keeps (fun _ => IdentityLoop.iterate (P := P)) 256 (l := loopStart P k)
    ⟨rfl, hP, rfl, rfl, rfl⟩
  exact ⟨r, hr, hacc⟩

/-- The scalar 1 takes one iteration, which adds the point to the identity; its doubling is not used. -/
theorem loopRun_one {P : PointRec} (hP : PointValid P) (hprime : OddPrime P) :
    ∃ r, loopRun 256 (loopStart P 1) = .ok r ∧ r.acc = P := by
  obtain ⟨cur, hcur, _⟩ := addNeverFaultsOnAnOddPrime P P hP hP ⟨rfl, rfl, rfl⟩ hprime
  have hacc : accumulate (loopStart P 1) = .ok P :=
    (accumulate_of_odd rfl).trans (addPoints_eq_right_of_valid hP (oneCurve_infOn P) rfl)
  refine ⟨⟨P, cur, (loopStart P 1).ksh >>> 1⟩, ?_, rfl⟩
  rw [loopRun_succ 255 (by simp [loopStart]), loopIterate_of_ok hacc hcur]
  exact loopRun_zero_ksh 255 (by decide : (1 : Wide) >>> 1 = 0)

/-- Settles O50: the loop ends at once for 0, stays on identities from an identity, and takes one iteration for 1. -/
theorem smulOfZeroOneAndIdentity : Obligations.SmulOfZeroOneAndIdentity := by
  intro d a k s hv
  rw [← infOn_eq]
  refine ⟨fun h => ?_, fun hone hP hprime => ?_⟩
  · obtain ⟨r, hr, hacc⟩ : ∃ r, loopRun 256 (loopStart s.q[a] s.f[k]) = .ok r ∧ r.acc = infOn s.q[a] := by
      obtain h0 | hinf := h
      · exact ⟨_, loopRun_zero_ksh 256 h0, rfl⟩
      · exact loopRun_identity hinf _
    exact hacc ▸ exec_smul_commits hv hr
  · obtain ⟨r, hr, hacc⟩ := loopRun_one hP hprime
    rw [← hone] at hr
    obtain ⟨l, n, e⟩ := exec_smul_commits (d := d) hv hr
    exact ⟨l, n, hacc ▸ e⟩

/-- Settles O52: the loop stays on valid points of the source's curve, where `Add` never faults. -/
theorem smulCommitsOnAnOddPrime : Obligations.SmulCommitsOnAnOddPrime := by
  intro d a k s hP hprime
  obtain ⟨r, hr⟩ := (OddPrimeLoop.start hP hprime s.f[k]).run 256
  obtain ⟨_, hcurve⟩ := loopRun_curve rfl hP.1 hr
  obtain ⟨l, n, e⟩ := exec_smul_commits (d := d) hP.1 hr
  exact ⟨r.acc, l, n, pointValid_of_loopRun (pointValid_infOn hP) hP hr, oneCurve_trans hcurve (oneCurve_infOn _), e⟩

end Sys2Proof.Proofs
end

section
/-! `SMUL` is repeated addition: its loop keeps `ACC + KSH · CUR` in the group of the source's curve (`42_scalar.md` R182). -/

namespace Sys2Proof.Proofs

open Sys2Proof.Machine Sys2Proof.Safety Sys2Proof.Laws

theorem Denotes.infOn {K : PointRec} (hK : PointValid K) : Denotes K (infOn K) 0 :=
  ⟨pointValid_infOn hK, oneCurve_infOn K, rfl⟩

section Multiple

variable {K : PointRec} [Fact K.cp.toNat.Prime] (h : OddPrime K)

/-- The loop registers hold records of points with `ACC + KSH · CUR = S`. -/
def LoopSum (S : (curveOf K).Point) (l : LoopRegs) : Prop :=
  ∃ A C, Denotes K l.acc A ∧ Denotes K l.cur C ∧ A + l.ksh.toNat • C = S

include h

theorem LoopSum.iterate {S : (curveOf K).Point} {l : LoopRegs} (hl : LoopSum S l) :
    ∃ l', loopIterate l = .ok l' ∧ LoopSum S l' := by
  obtain ⟨A, C, hA, hC, hS⟩ := hl
  obtain ⟨cur, ecur, hcur⟩ := hC.addPoints h hC
  have double : (l.ksh >>> 1).toNat • (C + C) = (l.ksh.toNat / 2 + l.ksh.toNat / 2) • C := by
    rw [toNat_ushiftRight_one, nsmul_add, ← add_nsmul]
  obtain heven | hodd := Nat.mod_two_eq_zero_or_one l.ksh.toNat
  · refine ⟨_, loopIterate_of_ok (accumulate_of_even heven) ecur, A, C + C, hA, hcur, ?_⟩
    rw [double, ← hS, (by omega : l.ksh.toNat / 2 + l.ksh.toNat / 2 = l.ksh.toNat)]
  · obtain ⟨acc, eacc, hacc⟩ := hA.addPoints h hC
    refine ⟨_, loopIterate_of_ok ((accumulate_of_odd hodd).trans eacc) ecur, A + C, C + C, hacc, hcur, ?_⟩
    rw [double, ← hS, add_assoc, ← succ_nsmul', (by omega : l.ksh.toNat / 2 + l.ksh.toNat / 2 + 1 = l.ksh.toNat)]

theorem loopRun_denotes {P : (curveOf K).Point} (hP : Denotes K K P) (k : Wide) :
    ∃ r, loopRun 256 (loopStart K k) = .ok r ∧ Denotes K r.acc (k.toNat • P) := by
  obtain ⟨r, hr, A, C, hA, _, hS⟩ := loopRun_keeps (fun _ => LoopSum.iterate h) 256 (l := loopStart K k)
    ⟨0, P, .infOn hP.valid, hP, zero_add (k.toNat • P)⟩
  rw [ksh_eq_zero_of_loopRun hr] at hS
  have hA_eq : A = k.toNat • P := by simpa using hS
  exact ⟨r, hr, hA_eq ▸ hA⟩

theorem multiple_denotes {P : (curveOf K).Point} (hP : Denotes K K P) (n : ℕ) :
    ∃ R, multiple K n = .ok R ∧ Denotes K R (n • P) := by
  induction n with
  | zero => exact ⟨infOn K, rfl, zero_nsmul P ▸ .infOn hP.valid⟩
  | succ n ih =>
    obtain ⟨R, e, hR⟩ := ih
    rw [multiple, e, succ_nsmul]
    exact hR.addPoints h hP

end Multiple

/-- Settles O53: `ACC` at the end and the repeated sum are records of one point, and a point has one record. -/
theorem smulIsRepeatedAddition : Obligations.SmulIsRepeatedAddition := by
  intro d a k s hvalid hprime hns
  have : Fact s.q[a].cp.toNat.Prime := ⟨hprime.1⟩
  obtain ⟨P, hP⟩ := exists_denotes hprime hns hvalid ⟨rfl, rfl, rfl⟩
  obtain ⟨r, hr, hacc⟩ := loopRun_denotes hprime hP s.f[k]
  obtain ⟨R, hR, hsum⟩ := multiple_denotes hprime hP s.f[k].toNat
  obtain ⟨l, n, e⟩ := exec_smul_commits (d := d) hvalid.1 hr
  exact ⟨r.acc, l, n, hacc.unique hsum ▸ hR, e⟩

end Sys2Proof.Proofs
end

section
/-! Faults and interrupts: `IllegalCommand`, a fault that stands until a reset, within a run too, and `irq` with its enables
(`60_exceptions.md` R208 to R210, R216, R217). -/

namespace Sys2Proof.Proofs

open Sys2Proof.Machine Sys2Proof.Safety Sys2Proof.Laws

/-- The words the decoder refuses are those that are not well-formed (R95, R96). -/
theorem decode_error_iff_not_wellFormed (w : Word) : (∃ e, decode w = .error e) ↔ wordWellFormed w = false := by
  rw [decode_error_iff, ← Bool.not_eq_true, wordWellFormed, List.any_eq_true]

/-- Settles O7: the edge completes the command in flight, and what every refused word ends in is the second part of O4. -/
theorem illegalCommandFaults : Obligations.IllegalCommandFaults := by
  intro s hs hl hh hw
  obtain ⟨_, faults⟩ := illegalWordsAreTheFiveClasses s.cmdr
  calc step s = clockEdge idleCycle s := step_no_line hh
    _ = engineComplete s := clockEdge_completes_after rfl hs hs hl
    _ = _ := faults s rfl ((decode_error_iff_not_wellFormed _).mpr hw)

/-- Settles O22: of the cases of a step, only the one that writes at most the enables applies. -/
theorem faultIsFatalUntilReset : Obligations.FaultIsFatalUntilReset := by
  intro s t fault noReset h
  obtain ⟨_, rfl, hcases⟩ := step_cases h
  obtain ⟨host, got, hu⟩ := hostAdvance_eq (rdata s (hostInputs s)) s
  rw [hu] at hcases
  obtain ⟨hr, _⟩ | ⟨_, ⟨hs, _⟩ | ⟨_, _, _, _, rfl⟩ | ⟨hs, _⟩⟩ := hcases
  · exact nomatch hr.symm.trans noReset
  · exact nomatch hs.symm.trans fault
  · rfl
  · exact nomatch hs.symm.trans fault

/-- A fault stands to the end of a run (R216, R217). -/
theorem fault_of_after {s t : State} {n : Nat} (fault : s.st = .fault) (noReset : NoResetWithin s n) (h : After s n t) :
    t.st = .fault := by
  induction n generalizing t with
  | zero => cases h; exact fault
  | succ n ih =>
    obtain ⟨u, hu, hstep⟩ := after_step.mp h
    have hfault : u.st = .fault := ih (fun k v hk => noReset k v (hk.trans n.lt_succ_self)) hu
    rw [faultIsFatalUntilReset u t hfault (noReset n u n.lt_succ_self hu) hstep]
    exact hfault

theorem noResetWithin_rest {s u : State} {k m : Nat} (h : NoResetWithin s (k + m)) (hu : After s k u) : NoResetWithin u m :=
  fun j v hj hv => h (k + j) v (Nat.add_lt_add_left hj k) (after_add hu hv)

/-- Settles O56: a fault inside the run would stand at its end, and where no fault stands the invariant has `ERR = 0`. -/
theorem noFaultAtTheEndMeansNoneInTheRun : Obligations.NoFaultAtTheEndMeansNoneInTheRun := by
  rintro s t n inv h noReset ⟨hend, _⟩ k u hk hu
  obtain ⟨m, rfl⟩ := Nat.exists_eq_add_of_le hk
  have noFault : u.st ≠ .fault := fun hf => hend (fault_of_after hf (noResetWithin_rest noReset hu) (after_rest hu h))
  have hinv : Inv u := after_induction inv (fun _ v w _ hstep hv => everyStepKeepsTheInvariant v w hv hstep) hu
  exact ⟨noFault, (hinv.no_fault noFault).1⟩

/-! ### The interrupt line and its enables -/

/-- Settles O25: `irq` as R209 writes it; `DONE` is 1 only in `IDLE` (R41). -/
theorem interruptLineFollowsTheFlags : Obligations.InterruptLineFollowsTheFlags := by
  refine fun s => ⟨?_, fun inv ⟨hdone, hf⟩ => ?_⟩
  · rw [irq, Bool.or_eq_true, Bool.and_eq_true, Bool.and_eq_true, faultFlag, decide_eq_true_iff]
  · exact nomatch hdone.symm.trans (inv.done_idle (by rw [hf]; nofun))

/-- The state with the interrupt enables `d` for `DONE` and `e` for a fault (R34). -/
def setEnables (d e : Bool) (s : State) : State := { s with ieDone := d, ieFault := e }

section Enables

variable {s t : State} (d e : Bool)

theorem finishF_setEnables {fd : FReg} {r : Except FaultCode Nat} (h : finishF fd r s = .next t) :
    finishF fd r (setEnables d e s) = .next (setEnables d e t) := by
  cases r <;> cases h <;> rfl

theorem finishQ_setEnables {qd : QReg} {r : Except FaultCode PointRec} (h : finishQ qd r s = .next t) :
    finishQ qd r (setEnables d e s) = .next (setEnables d e t) := by
  cases r <;> cases h <;> rfl

theorem endSmul_setEnables {qd : QReg} {r : Except FaultCode LoopRegs} (h : endSmul qd r s = .next t) :
    endSmul qd r (setEnables d e s) = .next (setEnables d e t) := by
  cases r <;> cases h <;> rfl

/-- `SMUL` looks at its two source registers, which other enables leave as they are. -/
theorem execSmul_setEnables {qd qa : QReg} {fk : FReg} (h : execSmul qd qa fk s = .next t) :
    execSmul qd qa fk (setEnables d e s) = .next (setEnables d e t) := by
  rw [execSmul_eq] at h ⊢
  by_cases hv : (readQ s qa).v = true
  · exact (if_pos hv).trans (endSmul_setEnables d e ((if_pos hv).symm.trans h))
  · cases (if_neg hv).symm.trans h
    exact if_neg hv

end Enables

/-- Settles O26: the operand tests and the results of a command read no enable, and neither do its two ends. -/
theorem engineIgnoresTheInterruptEnables : Obligations.EngineIgnoresTheInterruptEnables := by
  intro i s t d e h
  cases i with
  | fadd | fsub | fmul | fdiv | finv | fpow => exact finishF_setEnables d e h
  | pnew | pinf | padd => exact finishQ_setEnables d e h
  | smul => exact execSmul_setEnables d e h

end Sys2Proof.Proofs
end

section
/-! A reset from any state, and the end of every command in flight (`70_reset_and_hazards.md` R240, R242, R243, R257; `10_state.md` R39). -/

namespace Sys2Proof.Proofs

open Sys2Proof.Machine Sys2Proof.Safety Sys2Proof.Laws

/-- Settles O18: a reset wins over everything else at its edge, and it keeps the host's program, which has gone on by one line. -/
theorem bothResetsWinInAnyState : Obligations.BothResetsWinInAnyState :=
  fun _ p _ hh h => ⟨_, (step_cycle hh).trans (clockEdge_of_reset _ ((resetInputs_iff p).mpr h)), sameRegisters_resetBlock _, rfl⟩

/-- Whatever the host does, one edge takes a command in flight out of `BUSY` or takes one from the latency it has left (R257). -/
theorem step_leaves_busy_or_counts_down {s t : State} (busy : s.st = .busy) (h : step s = .next t) :
    t.st ≠ .busy ∨ (t.st = .busy ∧ s.left = t.left + 1) := by
  obtain ⟨u, hu, hcases⟩ := step_cases h
  have hst : u.st = .busy := by simp [hu, busy]
  obtain ⟨_, rfl⟩ | ⟨_, ⟨hs, _⟩ | ⟨hs, _⟩ | ⟨_, _, _, _, ⟨_, hl, rfl⟩ | ⟨_, he⟩⟩⟩ := hcases
  · exact .inl nofun
  · exact nomatch hs.symm.trans busy
  · exact nomatch hs.symm.trans busy
  · exact .inr ⟨hst, hl⟩
  · obtain ⟨_, notBusy, _⟩ := engineComplete_frame he
    exact .inl notBusy

theorem exists_after_not_busy {s : State} {n : Nat} (busy : s.st = .busy) (hn : s.left < n) :
    ∃ k, k ≤ n ∧ ∃ t, After s k t ∧ t.st ≠ .busy := by
  induction n generalizing s with
  | zero => exact absurd hn (Nat.not_lt_zero _)
  | succ n ih =>
    obtain ⟨u, hu⟩ := noStepStops s
    obtain leaves | ⟨still, hl⟩ := step_leaves_busy_or_counts_down busy hu
    · exact ⟨1, Nat.le_add_left 1 n, u, after_succ.mpr ⟨u, hu, rfl⟩, leaves⟩
    · obtain ⟨k, hk, t, ht, leaves⟩ := ih still (by omega)
      exact ⟨k + 1, Nat.succ_le_succ hk, t, after_succ.mpr ⟨u, hu, ht⟩, leaves⟩

/-- Settles O6: `left` is below the bound `left + 1`, and every edge that does not leave `BUSY` takes one from it. -/
theorem everyCommandInFlightEnds : Obligations.EveryCommandInFlightEnds :=
  fun s busy => exists_after_not_busy busy (Nat.lt_succ_self s.left)

end Sys2Proof.Proofs
end
